-- ==== Sys2Proof/Word.lean ====
section
/-! DEFINITION. The widths of the in_xsf DMAC (00_scope.md R4, R5). -/

namespace Sys2Proof

/-- Data bytes, banks, B-bus offsets: `BANK_W`, `BADDR_W` (R4). -/
abbrev Byte := BitVec 8

/-- In-bank addresses, counts, CPU register addresses: `ADDR_W` (R4, R72). -/
abbrev Half := BitVec 16

/-- A-bus addresses `bank:addr` (R5, R70). -/
abbrev AAddr := BitVec 24

/-- A channel number, 0 to 7 (R20). -/
abbrev Chan := BitVec 3

/-- A mask over channels: bit `c` stands for channel `c` (R5, R103). -/
abbrev Mask := BitVec 8

/-- The channels in the order both engines serve them (R261). -/
def allChans : List Chan := [0, 1, 2, 3, 4, 5, 6, 7]

end Sys2Proof
end

