-- ==== Sys2Proof/Config.lean ====
section
/-! DEFINITION. The implementation parameters of 00_scope.md R4: fixed values, and the open ones as
uninterpreted constants (no body, so that nothing can lean on a value of theirs). -/

namespace Sys2Proof

/-- What the outside delivers at one point of a `CycleSink`: the two scanline event bits of one delivery
(R115, R192) and, where it changes, the new level of the input `NMIPending` (R48; log 15). -/
structure Due where
  hdmaInit : Bool
  hdmaLine : Bool
  nmi : Option Bool
  deriving DecidableEq, Repr

namespace Config

/-- `BYTE_COST` (R4, R322). -/
def byteCost : Nat := 8

/-- `DMA_CH_OVERHEAD` (R4, R171). -/
def dmaChOverhead : Nat := 8

/-- `BLOCK_SIZE`, 64 KB (R4). -/
def blockSize : Nat := 0x10000

/-- `BBUS_BASE` (R4, R71). -/
def bbusBase : Half := 0x2100

/-- `REG_BASE` (R4, R100). -/
def regBase : Half := 0x4300

/-- `MDMAEN_ADDR` (R4, R100). -/
def mdmaenAddr : Half := 0x420B

/-- `HDMAEN_ADDR` (R4, R100). -/
def hdmaenAddr : Half := 0x420C

/-- `WRAM_PORT` (R4, R173). -/
def wramPort : Byte := 0x80

/-- `WRAM_BANKS` (R4, R173). -/
def wramBanks : List Byte := [0x7E, 0x7F]

/-- `OAM_TARGET` (R4, R236). -/
def oamTarget : Byte := 0x04

/-- `HDMA_SYNC_COST`, open (R4, U9). DESIGN CHOICE, safe: uninterpreted (log 18). -/
opaque hdmaSyncCost : Nat

/-- `DMA_SYNC_COST`, open (R4, U9). DESIGN CHOICE, safe: uninterpreted (log 18). -/
opaque dmaSyncCost : Nat

/-- `NMI_DMA_DELAY`, open (R4, U9, R195). DESIGN CHOICE, safe: uninterpreted (log 18). -/
opaque nmiDmaDelay : Nat

/-- `SDD1_PRESENT`, open (R4, U10). DESIGN CHOICE, safe: the strap's level at reset is uninterpreted (log 19). -/
opaque sdd1Present : Bool

/-- `EventsDue`, open (R4, R192, U8): the cycle total to the deliveries of that sink. DESIGN CHOICE, safe:
uninterpreted, asked only where the state's script has no entry left (log 15). -/
opaque eventsDue : Nat → List Due

/-- A byte the spec leaves open: the facade's answers (R87, U3 to U5), `UNIMPL_READ` (R155, U6), a byte past
the S-DD1 buffer (U2). DESIGN CHOICE, safe: uninterpreted, applied to a counter (log 13). -/
opaque freeByte : Nat → Byte

/-- `Cycles` at reset, a parameter of the environment (R48, U13). DESIGN CHOICE, safe: uninterpreted (log 20). -/
opaque cyclesAtReset : Nat

/-- `NMIPending` at reset, a parameter of the environment (R48, U13). DESIGN CHOICE, safe: uninterpreted (log 20). -/
opaque nmiPendingAtReset : Bool

end Config
end Sys2Proof
end

