-- ==== Sys2Proof/Syntax.lean ====
section
/-! DEFINITION. The rows of spec/opcode_table.json as constructors, and the words of its formats
(30_encoding.md R100 to R103, R115). -/

namespace Sys2Proof

/-- One constructor per row of the opcode table. Rows of the formats DMAP and LCB carry the channel whose control
byte or table the byte belongs to: the byte itself does not name it (DEDUCED, safe; log 5). -/
inductive Instr where
  /-- `WR.DMAP`, R130. -/
  | wrDmap (c : Chan) (v : Byte)
  /-- `WR.BBAD`, R131. -/
  | wrBbad (c : Chan) (v : Byte)
  /-- `WR.A1TL`, R132. -/
  | wrA1tl (c : Chan) (v : Byte)
  /-- `WR.A1TH`, R133. -/
  | wrA1th (c : Chan) (v : Byte)
  /-- `WR.A1B`, R134. -/
  | wrA1b (c : Chan) (v : Byte)
  /-- `WR.DASL`, R135. -/
  | wrDasl (c : Chan) (v : Byte)
  /-- `WR.DASH`, R136. -/
  | wrDash (c : Chan) (v : Byte)
  /-- `WR.DASB`, R137. -/
  | wrDasb (c : Chan) (v : Byte)
  /-- `WR.A2AL`, R138. -/
  | wrA2al (c : Chan) (v : Byte)
  /-- `WR.A2AH`, R139. -/
  | wrA2ah (c : Chan) (v : Byte)
  /-- `WR.NTRL`, R140. -/
  | wrNtrl (c : Chan) (v : Byte)
  /-- `WR.UNIMPL`, offset 0xB, R141. -/
  | wrUnimplB (c : Chan) (v : Byte)
  /-- `WR.UNIMPL`, offsets 0xC + r, R141. -/
  | wrUnimplCF (c : Chan) (r : BitVec 2) (v : Byte)
  /-- `WR.MDMAEN`, R142. -/
  | wrMdmaen (v : Byte)
  /-- `WR.HDMAEN`, R143. -/
  | wrHdmaen (v : Byte)
  /-- `RD.DMAP`, R144. -/
  | rdDmap (c : Chan)
  /-- `RD.BBAD`, R145. -/
  | rdBbad (c : Chan)
  /-- `RD.A1TL`, R146. -/
  | rdA1tl (c : Chan)
  /-- `RD.A1TH`, R147. -/
  | rdA1th (c : Chan)
  /-- `RD.A1B`, R148. -/
  | rdA1b (c : Chan)
  /-- `RD.DASL`, R149. -/
  | rdDasl (c : Chan)
  /-- `RD.DASH`, R150. -/
  | rdDash (c : Chan)
  /-- `RD.DASB`, R151. -/
  | rdDasb (c : Chan)
  /-- `RD.A2AL`, R152. -/
  | rdA2al (c : Chan)
  /-- `RD.A2AH`, R153. -/
  | rdA2ah (c : Chan)
  /-- `RD.NTRL`, R154. -/
  | rdNtrl (c : Chan)
  /-- `RD.UNIMPL`, offset 0xB, R155. -/
  | rdUnimplB (c : Chan)
  /-- `RD.UNIMPL`, offsets 0xC + r, R155. -/
  | rdUnimplCF (c : Chan) (r : BitVec 2)
  /-- `RD.MDMAEN`, R156. -/
  | rdMdmaen
  /-- `RD.HDMAEN`, R157. -/
  | rdHdmaen
  /-- `XFER.M0`, R179. -/
  | xferM0 (c : Chan)
  /-- `XFER.M1`, R180. -/
  | xferM1 (c : Chan)
  /-- `XFER.M2`, R181. -/
  | xferM2 (c : Chan)
  /-- `XFER.M3`, R182. -/
  | xferM3 (c : Chan)
  /-- `XFER.M4`, R183. -/
  | xferM4 (c : Chan)
  /-- `XFER.M5`, R184. -/
  | xferM5 (c : Chan)
  /-- `XFER.M6`, R185. -/
  | xferM6 (c : Chan)
  /-- `XFER.M7`, R186. -/
  | xferM7 (c : Chan)
  /-- `DIR.A2B`, R187. -/
  | dirA2B (c : Chan)
  /-- `DIR.B2A`, R188. -/
  | dirB2A (c : Chan)
  /-- `STEP.INC`, R189. -/
  | stepInc (c : Chan)
  /-- `STEP.DEC`, R190. -/
  | stepDec (c : Chan)
  /-- `STEP.FIX`, R191. -/
  | stepFix (c : Chan)
  /-- `HADDR.DIRECT`, R230. -/
  | haddrDirect (c : Chan)
  /-- `HADDR.INDIRECT`, R231. -/
  | haddrIndirect (c : Chan)
  /-- `LC.END`, R223. -/
  | lcEnd (c : Chan)
  /-- `LC.REP128`, R224. -/
  | lcRep128 (c : Chan)
  /-- `LC.SINGLE`, R225; well formed with `n` not 0. -/
  | lcSingle (c : Chan) (n : BitVec 7)
  /-- `LC.REPEAT`, R226; well formed with `n` not 0. -/
  | lcRepeat (c : Chan) (n : BitVec 7)
  /-- `DMA.EXEC_0`, R260. -/
  | dmaExec0
  /-- `DMA.EXEC_1`, R260. -/
  | dmaExec1
  /-- `DMA.EXEC_2`, R260. -/
  | dmaExec2
  /-- `DMA.EXEC_3`, R260. -/
  | dmaExec3
  /-- `DMA.EXEC_4`, R260. -/
  | dmaExec4
  /-- `DMA.EXEC_5`, R260. -/
  | dmaExec5
  /-- `DMA.EXEC_6`, R260. -/
  | dmaExec6
  /-- `DMA.EXEC_7`, R260. -/
  | dmaExec7
  /-- `HDMA.EN_0`, R265. -/
  | hdmaEn0
  /-- `HDMA.EN_1`, R265. -/
  | hdmaEn1
  /-- `HDMA.EN_2`, R265. -/
  | hdmaEn2
  /-- `HDMA.EN_3`, R265. -/
  | hdmaEn3
  /-- `HDMA.EN_4`, R265. -/
  | hdmaEn4
  /-- `HDMA.EN_5`, R265. -/
  | hdmaEn5
  /-- `HDMA.EN_6`, R265. -/
  | hdmaEn6
  /-- `HDMA.EN_7`, R265. -/
  | hdmaEn7
  /-- `EV.RESET`, R264. -/
  | evReset
  /-- `EV.HDMA_INIT`, R262. -/
  | evHdmaInit
  /-- `EV.HDMA_LINE`, R263. -/
  | evHdmaLine
  deriving DecidableEq, Repr

/-- A word in the format it arrives in (R118): the table gives bits within a format, and the format is known from
where the word stands (the register port, a control byte, an HDMA table, an enable register, the event input). -/
inductive Raw where
  /-- Format `REGW`: (`rw` = write, `addr`, `data`), R100. -/
  | regw (addr : Half) (data : Byte)
  /-- Format `REGR`: (`rw` = read, `addr`), R100. -/
  | regr (addr : Half)
  /-- Format `DMAP`: the control byte of channel `c`, R101. -/
  | dmap (c : Chan) (byte : Byte)
  /-- Format `LCB`: a line-count byte of channel `c`, R102. -/
  | lcb (c : Chan) (byte : Byte)
  /-- Format `MASK` in `MDMAEN`, R103. -/
  | mdma (mask : Mask)
  /-- Format `MASK` in `HDMAEN`, R103. -/
  | hdma (mask : Mask)
  /-- Format `EVENT`: `EV[2:0]`, R115. -/
  | event (ev : BitVec 3)
  deriving DecidableEq, Repr

end Sys2Proof
end

