-- ==== Sys2Proof/WellFormed.lean ====
section
/-! DEFINITION. The one constraint of the opcode table that the operand types do not carry: `LC.SINGLE` and
`LC.REPEAT` have a count that is not 0 (30_encoding.md R102, R118). -/

namespace Sys2Proof

/-- A line count of 0 belongs to the classes `LC.END` and `LC.REP128` (R102). -/
def Instr.wellFormed : Instr → Bool
  | .lcSingle _ n => n != 0
  | .lcRepeat _ n => n != 0
  | _ => true

end Sys2Proof
end

