-- ==== Sys2Proof/Decode.lean ====
section
/-! DEFINITION. The decoders of the six formats, total on every word, and after them the encoder
(30_encoding.md R100 to R103, R115, R118, R119). -/

namespace Sys2Proof

/-- Why a word decodes to nothing. -/
inductive Reject where
  /-- The address matches no row of R100: the transaction is not addressed to the block (R159). -/
  | notTheBlocks (addr : Half)
  deriving DecidableEq, Repr

/-- The address of a channel register lies in `0x4300 .. 0x437F` (R100). -/
def isChannelAddr (addr : Half) : Bool := addr &&& 0xFF80 == Config.regBase

/-- `c = addr[6:4]` (R100). -/
def chanOf (addr : Half) : Chan := addr.extractLsb' 4 3

/-- `r = addr[3:0]` (R100). -/
def regOf (addr : Half) : BitVec 4 := addr.extractLsb' 0 4

/-- The write row of register `r` of a channel (R130 to R141). -/
def channelWrite (c : Chan) (r : BitVec 4) (v : Byte) : Instr :=
  match r.toNat with
  | 0 => .wrDmap c v
  | 1 => .wrBbad c v
  | 2 => .wrA1tl c v
  | 3 => .wrA1th c v
  | 4 => .wrA1b c v
  | 5 => .wrDasl c v
  | 6 => .wrDash c v
  | 7 => .wrDasb c v
  | 8 => .wrA2al c v
  | 9 => .wrA2ah c v
  | 10 => .wrNtrl c v
  | 11 => .wrUnimplB c v
  | _ => .wrUnimplCF c (r.extractLsb' 0 2) v

/-- The read row of register `r` of a channel (R144 to R155). -/
def channelRead (c : Chan) (r : BitVec 4) : Instr :=
  match r.toNat with
  | 0 => .rdDmap c
  | 1 => .rdBbad c
  | 2 => .rdA1tl c
  | 3 => .rdA1th c
  | 4 => .rdA1b c
  | 5 => .rdDasl c
  | 6 => .rdDash c
  | 7 => .rdDasb c
  | 8 => .rdA2al c
  | 9 => .rdA2ah c
  | 10 => .rdNtrl c
  | 11 => .rdUnimplB c
  | _ => .rdUnimplCF c (r.extractLsb' 0 2)

/-- Format `REGW` (R100). -/
def decodeRegW (addr : Half) (data : Byte) : Except Reject Instr :=
  if addr = Config.mdmaenAddr then .ok (.wrMdmaen data)
  else if addr = Config.hdmaenAddr then .ok (.wrHdmaen data)
  else if isChannelAddr addr then .ok (channelWrite (chanOf addr) (regOf addr) data)
  else .error (.notTheBlocks addr)

/-- Format `REGR` (R100). -/
def decodeRegR (addr : Half) : Except Reject Instr :=
  if addr = Config.mdmaenAddr then .ok .rdMdmaen
  else if addr = Config.hdmaenAddr then .ok .rdHdmaen
  else if isChannelAddr addr then .ok (channelRead (chanOf addr) (regOf addr))
  else .error (.notTheBlocks addr)

/-- The four independent fields of a control byte (R101): "the byte is a bundle, not one opcode". -/
structure Bundle where
  xfer : Instr
  dir : Instr
  step : Instr
  haddr : Instr
  deriving DecidableEq, Repr

/-- `MODE`, bits 2:0 (R101, R179 to R186). -/
def decodeXfer (c : Chan) (mode : BitVec 3) : Instr :=
  match mode.toNat with
  | 0 => .xferM0 c
  | 1 => .xferM1 c
  | 2 => .xferM2 c
  | 3 => .xferM3 c
  | 4 => .xferM4 c
  | 5 => .xferM5 c
  | 6 => .xferM6 c
  | _ => .xferM7 c

/-- `DIR`, bit 7 (R101, R187, R188). -/
def decodeDir (c : Chan) (dir : Bool) : Instr := if dir then .dirB2A c else .dirA2B c

/-- `DEC` and `FIX`, bits 4 and 3 (R101, R189 to R191): `FIX` decides whatever `DEC` holds. -/
def decodeStep (c : Chan) (dec fix : Bool) : Instr :=
  if fix then .stepFix c else if dec then .stepDec c else .stepInc c

/-- `IND`, bit 6 (R101, R230, R231). -/
def decodeHaddr (c : Chan) (ind : Bool) : Instr := if ind then .haddrIndirect c else .haddrDirect c

/-- Format `DMAP`: the bundle of channel `c`'s control byte (R101). Bit 5 decides nothing (R113). -/
def decodeDmap (c : Chan) (byte : Byte) : Bundle where
  xfer := decodeXfer c (byte.extractLsb' 0 3)
  dir := decodeDir c (byte.getLsbD 7)
  step := decodeStep c (byte.getLsbD 4) (byte.getLsbD 3)
  haddr := decodeHaddr c (byte.getLsbD 6)

/-- Format `LCB`, the four classes in the order R118 tests them (R102). -/
def decodeLcb (c : Chan) (byte : Byte) : Instr :=
  if byte = 0x00 then .lcEnd c
  else if byte = 0x80 then .lcRep128 c
  else if byte.getLsbD 7 then .lcRepeat c (byte.extractLsb' 0 7)
  else .lcSingle c (byte.extractLsb' 0 7)

/-- The row `DMA.EXEC_c` (R260). -/
def dmaExecOf (c : Chan) : Instr :=
  match c.toNat with
  | 0 => .dmaExec0
  | 1 => .dmaExec1
  | 2 => .dmaExec2
  | 3 => .dmaExec3
  | 4 => .dmaExec4
  | 5 => .dmaExec5
  | 6 => .dmaExec6
  | _ => .dmaExec7

/-- The row `HDMA.EN_c` (R265). -/
def hdmaEnOf (c : Chan) : Instr :=
  match c.toNat with
  | 0 => .hdmaEn0
  | 1 => .hdmaEn1
  | 2 => .hdmaEn2
  | 3 => .hdmaEn3
  | 4 => .hdmaEn4
  | 5 => .hdmaEn5
  | 6 => .hdmaEn6
  | _ => .hdmaEn7

/-- The channels whose bit is set, ascending (R103, R118). -/
def maskChans (mask : Mask) : List Chan := allChans.filter fun c => mask.getLsbD c.toNat

/-- Format `MASK` in `MDMAEN`: one instruction per set bit, "served in ascending channel order" (R118). -/
def decodeMdma (mask : Mask) : List Instr := (maskChans mask).map dmaExecOf

/-- Format `MASK` in `HDMAEN` (R103, R118). -/
def decodeHdma (mask : Mask) : List Instr := (maskChans mask).map hdmaEnOf

/-- Format `EVENT`: the set bits of one delivery, "taken in the order `RESET`, `HDMA_INIT`, `HDMA_LINE`" (R115). -/
def decodeEvent (ev : BitVec 3) : List Instr :=
  (if ev.getLsbD 2 then [.evReset] else []) ++
  (if ev.getLsbD 1 then [.evHdmaInit] else []) ++
  (if ev.getLsbD 0 then [.evHdmaLine] else [])

/-- The instructions a word stands for, in the order they are served, or why it stands for none. -/
def decode : Raw → Except Reject (List Instr)
  | .regw addr data => (decodeRegW addr data).map fun i => [i]
  | .regr addr => (decodeRegR addr).map fun i => [i]
  | .dmap c byte =>
    let b := decodeDmap c byte
    .ok [b.xfer, b.dir, b.step, b.haddr]
  | .lcb c byte => .ok [decodeLcb c byte]
  | .mdma mask => .ok (decodeMdma mask)
  | .hdma mask => .ok (decodeHdma mask)
  | .event ev => .ok (decodeEvent ev)

/-- The instruction of the opcode-table row that a word of `nbits` bits is read as. The table's words do not say
their format, so the length decides: two bytes are a `REGW` address (the data byte above it), one byte is the control
byte of channel 0, read as its most significant field that is not all zeros, else as its mode
(DESIGN CHOICE, safe: no meaning depends on it; log 3). -/
def decodeTableWord (nbits w : Nat) : Option Instr :=
  if nbits ≤ 8 then
    let byte := BitVec.ofNat 8 w
    let b := decodeDmap 0 byte
    some (if byte.getLsbD 7 then b.dir
      else if byte.extractLsb' 3 2 != 0 then b.step
      else b.xfer)
  else
    match decodeRegW (BitVec.ofNat 16 w) (BitVec.ofNat 8 (w / 0x10000)) with
    | .ok i => some i
    | .error _ => none

/-! ## The encoder -/

/-- `0x43cr`: the address of register `r` of channel `c` (R100). -/
def channelAddr (c : Chan) (r : BitVec 4) : Half := (0x086#9 ++ c) ++ r

/-- The one-hot mask of a channel (R103). -/
def oneHot (c : Chan) : Mask := 1#8 <<< c.toNat

/-- The word of an instruction, from the rows of the opcode table. The bits a `DMAP` row leaves to the other fields
are 0. -/
def encode : Instr → Raw
  | .wrDmap c v => .regw (channelAddr c 0) v
  | .wrBbad c v => .regw (channelAddr c 1) v
  | .wrA1tl c v => .regw (channelAddr c 2) v
  | .wrA1th c v => .regw (channelAddr c 3) v
  | .wrA1b c v => .regw (channelAddr c 4) v
  | .wrDasl c v => .regw (channelAddr c 5) v
  | .wrDash c v => .regw (channelAddr c 6) v
  | .wrDasb c v => .regw (channelAddr c 7) v
  | .wrA2al c v => .regw (channelAddr c 8) v
  | .wrA2ah c v => .regw (channelAddr c 9) v
  | .wrNtrl c v => .regw (channelAddr c 10) v
  | .wrUnimplB c v => .regw (channelAddr c 11) v
  | .wrUnimplCF c r v => .regw (channelAddr c (3#2 ++ r)) v
  | .wrMdmaen v => .regw Config.mdmaenAddr v
  | .wrHdmaen v => .regw Config.hdmaenAddr v
  | .rdDmap c => .regr (channelAddr c 0)
  | .rdBbad c => .regr (channelAddr c 1)
  | .rdA1tl c => .regr (channelAddr c 2)
  | .rdA1th c => .regr (channelAddr c 3)
  | .rdA1b c => .regr (channelAddr c 4)
  | .rdDasl c => .regr (channelAddr c 5)
  | .rdDash c => .regr (channelAddr c 6)
  | .rdDasb c => .regr (channelAddr c 7)
  | .rdA2al c => .regr (channelAddr c 8)
  | .rdA2ah c => .regr (channelAddr c 9)
  | .rdNtrl c => .regr (channelAddr c 10)
  | .rdUnimplB c => .regr (channelAddr c 11)
  | .rdUnimplCF c r => .regr (channelAddr c (3#2 ++ r))
  | .rdMdmaen => .regr Config.mdmaenAddr
  | .rdHdmaen => .regr Config.hdmaenAddr
  | .xferM0 c => .dmap c 0x00
  | .xferM1 c => .dmap c 0x01
  | .xferM2 c => .dmap c 0x02
  | .xferM3 c => .dmap c 0x03
  | .xferM4 c => .dmap c 0x04
  | .xferM5 c => .dmap c 0x05
  | .xferM6 c => .dmap c 0x06
  | .xferM7 c => .dmap c 0x07
  | .dirA2B c => .dmap c 0x00
  | .dirB2A c => .dmap c 0x80
  | .stepInc c => .dmap c 0x00
  | .stepDec c => .dmap c 0x10
  | .stepFix c => .dmap c 0x08
  | .haddrDirect c => .dmap c 0x00
  | .haddrIndirect c => .dmap c 0x40
  | .lcEnd c => .lcb c 0x00
  | .lcRep128 c => .lcb c 0x80
  | .lcSingle c n => .lcb c (0#1 ++ n)
  | .lcRepeat c n => .lcb c (1#1 ++ n)
  | .dmaExec0 => .mdma (oneHot 0)
  | .dmaExec1 => .mdma (oneHot 1)
  | .dmaExec2 => .mdma (oneHot 2)
  | .dmaExec3 => .mdma (oneHot 3)
  | .dmaExec4 => .mdma (oneHot 4)
  | .dmaExec5 => .mdma (oneHot 5)
  | .dmaExec6 => .mdma (oneHot 6)
  | .dmaExec7 => .mdma (oneHot 7)
  | .hdmaEn0 => .hdma (oneHot 0)
  | .hdmaEn1 => .hdma (oneHot 1)
  | .hdmaEn2 => .hdma (oneHot 2)
  | .hdmaEn3 => .hdma (oneHot 3)
  | .hdmaEn4 => .hdma (oneHot 4)
  | .hdmaEn5 => .hdma (oneHot 5)
  | .hdmaEn6 => .hdma (oneHot 6)
  | .hdmaEn7 => .hdma (oneHot 7)
  | .evReset => .event 4
  | .evHdmaInit => .event 2
  | .evHdmaLine => .event 1

end Sys2Proof
end

