-- ==== Sys2Proof/Machine/State.lean ====
section
/-! DEFINITION. The state of the in_xsf DMAC (10_state.md R20 to R57), its reset value, and the reasons a step can
stop. Plain data throughout. -/

namespace Sys2Proof.Machine

/-- One row of the channel register file (R20). -/
@[ext] structure Channel where
  /-- `DIR`: `false` forward (A-bus to B-bus), `true` reverse (R21). -/
  dir : Bool
  /-- `IND`: HDMA indirect addressing (R22). -/
  ind : Bool
  /-- `U5`: stored and read back, no function (R23). -/
  u5 : Bool
  /-- `DEC` (R24). -/
  dec : Bool
  /-- `FIX` (R25). -/
  fix : Bool
  /-- `MODE` (R26). -/
  mode : BitVec 3
  /-- `BBAD` (R27). -/
  bbad : Byte
  /-- `A1T` (R28). -/
  a1t : Half
  /-- `A1B` (R29). -/
  a1b : Byte
  /-- `DAS`: DMA count and HDMA indirect address in one storage (R30). -/
  das : Half
  /-- `DASB` (R31). -/
  dasb : Byte
  /-- `A2A` (R32). -/
  a2a : Half
  /-- `Repeat` (R33). -/
  rep : Bool
  /-- `LineCount` (R34). -/
  lineCount : Byte
  /-- `DoTransfer` (R35). -/
  doTransfer : Bool
  /-- `PTR`: none, or the A-bus address the cached pointer designates (R36, R235, U12; log 22). -/
  ptr : Option AAddr
  deriving DecidableEq, Repr

/-- What `ResetAllChannels` leaves in a row (R310; R55). -/
def Channel.reset : Channel where
  dir := true
  ind := true
  u5 := true
  dec := true
  fix := true
  mode := 7
  bbad := 0xFF
  a1t := 0xFFFF
  a1b := 0xFF
  das := 0xFFFF
  dasb := 0xFF
  a2a := 0xFFFF
  rep := false
  lineCount := 0x7F
  doTransfer := false
  ptr := none

/-- What backs a region of the A-bus (R77: "contiguous RAM/ROM regions"). -/
inductive MemKind where
  | ram
  | rom
  deriving DecidableEq, Repr

/-- A contiguous RAM or ROM region of the facade's A-bus map (R77, R82; log 9). -/
structure Region where
  base : Nat
  size : Nat
  kind : MemKind
  deriving DecidableEq, Repr

/-- The block's globals as the facade and the Cycle Accountant see them with a transaction (R85). -/
structure Context where
  inDMA : Bool
  inHDMA : Bool
  inEither : Bool
  currentChannel : Option Chan
  deriving DecidableEq, Repr

/-- What the outside can observe of the block (R11). -/
inductive Observed where
  /-- `ReadByte(addr)` and the byte it answered: `ARead` (R6). -/
  | readByte (addr : AAddr) (v : Byte)
  /-- `WriteByte(v, addr)`: `AWrite` (R6). -/
  | writeByte (addr : AAddr) (v : Byte)
  /-- `ReadRegister(addr)` and the byte it answered: `BRead` (R6). -/
  | readRegister (addr : Half) (v : Byte)
  /-- `WriteRegister(v, addr)`: `BWrite` (R6). -/
  | writeRegister (addr : Half) (v : Byte)
  /-- `ResolveBasePointer(addr)` (R83). -/
  | resolveBase (addr : AAddr)
  /-- `ResolveDirectMemoryPointer(addr)` (R83). -/
  | resolveDirect (addr : AAddr)
  /-- `OamFix()` (R236). -/
  | oamFix
  /-- `AddCycles(n)` (R6). -/
  | addCycles (n : Nat)
  /-- The pulse `NMIReschedule(delay)` (R195). -/
  | nmiReschedule (delay : Nat)
  /-- The result byte of a register read (R144 to R157). -/
  | readBack (v : Byte)
  /-- The result of `ExecuteDMA(c)` (R170, R281). -/
  | dmaResult (c : Chan) (completed : Bool)
  /-- The result of a direct call of `AdvanceHDMALines` (R228). -/
  | remainingMask (mask : Mask)
  deriving DecidableEq, Repr

/-- An observation and the globals it was made with (R11, R85). -/
structure Entry where
  what : Observed
  ctx : Context
  deriving DecidableEq, Repr

/-- What the host and the rest of the system can do to the block between transfers (60_exceptions.md R294, R116;
log 2, log 27). -/
inductive Move where
  /-- A CPU register write, format `REGW` (R100). -/
  | regWrite (addr : Half) (data : Byte)
  /-- A CPU register read, format `REGR` (R100). -/
  | regRead (addr : Half)
  /-- A delivery on the event input, format `EVENT` (R115). -/
  | event (ev : BitVec 3)
  /-- `CALL ExecuteDMA(c)` (R116, R170). -/
  | callExecuteDMA (c : Chan)
  /-- `CALL InitializeHDMALines()` (R116, R221). -/
  | callInitializeHDMALines
  /-- `CALL AdvanceHDMALines(mask)` (R116, R228). -/
  | callAdvanceHDMALines (mask : Mask)
  /-- `CALL ResetAllChannels()` (R116, R310, R311). -/
  | callResetAllChannels
  /-- The CPU core changes its input `NMIPending` (R48). -/
  | setNmi (level : Bool)
  /-- The custom chip fills its buffer and sets `SDD1_FLAG` (R47). -/
  | loadSdd1 (buf : List Byte)
  /-- The CPU stores a byte to A-bus memory (R80). -/
  | cpuStore (addr : AAddr) (v : Byte)
  deriving DecidableEq, Repr

/-- The locals of the one `ExecuteDMA` that can be in flight (R170, R56). -/
@[ext] structure Seq where
  /-- The argument `c` of the call in flight; none when no call is. -/
  busy : Option Chan
  /-- `N`, the 17-bit local counter (R170 line 2). -/
  remaining : Nat
  /-- `Invalid(c)`, evaluated once at entry (R173). -/
  invalid : Bool
  /-- The local `sdd1` (R170 line 10). -/
  sdd1On : Bool
  /-- The local `k` (R170 line 11). -/
  sdd1Index : Nat
  /-- The DMA's fast-path base pointer: none, or the base of the block it was resolved for (R197). -/
  basePtr : Option AAddr
  /-- The multiplexer's output, the B-bus offset of the byte being moved (R268); the model's own latch (log 4). -/
  bOff : Byte
  deriving DecidableEq, Repr

/-- No `ExecuteDMA` in flight. DESIGN CHOICE, safe: the values besides `busy` have no meaning then (log 21). -/
def Seq.idle : Seq where
  busy := none
  remaining := 0
  invalid := false
  sdd1On := false
  sdd1Index := 0
  basePtr := none
  bOff := 0

/-- The state outside the block that it reads or drives (R48, R81 to R87), and the inputs still to come. -/
@[ext] structure Env where
  /-- `Cycles` (R48). Its width is not in the spec: a `Nat` (log 20). -/
  cycles : Nat
  /-- `NMIPending` (R48). -/
  nmiPending : Bool
  /-- `SDD1_PRESENT`, a strap (R4; log 19). -/
  sdd1Present : Bool
  /-- `SDD1_BUF` (R47). -/
  sdd1Buf : List Byte
  /-- The facade's contiguous RAM and ROM regions (R77, R82; log 9). -/
  aMap : List Region
  /-- A-bus memory: the known bytes of those regions, addresses strictly rising (R70; log 10). -/
  aMem : List Host.Cell
  /-- What has been observed, newest first (R11; log 24). -/
  trace : List Entry
  /-- Host moves to come, the next one first (log 2). -/
  inbox : List Move
  /-- What the coming `CycleSink`s deliver, the next one first (R116 `SINK`; log 15). -/
  script : List (List Due)
  /-- Bytes the outside will answer next, before free ones (log 13). -/
  answers : List Byte
  /-- How many free bytes have been taken; the model's own counter (log 13). -/
  drawn : Nat
  deriving DecidableEq, Repr

/-- Everything the spec gives the machine. -/
@[ext]
structure State where
  /-- The register file `ch[0] .. ch[7]` (R20). -/
  ch : Vector Channel 8
  /-- `InDMA` (R37). -/
  inDMA : Bool
  /-- `InHDMA` (R38). -/
  inHDMA : Bool
  /-- `InEither`, the CPU stall signal (R39, R269). -/
  inEither : Bool
  /-- `CurrentChannel` (R40). -/
  currentChannel : Option Chan
  /-- `HDMARanInDMA` (R41). -/
  hdmaRanInDMA : Mask
  /-- `HDMAEN` (R42). -/
  hdmaen : Mask
  /-- `HDMA_ACTIVE` (R43). -/
  hdmaActive : Mask
  /-- `HDMA_ENDED` (R44). -/
  hdmaEnded : Mask
  /-- `MDMAEN` (R45). -/
  mdmaen : Mask
  /-- `PatternStep` (R46). -/
  patternStep : BitVec 2
  /-- `SDD1_FLAG` (R47). -/
  sdd1Flag : Bool
  /-- The locals of the `ExecuteDMA` in flight. -/
  seq : Seq
  /-- What lies outside the block. -/
  env : Env
  deriving DecidableEq, Repr

/-- The environment at reset: parameters uninterpreted, no region known, nothing listed, no input waiting
(DESIGN CHOICE; log 2, 9, 13, 15, 19, 20, 21). -/
def Env.reset : Env where
  cycles := Config.cyclesAtReset
  nmiPending := Config.nmiPendingAtReset
  sdd1Present := Config.sdd1Present
  sdd1Buf := []
  aMap := []
  aMem := []
  trace := []
  inbox := []
  script := []
  answers := []
  drawn := 0

/-- The machine right after reset (R55, R310, R311). -/
def State.reset : State where
  ch := Vector.replicate 8 Channel.reset
  inDMA := false
  inHDMA := false
  inEither := false
  currentChannel := none
  hdmaRanInDMA := 0
  hdmaen := 0
  hdmaActive := 0
  hdmaEnded := 0
  mdmaen := 0
  patternStep := 0
  sdd1Flag := false
  seq := Seq.idle
  env := Env.reset

/-- Why the machine stops with a fault: never. "The block raises no synchronous exception" (R280), and R292 counts no
fault among the outcomes. Safe and unsafe alike do not arise: no constructor, so no step can answer one. -/
inductive Fault where
  deriving DecidableEq, Repr

/-- Why a step gives a transaction no meaning: a move the host never makes (R293; log 25). -/
inductive Refusal where
  /-- Raised by `exec` alone, for an instruction with no meaning yet. Safe. -/
  | notModelled (mnemonic : String)
  /-- Raised by every register access while `InEither = 1` (R158, R293 a). Safe. -/
  | portWhileBusy
  /-- Raised by `ExecuteDMA` while `InEither = 1` (R170, R293 b). Safe. -/
  | dmaWhileBusy
  /-- Raised by an HDMA event or call while `InHDMA = 1` (R262, R293 c). Safe. -/
  | hdmaWhileInHDMA
  /-- Raised by `EV.RESET` while `InEither = 1` (R264, R293 d). Safe. -/
  | resetWhileBusy
  deriving DecidableEq, Repr

end Sys2Proof.Machine
end

