-- ==== Sys2Proof/Machine/Operands.lean ====
section
/-! DEFINITION. Operand assembly: the packed register bytes, register halves, the transfer-mode table, A-bus and
B-bus addresses, the DMA count and step (30_encoding.md R101, R102, R106 to R111, R119). -/

namespace Sys2Proof.Machine

/-! ## Packed register bytes and register halves -/

/-- The control byte `DMAP` as it reads back (R101, R144). -/
def Channel.controlByte (r : Channel) : Byte :=
  BitVec.ofBool r.dir ++ BitVec.ofBool r.ind ++ BitVec.ofBool r.u5 ++ BitVec.ofBool r.dec ++ BitVec.ofBool r.fix ++ r.mode

/-- The row with the fields of a control byte (R101, R130). -/
def Channel.withControlByte (v : Byte) (r : Channel) : Channel :=
  { r with
    dir := v.getLsbD 7
    ind := v.getLsbD 6
    u5 := v.getLsbD 5
    dec := v.getLsbD 4
    fix := v.getLsbD 3
    mode := v.extractLsb' 0 3 }

/-- `(n = 0) ? 128 : n` for the seven count bits of a line-count byte (R102, R119). -/
def lineCountOf (n : BitVec 7) : Byte := if n = 0 then 128 else 0#1 ++ n

/-- `NTRL` as it reads back: `{Repeat, LineCount[6:0]}` (R119, R154). -/
def Channel.ntrlByte (r : Channel) : Byte := BitVec.ofBool r.rep ++ r.lineCount.extractLsb' 0 7

/-- The row after a CPU write of `NTRL` (R119, R140). -/
def Channel.withNtrlByte (v : Byte) (r : Channel) : Channel :=
  { r with rep := v.getLsbD 7, lineCount := lineCountOf (v.extractLsb' 0 7) }

/-- Bits 7:0 of a 16-bit field: the register at the lower address (R73 a). -/
def lowByte (h : Half) : Byte := h.extractLsb' 0 8

/-- Bits 15:8 of a 16-bit field (R73 a). -/
def highByte (h : Half) : Byte := h.extractLsb' 8 8

/-- Bits 7:0 replaced, bits 15:8 kept (R132). -/
def setLowByte (h : Half) (v : Byte) : Half := highByte h ++ v

/-- Bits 15:8 replaced, bits 7:0 kept (R133). -/
def setHighByte (h : Half) (v : Byte) : Half := v ++ lowByte h

/-! ## The transfer-mode table -/

/-- `LEN[MODE]`, which is also the HDMA group length `G` (R106, R107). -/
def len (mode : BitVec 3) : Nat :=
  match mode.toNat with
  | 0 => 1
  | 1 => 2
  | 2 => 2
  | 3 => 4
  | 4 => 4
  | 5 => 4
  | 6 => 2
  | _ => 4

/-- `PAT[MODE]`, every pattern written out to four positions (R106). -/
def patRow (mode : BitVec 3) : List Byte :=
  match mode.toNat with
  | 0 => [0, 0, 0, 0]
  | 1 => [0, 1, 0, 1]
  | 2 => [0, 0, 0, 0]
  | 3 => [0, 0, 1, 1]
  | 4 => [0, 1, 2, 3]
  | 5 => [0, 1, 0, 1]
  | 6 => [0, 0, 0, 0]
  | _ => [0, 0, 1, 1]

/-- `PAT[MODE][step]` (R106). -/
def pat (mode : BitVec 3) (step : BitVec 2) : Byte := (patRow mode).getD step.toNat 0

/-- `(PatternStep + 1) mod LEN[MODE]` (R178). -/
def nextPatternStep (mode : BitVec 3) (step : BitVec 2) : BitVec 2 := BitVec.ofNat 2 ((step.toNat + 1) % len mode)

/-! ## Addresses -/

/-- `bank:addr` (R70, R108). -/
def aAddr (bank : Byte) (addr : Half) : AAddr := bank ++ addr

/-- `off = (BBAD + PAT[MODE][step]) mod 256` (R109, R268). -/
def bOffset (bbad : Byte) (mode : BitVec 3) (step : BitVec 2) : Byte := bbad + pat mode step

/-- The facade's register address of a B-bus offset, `BBUS_BASE + off` (R71, R109). -/
def bbusAddr (off : Byte) : Half := Config.bbusBase + off.setWidth 16

/-- The DMA's A-bus address `A1B:A1T` (R108). -/
def Channel.dmaAddr (r : Channel) : AAddr := aAddr r.a1b r.a1t

/-- The address of the next HDMA table byte, `A1B:A2A` (R108). -/
def Channel.tableAddr (r : Channel) : AAddr := aAddr r.a1b r.a2a

/-- The bank of the HDMA data: `DASB` indirect, `A1B` direct (R229). -/
def Channel.sourceBank (ind : Bool) (r : Channel) : Byte := if ind then r.dasb else r.a1b

/-- The in-bank address of the HDMA data: `DAS` indirect, `A2A` direct (R229). -/
def Channel.sourceBase (ind : Bool) (r : Channel) : Half := if ind then r.das else r.a2a

/-- The current HDMA source address (R108, R235). -/
def Channel.sourceAddr (ind : Bool) (r : Channel) : AAddr := aAddr (r.sourceBank ind) (r.sourceBase ind)

/-- The source pointer advanced by `g` bytes, in its bank (R229, R232). -/
def Channel.advanceSource (ind : Bool) (g : Nat) (r : Channel) : Channel :=
  if ind then { r with das := r.das + BitVec.ofNat 16 g } else { r with a2a := r.a2a + BitVec.ofNat 16 g }

/-! ## The DMA count, step and invalid predicate -/

/-- `DAS <- DAS - 1` (R170 lines 6 and 20). Where the channel is indirect, `DAS` is also its HDMA source address, so the
cached pointer no longer designates the source byte and is dropped: the invariant of R235 (DEDUCED, safe; log 22). -/
def Channel.countDas (r : Channel) : Channel := { r with das := r.das - 1, ptr := if r.ind then none else r.ptr }

/-- `N = (DAS = 0) ? 0x10000 : DAS` (R110). -/
def dmaCount (das : Half) : Nat := if das = 0 then 0x10000 else das.toNat

/-- `Step(c)`: 0 if `FIX`, else -1 if `DEC`, else +1, as a 16-bit addend (R111, R175). -/
def Channel.addrStep (r : Channel) : Half := if r.fix then 0 else if r.dec then 0xFFFF else 1

/-- `Invalid(c)` (R173). -/
def Channel.isInvalid (r : Channel) : Bool :=
  Config.wramBanks.contains r.a1b && r.bbad == Config.wramPort && !r.dir

/-- The HDMA group runs to the end of its 64 KB block: `base + G >= 0x10000` (R235). -/
def crossesBlock (base : Half) (g : Nat) : Bool := Config.blockSize ≤ base.toNat + g

end Sys2Proof.Machine
end

