-- ==== Sys2Proof/Machine/Flags.lean ====
section
/-! DEFINITION. The block's flags: bits of the channel masks, and the global transfer flags with the entry into and
the return from each engine (10_state.md R37 to R44, 60_exceptions.md R285, R286). -/

namespace Sys2Proof.Machine

/-! ## Bits of a channel mask (R103) -/

/-- `mask[c] = 1`. -/
def hasBit (mask : Mask) (c : Chan) : Bool := mask.getLsbD c.toNat

/-- `mask[c] <- 1`. -/
def withBit (mask : Mask) (c : Chan) : Mask := mask ||| (1#8 <<< c.toNat)

/-- `mask[c] <- 0`. -/
def withoutBit (mask : Mask) (c : Chan) : Mask := mask &&& ~~~(1#8 <<< c.toNat)

/-- The set bit the arbiter serves next: the lowest (R260, R261). -/
def lowestChan (mask : Mask) : Option Chan := allChans.find? (hasBit mask)

/-! ## Global transfer flags -/

/-- What the facade sees of the globals (R85). -/
def State.context (s : State) : Context := ⟨s.inDMA, s.inHDMA, s.inEither, s.currentChannel⟩

/-- Flags at the entry of `ExecuteDMA(c)` (R170 line 1, R171). -/
def State.enterDMA (c : Chan) (s : State) : State :=
  { s with inDMA := true, inEither := true, currentChannel := some c }

/-- Flags where `ExecuteDMA` ends, by completion or by abort (R170 lines 24 and 27, R193, R194). -/
def State.leaveDMA (s : State) : State :=
  { s with inDMA := false, inEither := false, currentChannel := none }

/-- Flags at the entry of an HDMA call, the preempting one included (R221 line 1, R228 line 1, R285). -/
def State.enterHDMA (s : State) : State := { s with inHDMA := true, inEither := true }

/-- Flags where an HDMA call ends: the saved channel comes back and `InEither <- InDMA` (R221 line 12, R228 line 17,
R286). -/
def State.leaveHDMA (saved : Option Chan) (s : State) : State :=
  { s with inHDMA := false, inEither := s.inDMA, currentChannel := saved }

/-- The channels recorded as having run inside a DMA: the handled ones if `InDMA`, else none (R237). -/
def State.recordRan (handled : Mask) (s : State) : State :=
  { s with hdmaRanInDMA := if s.inDMA then handled else 0 }

end Sys2Proof.Machine
end

