-- ==== Sys2Proof/Machine/Ops.lean ====
section
/-! DEFINITION. The named operations every meaning is written over: the register file, the facade and its memory, the
Cycle Accountant, free values, the byte mover, the resolvers, preemption through the cycle sink's inputs
(00_scope.md R6, 20_memory.md R70 to R88, 41_dma_transfer.md R176, R177). -/

namespace Sys2Proof.Machine

/-! ## The register file (R20, R268) -/

/-- `ch[c]`. -/
def State.row (c : Chan) (s : State) : Channel := s.ch[c.toNat]'c.isLt

/-- `ch[c] <- r`. -/
def State.setRow (c : Chan) (r : Channel) (s : State) : State := { s with ch := s.ch.set c.toNat r c.isLt }

/-- `ch[c]` changed field-wise. -/
def State.updRow (c : Chan) (f : Channel → Channel) (s : State) : State := s.setRow c (f (s.row c))

/-! ## A-bus memory as a list of cells -/

/-- The byte listed at an address, if one is. -/
def memGet : List Host.Cell → Nat → Option Byte
  | [], _ => none
  | (k, v) :: m, a => if k = a then some v else memGet m a

/-- One byte stored, the addresses kept strictly rising. -/
def memSet : List Host.Cell → Nat → Byte → List Host.Cell
  | [], a, v => [(a, v)]
  | (k, w) :: m, a, v =>
    if a < k then (a, v) :: (k, w) :: m
    else if a = k then (a, v) :: m
    else (k, w) :: memSet m a v

/-- The canonical form: addresses strictly rising and inside the 24-bit space. An unlisted address has no stored
value, so no entry can equal one (log 10). -/
def Memory.wf : List Host.Cell → Bool
  | [] => true
  | [(k, _)] => k < 0x1000000
  | (k, _) :: (k', v') :: m => k < k' && Memory.wf ((k', v') :: m)

/-- The region holds the address. -/
def Region.has (r : Region) (a : Nat) : Bool := r.base ≤ a && a < r.base + r.size

/-- What backs an address: the first region that holds it, or nothing the facade resolves (R77; log 9). -/
def Env.kindAt (e : Env) (a : Nat) : Option MemKind := (e.aMap.find? fun r => r.has a).map fun r => r.kind

/-- The stored byte of an address inside a RAM or ROM region, where one is known. Every 24-bit address is a cell of its
own, so no address mirrors another: what U5 leaves to the facade for WRAM reached through mirrors (R86) is settled here
(DESIGN CHOICE, unsafe; log 33). -/
def Env.peek (e : Env) (a : AAddr) : Option Byte :=
  match e.kindAt a.toNat with
  | some _ => memGet e.aMem a.toNat
  | none => none

/-- A store at the facade: RAM keeps the byte, ROM ignores it (PRESUMED, unsafe; log 11), and what lies outside the
regions is not memory (log 9). RAM keeps the byte also where it comes from the WRAM data port and goes to WRAM, a reverse
transfer from offset 0x80 into bank 0x7E or 0x7F, which U5 leaves to the facade (R86; DESIGN CHOICE, unsafe; log 32). No
other address changes (log 33). -/
def Env.store (a : AAddr) (v : Byte) (e : Env) : Env :=
  match e.kindAt a.toNat with
  | some .ram => { e with aMem := memSet e.aMem a.toNat v }
  | some .rom => e
  | none => e

/-! ## Free values (R87, U2 to U6; log 13) -/

/-- A byte the spec leaves open: the next answer of the outside, else a free one. -/
def Env.draw (e : Env) : Byte × Env :=
  match e.answers with
  | v :: rest => (v, { e with answers := rest })
  | [] => (Config.freeByte e.drawn, { e with drawn := e.drawn + 1 })

/-- The byte `ReadByte` answers: the stored one, else any byte (R82, R87). -/
def Env.readByte (a : AAddr) (e : Env) : Byte × Env :=
  match e.peek a with
  | some v => (v, e)
  | none => e.draw

/-! ## Observations and the Cycle Accountant -/

/-- One observation, made with the globals as they stand (R11, R85). -/
def State.observe (what : Observed) (s : State) : State :=
  { s with env := { s.env with trace := ⟨what, s.context⟩ :: s.env.trace } }

/-- `AddCycles(n)`: adds to `Cycles` and dispatches nothing (R6, R266). -/
def State.addCycles (n : Nat) (s : State) : State :=
  { s with env := { s.env with
      cycles := s.env.cycles + n
      trace := ⟨.addCycles n, s.context⟩ :: s.env.trace } }

/-! ## One-byte accesses (R6, R75) -/

/-- `ARead(a)` (R70). -/
def State.aRead (a : AAddr) (s : State) : Byte × State :=
  let (v, e) := s.env.readByte a
  (v, { s with env := e }.observe (.readByte a v))

/-- `AWrite(a, v)` (R70). -/
def State.aWrite (a : AAddr) (v : Byte) (s : State) : State :=
  { s with env := s.env.store a v }.observe (.writeByte a v)

/-- `BRead(off)`: one device register read, any byte (R71, U4; log 12). -/
def State.bRead (off : Byte) (s : State) : Byte × State :=
  let (v, e) := s.env.draw
  (v, { s with env := e }.observe (.readRegister (bbusAddr off) v))

/-- `BWrite(off, v)`, for the special destinations of R84 too (R71, R198). -/
def State.bWrite (off : Byte) (v : Byte) (s : State) : State := s.observe (.writeRegister (bbusAddr off) v)

/-- `OamFix()`: recorded, its effect is inside the PPU (R236, U11). -/
def State.oamFix (s : State) : State := s.observe .oamFix

/-- The result byte of a register read (R144 to R157). -/
def State.readBack (v : Byte) (s : State) : State := s.observe (.readBack v)

/-! ## The byte mover (R176, R177, R229, R238) -/

/-- One byte between `a` on the A-bus and `off` on the B-bus: a read on one side, then a write on the other. -/
def State.moveByte (dir : Bool) (off : Byte) (a : AAddr) (s : State) : State :=
  if dir then
    let (v, s) := s.bRead off
    s.aWrite a v
  else
    let (v, s) := s.aRead a
    s.bWrite off v

/-! ## The resolvers (R77, R82, R83) -/

/-- A pointer exactly where the address lies in a RAM or ROM region (R82). -/
def Env.directPointer (a : AAddr) (e : Env) : Option AAddr :=
  match e.kindAt a.toNat with
  | some _ => some a
  | none => none

/-- A base pointer exactly where one region covers the whole 64 KB block, so that R82 holds for each of its bytes
(DEDUCED, safe; log 23). -/
def Env.blockPointer (base : AAddr) (e : Env) : Option AAddr :=
  if e.aMap.any fun r => r.base ≤ base.toNat && base.toNat + Config.blockSize ≤ r.base + r.size then some base else none

/-- `ResolveDirectMemoryPointer(addr)` (R83). -/
def State.resolveDirect (a : AAddr) (s : State) : Option AAddr × State :=
  (s.env.directPointer a, s.observe (.resolveDirect a))

/-- `ResolveBasePointer({bank, 0x0000})` into the DMA's base pointer (R83, R197). -/
def State.resolveBase (bank : Byte) (s : State) : State :=
  let base := aAddr bank 0
  { s with seq := { s.seq with basePtr := s.env.blockPointer base } }.observe (.resolveBase base)

end Sys2Proof.Machine
end

