-- ==== Sys2Proof/Machine/Reg.lean ====
section
/-! DEFINITION. Family REG: the CPU's register accesses (40_register_access.md R130 to R160). -/

namespace Sys2Proof.Machine

/-- What an instruction's meaning answers. -/
abbrev Result := Host.Outcome State Fault Refusal

/-- The port is served only while `InEither = 0`; otherwise the transaction has no meaning (R158, R293 a). -/
def State.viaPort (f : State → State) (s : State) : Result :=
  if s.inEither then .refused .portWhileBusy else .next (f s)

/-- A write to a register 0x0 to 0xA of channel `c`: the field changes and `PTR <- none` (R160). -/
def State.writeRow (c : Chan) (f : Channel → Channel) (s : State) : Result :=
  s.viaPort fun s => s.updRow c fun r => { f r with ptr := none }

/-- A read of a channel register: the byte is driven and nothing changes (R144 to R154). -/
def State.readRow (c : Chan) (f : Channel → Byte) (s : State) : Result :=
  s.viaPort fun s => s.readBack (f (s.row c))

/-- A read of an unimplemented offset: any byte (R114, R155, U6; log 14). -/
def State.readUnimplemented (s : State) : Result :=
  s.viaPort fun s =>
    let (v, e) := s.env.draw
    { s with env := e }.readBack v

/-! ## Writes -/

/-- `WR.DMAP`: the six fields of the control byte (R130). -/
def execWrDmap (c : Chan) (v : Byte) (s : State) : Result :=
  s.writeRow c fun r => r.withControlByte v

/-- `WR.BBAD` (R131). -/
def execWrBbad (c : Chan) (v : Byte) (s : State) : Result :=
  s.writeRow c fun r => { r with bbad := v }

/-- `WR.A1TL`: bits 7:0, bits 15:8 keep their value (R132). -/
def execWrA1tl (c : Chan) (v : Byte) (s : State) : Result :=
  s.writeRow c fun r => { r with a1t := setLowByte r.a1t v }

/-- `WR.A1TH` (R133). -/
def execWrA1th (c : Chan) (v : Byte) (s : State) : Result :=
  s.writeRow c fun r => { r with a1t := setHighByte r.a1t v }

/-- `WR.A1B` (R134). -/
def execWrA1b (c : Chan) (v : Byte) (s : State) : Result :=
  s.writeRow c fun r => { r with a1b := v }

/-- `WR.DASL` (R135). -/
def execWrDasl (c : Chan) (v : Byte) (s : State) : Result :=
  s.writeRow c fun r => { r with das := setLowByte r.das v }

/-- `WR.DASH` (R136). -/
def execWrDash (c : Chan) (v : Byte) (s : State) : Result :=
  s.writeRow c fun r => { r with das := setHighByte r.das v }

/-- `WR.DASB` (R137). -/
def execWrDasb (c : Chan) (v : Byte) (s : State) : Result :=
  s.writeRow c fun r => { r with dasb := v }

/-- `WR.A2AL` (R138). -/
def execWrA2al (c : Chan) (v : Byte) (s : State) : Result :=
  s.writeRow c fun r => { r with a2a := setLowByte r.a2a v }

/-- `WR.A2AH` (R139). -/
def execWrA2ah (c : Chan) (v : Byte) (s : State) : Result :=
  s.writeRow c fun r => { r with a2a := setHighByte r.a2a v }

/-- `WR.NTRL`: `Repeat` and `LineCount`, nothing else (R140). -/
def execWrNtrl (c : Chan) (v : Byte) (s : State) : Result :=
  s.writeRow c fun r => r.withNtrlByte v

/-- `WR.UNIMPL` at offset 0xB: "No state changes" (R141). -/
def execWrUnimplB (_c : Chan) (_v : Byte) (s : State) : Result := s.viaPort fun s => s

/-- `WR.UNIMPL` at offsets 0xC to 0xF: "No state changes" (R141). -/
def execWrUnimplCF (_c : Chan) (_r : BitVec 2) (_v : Byte) (s : State) : Result := s.viaPort fun s => s

/-- `WR.MDMAEN`: the mask is stored and, if it is not 0, `DMA_SYNC_COST` is accounted; the arbiter's steps follow
while the CPU stays stalled (R142, R260; log 7). -/
def execWrMdmaen (v : Byte) (s : State) : Result :=
  s.viaPort fun s =>
    let s := { s with mdmaen := v }
    if v = 0 then s else s.addCycles Config.dmaSyncCost

/-- `WR.HDMAEN`: `HDMAEN <- v; HDMA_ACTIVE <- v and not HDMA_ENDED` (R143). -/
def execWrHdmaen (v : Byte) (s : State) : Result :=
  s.viaPort fun s => { s with hdmaen := v, hdmaActive := v &&& ~~~s.hdmaEnded }

/-! ## Reads -/

/-- `RD.DMAP` (R144). -/
def execRdDmap (c : Chan) (s : State) : Result := s.readRow c fun r => r.controlByte

/-- `RD.BBAD` (R145). -/
def execRdBbad (c : Chan) (s : State) : Result := s.readRow c fun r => r.bbad

/-- `RD.A1TL` (R146). -/
def execRdA1tl (c : Chan) (s : State) : Result := s.readRow c fun r => lowByte r.a1t

/-- `RD.A1TH` (R147). -/
def execRdA1th (c : Chan) (s : State) : Result := s.readRow c fun r => highByte r.a1t

/-- `RD.A1B` (R148). -/
def execRdA1b (c : Chan) (s : State) : Result := s.readRow c fun r => r.a1b

/-- `RD.DASL` (R149). -/
def execRdDasl (c : Chan) (s : State) : Result := s.readRow c fun r => lowByte r.das

/-- `RD.DASH` (R150). -/
def execRdDash (c : Chan) (s : State) : Result := s.readRow c fun r => highByte r.das

/-- `RD.DASB` (R151). -/
def execRdDasb (c : Chan) (s : State) : Result := s.readRow c fun r => r.dasb

/-- `RD.A2AL` (R152). -/
def execRdA2al (c : Chan) (s : State) : Result := s.readRow c fun r => lowByte r.a2a

/-- `RD.A2AH` (R153). -/
def execRdA2ah (c : Chan) (s : State) : Result := s.readRow c fun r => highByte r.a2a

/-- `RD.NTRL` (R154). -/
def execRdNtrl (c : Chan) (s : State) : Result := s.readRow c fun r => r.ntrlByte

/-- `RD.UNIMPL` at offset 0xB (R155). -/
def execRdUnimplB (_c : Chan) (s : State) : Result := s.readUnimplemented

/-- `RD.UNIMPL` at offsets 0xC to 0xF (R155). -/
def execRdUnimplCF (_c : Chan) (_r : BitVec 2) (s : State) : Result := s.readUnimplemented

/-- `RD.MDMAEN` (R156). -/
def execRdMdmaen (s : State) : Result := s.viaPort fun s => s.readBack s.mdmaen

/-- `RD.HDMAEN`: the last value written, not `HDMA_ACTIVE` (R157). -/
def execRdHdmaen (s : State) : Result := s.viaPort fun s => s.readBack s.hdmaen

end Sys2Proof.Machine
end

