-- ==== Sys2Proof/Machine/Dma.lean ====
section
/-! DEFINITION. Family DMA: the entry of `ExecuteDMA` and the fields of the control byte its byte step runs
(41_dma_transfer.md R170 to R199). -/

namespace Sys2Proof.Machine

/-! ## Transfer modes (R179 to R186) -/

/-- The dispatch multiplexer for one DMA byte: the B-bus offset is formed from `BBAD`, the mode's pattern and
`PatternStep`, and the pattern position advances (R176 steps 1 and 6, R178, R268). Nothing reads `PatternStep` between
those two points of a byte (DEDUCED, safe; log 4). -/
def State.selectOffset (c : Chan) (mode : BitVec 3) (s : State) : State :=
  { s with
    patternStep := nextPatternStep mode s.patternStep
    seq := { s.seq with bOff := bOffset (s.row c).bbad mode s.patternStep } }

/-- `XFER.M0` (R179). -/
def execXferM0 (c : Chan) (s : State) : Result := .next (s.selectOffset c 0)

/-- `XFER.M1` (R180). -/
def execXferM1 (c : Chan) (s : State) : Result := .next (s.selectOffset c 1)

/-- `XFER.M2` (R181). -/
def execXferM2 (c : Chan) (s : State) : Result := .next (s.selectOffset c 2)

/-- `XFER.M3` (R182). -/
def execXferM3 (c : Chan) (s : State) : Result := .next (s.selectOffset c 3)

/-- `XFER.M4` (R183). -/
def execXferM4 (c : Chan) (s : State) : Result := .next (s.selectOffset c 4)

/-- `XFER.M5` (R184). -/
def execXferM5 (c : Chan) (s : State) : Result := .next (s.selectOffset c 5)

/-- `XFER.M6` (R185). -/
def execXferM6 (c : Chan) (s : State) : Result := .next (s.selectOffset c 6)

/-- `XFER.M7` (R186). -/
def execXferM7 (c : Chan) (s : State) : Result := .next (s.selectOffset c 7)

/-! ## Direction (R187, R188) -/

/-- Byte `k` of the S-DD1 buffer, any byte past its end (R196, U2; log 14); `k` advances. -/
def State.sdd1Byte (s : State) : Byte × State :=
  let s' := { s with seq := { s.seq with sdd1Index := s.seq.sdd1Index + 1 } }
  match s.env.sdd1Buf[s.seq.sdd1Index]? with
  | some v => (v, s')
  | none =>
    let (v, e) := s.env.draw
    (v, { s' with env := e })

/-- A forward byte: the source byte, from memory or from the S-DD1 buffer, is written to the B-bus (R176 steps 2
and 3, R196). -/
def State.forwardByte (c : Chan) (s : State) : State :=
  if s.seq.sdd1On then
    let (v, s) := s.sdd1Byte
    s.bWrite s.seq.bOff v
  else s.moveByte false s.seq.bOff (s.row c).dmaAddr

/-- A reverse byte: `BRead(off)` then `AWrite(A1B:A1T, v)`; no hook (R177). -/
def State.reverseByte (c : Chan) (s : State) : State := s.moveByte true s.seq.bOff (s.row c).dmaAddr

/-- `DIR.A2B` (R187). -/
def execDirA2B (c : Chan) (s : State) : Result := .next (s.forwardByte c)

/-- `DIR.B2A` (R188). -/
def execDirB2A (c : Chan) (s : State) : Result := .next (s.reverseByte c)

/-! ## Address step (R189 to R191) -/

/-- `A1T <- (A1T + d) mod 2^16`, the bank unchanged; where `wraps` holds of the new value the address has entered the
64 KB block anew and a forward transfer resolves its base pointer again (R111, R197). -/
def State.stepAddress (c : Chan) (d : Half) (wraps : Half → Bool) (s : State) : State :=
  let r := s.row c
  let a := r.a1t + d
  let s := s.setRow c { r with a1t := a }
  if wraps a && !r.dir then s.resolveBase r.a1b else s

/-- `STEP.INC` (R189). -/
def execStepInc (c : Chan) (s : State) : Result := .next (s.stepAddress c 1 fun a => a == 0)

/-- `STEP.DEC` (R190). -/
def execStepDec (c : Chan) (s : State) : Result := .next (s.stepAddress c 0xFFFF fun a => a == 0xFFFF)

/-- `STEP.FIX`: the address stays (R191). -/
def execStepFix (c : Chan) (s : State) : Result := .next (s.stepAddress c 0 fun _ => false)

/-! ## The entry of `ExecuteDMA` (R170 lines 1 to 4 and 9 to 11, R171 to R173, R196, R197) -/

/-- The condition of the S-DD1 hook, tested once at entry of a valid transfer (R196). -/
def State.sdd1Hook (r : Channel) (s : State) : Bool :=
  !r.dir && r.fix && s.sdd1Flag && s.env.sdd1Present

/-- The entry of every transfer: the flags, `N`, `Invalid(c)` and the channel overhead (R170 lines 1 to 4, R171). -/
def State.openDMA (c : Chan) (s : State) : State :=
  State.addCycles Config.dmaChOverhead { s.enterDMA c with
    seq := { Seq.idle with busy := some c, remaining := dmaCount (s.row c).das, invalid := (s.row c).isInvalid } }

/-- The entry of a valid transfer besides: `PatternStep <- 0`, and the hook, which clears `SDD1_FLAG` at once
(R170 lines 9 to 11, R196). -/
def State.armDMA (hook : Bool) (s : State) : State :=
  { s with patternStep := 0, sdd1Flag := s.sdd1Flag && !hook, seq := { s.seq with sdd1On := hook } }

/-- `ExecuteDMA(c)` up to its first byte; a valid forward transfer resolves its first base pointer (R197). -/
def State.beginDMA (c : Chan) (s : State) : State :=
  let r := s.row c
  if r.isInvalid then s.openDMA c
  else if r.dir then (s.openDMA c).armDMA (s.sdd1Hook r)
  else ((s.openDMA c).armDMA (s.sdd1Hook r)).resolveBase r.a1b

/-- A call of `ExecuteDMA(c)`; refused while `InEither = 1` (R170, R293 b). The bytes and the end of the call are the
steps that follow, one byte each (R7, R324; log 1). -/
def State.startDMA (c : Chan) (s : State) : Result :=
  if s.inEither then .refused .dmaWhileBusy else .next (s.beginDMA c)

/-- `DMA.EXEC_0` (R260). -/
def execDmaExec0 (s : State) : Result := s.startDMA 0

/-- `DMA.EXEC_1` (R260). -/
def execDmaExec1 (s : State) : Result := s.startDMA 1

/-- `DMA.EXEC_2` (R260). -/
def execDmaExec2 (s : State) : Result := s.startDMA 2

/-- `DMA.EXEC_3` (R260). -/
def execDmaExec3 (s : State) : Result := s.startDMA 3

/-- `DMA.EXEC_4` (R260). -/
def execDmaExec4 (s : State) : Result := s.startDMA 4

/-- `DMA.EXEC_5` (R260). -/
def execDmaExec5 (s : State) : Result := s.startDMA 5

/-- `DMA.EXEC_6` (R260). -/
def execDmaExec6 (s : State) : Result := s.startDMA 6

/-- `DMA.EXEC_7` (R260). -/
def execDmaExec7 (s : State) : Result := s.startDMA 7

end Sys2Proof.Machine
end

