-- ==== Sys2Proof/Machine/Hdma.lean ====
section
/-! DEFINITION. Family HDMA: the HDMA addressing fields, the line-count byte, and the two entry points of the line
engine (42_hdma_line.md R220 to R241). -/

namespace Sys2Proof.Machine

/-! ## One group (R229, R232, R235) -/

/-- `PTR <- ResolveDirectMemoryPointer(current source address)` (R222 lines 15 and 17, R235). -/
def State.resolvePtr (c : Chan) (ind : Bool) (s : State) : State :=
  let (p, s) := s.resolveDirect ((s.row c).sourceAddr ind)
  s.updRow c fun r => { r with ptr := p }

/-- Before a group: a missing pointer is resolved, but "Reverse groups never use the pointer" (R235). -/
def State.groupPointer (c : Chan) (ind : Bool) (s : State) : State :=
  if !(s.row c).dir && (s.row c).ptr.isNone then s.resolvePtr c ind else s

/-- `PTR` after a group of `g` bytes: dropped where the group ran to the end of its block, else advanced by `g`
(R235). A reverse group drops it, so that it keeps designating the current source byte (DEDUCED, safe; log 22). -/
def Channel.ptrAfterGroup (ind : Bool) (g : Nat) (r : Channel) : Option AAddr :=
  if r.dir || crossesBlock (r.sourceBase ind) g then none else r.ptr.map fun p => p + BitVec.ofNat 24 g

/-- Byte `i` of a group of the row `r` (R229): pattern position `i`, source address `base + i` in its bank. -/
def State.moveGroupByte (r : Channel) (ind : Bool) (i : Nat) (s : State) : State :=
  (s.moveByte r.dir (bOffset r.bbad r.mode (BitVec.ofNat 2 i))
    (aAddr (r.sourceBank ind) (r.sourceBase ind + BitVec.ofNat 16 i))).addCycles Config.byteCost

/-- `MoveGroup(c)` with the source `DASB:DAS` (`ind`) or `A1B:A2A` (R229): `G` bytes, then the pointer advances by
exactly `G` (R232). -/
def State.moveGroup (c : Chan) (ind : Bool) (s : State) : State :=
  let s := s.groupPointer c ind
  let r := s.row c
  let g := len r.mode
  let s := (List.range g).foldl (fun s i => s.moveGroupByte r ind i) s
  s.updRow c fun r => { r.advanceSource ind g with ptr := r.ptrAfterGroup ind g }

/-- `HADDR.DIRECT`: the group at `A1B:A2A` (R230). -/
def execHaddrDirect (c : Chan) (s : State) : Result := .next (s.moveGroup c false)

/-- `HADDR.INDIRECT`: the group at `DASB:DAS` (R231). -/
def execHaddrIndirect (c : Chan) (s : State) : Result := .next (s.moveGroup c true)

/-! ## The line-count byte (R222 to R227) -/

/-- The indirect address fetch: two table bytes, low first, into `DAS` (R222 lines 10 to 15, R227). -/
def State.fetchIndirect (c : Chan) (s : State) : State :=
  let r := s.row c
  let (lo, s) := s.aRead r.tableAddr
  let (hi, s) := s.aRead (aAddr r.a1b (r.a2a + 1))
  let s := s.addCycles (2 * Config.byteCost)
  let s := s.updRow c fun r => { r with das := hi ++ lo, a2a := r.a2a + 2 }
  s.resolvePtr c true

/-- A byte that opens an entry: `A2A` goes past it, the entry's flags are set, an indirect channel fetches its address
(R222 lines 2 to 4 and 8 to 18). -/
def State.openEntry (c : Chan) (rep : Bool) (count : Byte) (s : State) : State :=
  let s := s.updRow c fun r => { r with a2a := r.a2a + 1, rep := rep, lineCount := count, doTransfer := true }
  if (s.row c).ind then s.fetchIndirect c else s.resolvePtr c false

/-- The terminator: `A2A` goes past it, nothing is fetched (R222 lines 2 to 7, R223). The caller updates the masks. -/
def State.lineEnd (c : Chan) (s : State) : State :=
  s.updRow c fun r => { r with a2a := r.a2a + 1, rep := false, lineCount := 128, doTransfer := false, ptr := none }

/-- Byte 0x80: 128 lines, a group on each (R224). -/
def State.lineRep128 (c : Chan) (s : State) : State := s.openEntry c true 128

/-- Bytes 0x01 to 0x7F: `n` lines, a group on the first (R225). -/
def State.lineSingle (c : Chan) (n : BitVec 7) (s : State) : State := s.openEntry c false (lineCountOf n)

/-- Bytes 0x81 to 0xFF: `n` lines, a group on each (R226). -/
def State.lineRepeat (c : Chan) (n : BitVec 7) (s : State) : State := s.openEntry c true (lineCountOf n)

/-- `LC.END` (R223). -/
def execLcEnd (c : Chan) (s : State) : Result := .next (s.lineEnd c)

/-- `LC.REP128` (R224). -/
def execLcRep128 (c : Chan) (s : State) : Result := .next (s.lineRep128 c)

/-- `LC.SINGLE` (R225). -/
def execLcSingle (c : Chan) (n : BitVec 7) (s : State) : Result := .next (s.lineSingle c n)

/-- `LC.REPEAT` (R226). -/
def execLcRepeat (c : Chan) (n : BitVec 7) (s : State) : Result := .next (s.lineRepeat c n)

/-- The class of a line-count byte, in the order R118 tests them, and its effect (R102). -/
def State.lineByte (c : Chan) (line : Byte) (s : State) : State :=
  if line = 0x00 then s.lineEnd c
  else if line = 0x80 then s.lineRep128 c
  else if line.getLsbD 7 then s.lineRepeat c (line.extractLsb' 0 7)
  else s.lineSingle c (line.extractLsb' 0 7)

/-- `ReadLineCountByte(c)`: the byte at `A1B:A2A` and its effect; `false` = channel exhausted (R222). -/
def State.readLineCountByte (c : Chan) (s : State) : Bool × State :=
  let (line, s) := s.aRead (s.row c).tableAddr
  let s := s.addCycles Config.byteCost
  (line != 0, s.lineByte c line)

/-! ## Frame start (R221) -/

/-- Channel `c` of `InitializeHDMALines` (R221 lines 5 to 11). -/
def State.initChannel (c : Chan) (s : State) : State :=
  if hasBit s.hdmaen c then
    let s := { s with currentChannel := some c }
    let s := s.updRow c fun r => { r with a2a := r.a1t }
    let (more, s) := s.readLineCountByte c
    if more then s
    else { s with hdmaActive := withoutBit s.hdmaActive c, hdmaEnded := withBit s.hdmaEnded c }
  else s.updRow c fun r => { r with doTransfer := false }

/-- `InitializeHDMALines()` (R221). -/
def State.initializeHDMALines (s : State) : State :=
  let saved := s.currentChannel
  let s := s.enterHDMA
  let s := { s with hdmaActive := s.hdmaen, hdmaEnded := 0 }
  let s := if s.hdmaen = 0 then s else s.addCycles Config.hdmaSyncCost
  let s := allChans.foldl (fun s c => s.initChannel c) s
  let s := s.leaveHDMA saved
  s.recordRan s.hdmaActive

/-! ## The scanline step (R228) -/

/-- The group of one scanline, where `DoTransfer` asks for it, after the OAM fix (R228 lines 7 to 9, R236). -/
def State.lineGroup (c : Chan) (s : State) : State :=
  let r := s.row c
  if r.doTransfer then
    let s := if r.bbad = Config.oamTarget then s.oamFix else s
    s.moveGroup c r.ind
  else s

/-- `DoTransfer <- Repeat; LineCount <- LineCount - 1` (R228 lines 10 and 11, R233, R234). -/
def Channel.countLine (r : Channel) : Channel := { r with doTransfer := r.rep, lineCount := r.lineCount - 1 }

/-- Channel `c` of `AdvanceHDMALines`: the mask so far and the state (R228 lines 5 to 16). -/
def advanceChannel (p : Mask × State) (c : Chan) : Mask × State :=
  let (mask, s) := p
  if hasBit mask c then
    let s := { s with currentChannel := some c }
    let s := s.lineGroup c
    let s := s.updRow c Channel.countLine
    if (s.row c).lineCount = (0 : Byte) then
      let (more, s) := s.readLineCountByte c
      if more then (mask, s)
      else (withoutBit mask c, { s with hdmaEnded := withBit s.hdmaEnded c })
    else (mask, s.addCycles Config.byteCost)
  else (mask, s)

/-- `AdvanceHDMALines(mask) -> remaining` (R228): "The mask is taken as given". -/
def State.advanceHDMALines (mask : Mask) (s : State) : Mask × State :=
  let saved := s.currentChannel
  let s := s.enterHDMA
  let s := s.recordRan mask
  let s := s.addCycles Config.hdmaSyncCost
  let (remaining, s) := allChans.foldl advanceChannel (mask, s)
  (remaining, s.leaveHDMA saved)

end Sys2Proof.Machine
end

