-- ==== Sys2Proof/Machine/Ctrl.lean ====
section
/-! DEFINITION. Family CTRL: the HDMA enable bits, the line-boundary scheduler, reset, and the cycle sink that lets
scanline events into a DMA (43_arbiter_scheduler.md R262 to R267, 41_dma_transfer.md R192, 70_reset_and_hazards.md
R310, R311). -/

namespace Sys2Proof.Machine

/-! ## HDMA enable bits (R265) -/

/-- One set bit of a write to `HDMAEN`: the channel is enabled, and active unless it has ended this frame (R143,
R265; log 8). It is part of a register write, so it is refused where that is (R158). -/
def State.enableHDMA (c : Chan) (s : State) : Result :=
  s.viaPort fun s => { s with
    hdmaen := withBit s.hdmaen c
    hdmaActive := if hasBit s.hdmaEnded c then s.hdmaActive else withBit s.hdmaActive c }

/-- `HDMA.EN_0` (R265). -/
def execHdmaEn0 (s : State) : Result := s.enableHDMA 0

/-- `HDMA.EN_1` (R265). -/
def execHdmaEn1 (s : State) : Result := s.enableHDMA 1

/-- `HDMA.EN_2` (R265). -/
def execHdmaEn2 (s : State) : Result := s.enableHDMA 2

/-- `HDMA.EN_3` (R265). -/
def execHdmaEn3 (s : State) : Result := s.enableHDMA 3

/-- `HDMA.EN_4` (R265). -/
def execHdmaEn4 (s : State) : Result := s.enableHDMA 4

/-- `HDMA.EN_5` (R265). -/
def execHdmaEn5 (s : State) : Result := s.enableHDMA 5

/-- `HDMA.EN_6` (R265). -/
def execHdmaEn6 (s : State) : Result := s.enableHDMA 6

/-- `HDMA.EN_7` (R265). -/
def execHdmaEn7 (s : State) : Result := s.enableHDMA 7

/-! ## Scanline events (R262, R263) -/

/-- The scheduler's reaction to `HDMA_LINE` (R263): nothing while `HDMA_ACTIVE = 0`. -/
def State.hdmaLine (s : State) : State :=
  if s.hdmaActive = 0 then s
  else
    let (remaining, s) := s.advanceHDMALines s.hdmaActive
    { s with hdmaActive := remaining }

/-- An HDMA event or call has no meaning while `InHDMA = 1` (R262, R293 c). -/
def State.outsideHDMA (f : State → State) (s : State) : Result :=
  if s.inHDMA then .refused .hdmaWhileInHDMA else .next (f s)

/-- `EV.HDMA_INIT` (R262). -/
def execEvHdmaInit (s : State) : Result := s.outsideHDMA State.initializeHDMALines

/-- `EV.HDMA_LINE` (R263). -/
def execEvHdmaLine (s : State) : Result := s.outsideHDMA State.hdmaLine

/-- `CALL AdvanceHDMALines(mask)` (R228, R116): the mask comes back to the caller and `HDMA_ACTIVE` stays (R57). -/
def callAdvance (mask : Mask) (s : State) : Result :=
  s.outsideHDMA fun s =>
    let (remaining, s) := s.advanceHDMALines mask
    s.observe (.remainingMask remaining)

/-! ## Reset (R264, R310, R311) -/

/-- `ResetAllChannels()` (R310). -/
def State.resetAllChannels (s : State) : State := { s with ch := Vector.replicate 8 Channel.reset }

/-- The reset of the global state (R311). The state outside the block is not the block's to reset (R48; log 30). -/
def State.resetGlobals (s : State) : State :=
  { s with
    inDMA := false
    inHDMA := false
    inEither := false
    currentChannel := none
    hdmaRanInDMA := 0
    hdmaen := 0
    hdmaActive := 0
    hdmaEnded := 0
    mdmaen := 0
    patternStep := 0
    sdd1Flag := false
    seq := Seq.idle }

/-- `EV.RESET` (R264); refused while `InEither = 1` (R293 d). -/
def execEvReset (s : State) : Result :=
  if s.inEither then .refused .resetWhileBusy else .next s.resetAllChannels.resetGlobals

/-! ## The cycle sink (R192) -/

/-- What the Cycle Accountant delivers at this sink: the script's next entry, else the oracle's answer for the cycle
total (R4 `EventsDue`; log 15). -/
def State.nextDue (s : State) : List Due × State :=
  match s.env.script with
  | d :: rest => (d, { s with env := { s.env with script := rest } })
  | [] => (Config.eventsDue s.env.cycles, s)

/-- One delivery: `HDMA_INIT` before `HDMA_LINE` (R115, R284 c; log 16); the input `NMIPending` may move (R48). -/
def State.deliver (d : Due) (s : State) : State :=
  let s := match d.nmi with
    | some level => { s with env := { s.env with nmiPending := level } }
    | none => s
  let s := if d.hdmaInit then s.initializeHDMALines else s
  if d.hdmaLine then s.hdmaLine else s

/-- `CycleSink(c) -> continue`: the byte's cycles, the due events, the collision test, `HDMARanInDMA <- 0` (R192). -/
def State.cycleSink (c : Chan) (s : State) : Bool × State :=
  let s := s.addCycles Config.byteCost
  let (due, s) := s.nextDue
  let s := due.foldl (fun s d => s.deliver d) s
  (!hasBit s.hdmaRanInDMA c, { s with hdmaRanInDMA := 0 })

end Sys2Proof.Machine
end

