-- ==== Sys2Proof/Machine/Dispatch.lean ====
section
/-! DEFINITION. One arm per constructor of `Instr`, each a direct call of its meaning. -/

namespace Sys2Proof.Machine

/-- The meaning of an instruction. -/
def exec (i : Instr) (s : State) : Host.Outcome State Fault Refusal :=
  match i with
  | .wrDmap c v => Sys2Proof.Machine.execWrDmap c v s
  | .wrBbad c v => Sys2Proof.Machine.execWrBbad c v s
  | .wrA1tl c v => Sys2Proof.Machine.execWrA1tl c v s
  | .wrA1th c v => Sys2Proof.Machine.execWrA1th c v s
  | .wrA1b c v => Sys2Proof.Machine.execWrA1b c v s
  | .wrDasl c v => Sys2Proof.Machine.execWrDasl c v s
  | .wrDash c v => Sys2Proof.Machine.execWrDash c v s
  | .wrDasb c v => Sys2Proof.Machine.execWrDasb c v s
  | .wrA2al c v => Sys2Proof.Machine.execWrA2al c v s
  | .wrA2ah c v => Sys2Proof.Machine.execWrA2ah c v s
  | .wrNtrl c v => Sys2Proof.Machine.execWrNtrl c v s
  | .wrUnimplB c v => Sys2Proof.Machine.execWrUnimplB c v s
  | .wrUnimplCF c r v => Sys2Proof.Machine.execWrUnimplCF c r v s
  | .wrMdmaen v => Sys2Proof.Machine.execWrMdmaen v s
  | .wrHdmaen v => Sys2Proof.Machine.execWrHdmaen v s
  | .rdDmap c => Sys2Proof.Machine.execRdDmap c s
  | .rdBbad c => Sys2Proof.Machine.execRdBbad c s
  | .rdA1tl c => Sys2Proof.Machine.execRdA1tl c s
  | .rdA1th c => Sys2Proof.Machine.execRdA1th c s
  | .rdA1b c => Sys2Proof.Machine.execRdA1b c s
  | .rdDasl c => Sys2Proof.Machine.execRdDasl c s
  | .rdDash c => Sys2Proof.Machine.execRdDash c s
  | .rdDasb c => Sys2Proof.Machine.execRdDasb c s
  | .rdA2al c => Sys2Proof.Machine.execRdA2al c s
  | .rdA2ah c => Sys2Proof.Machine.execRdA2ah c s
  | .rdNtrl c => Sys2Proof.Machine.execRdNtrl c s
  | .rdUnimplB c => Sys2Proof.Machine.execRdUnimplB c s
  | .rdUnimplCF c r => Sys2Proof.Machine.execRdUnimplCF c r s
  | .rdMdmaen => Sys2Proof.Machine.execRdMdmaen s
  | .rdHdmaen => Sys2Proof.Machine.execRdHdmaen s
  | .xferM0 c => Sys2Proof.Machine.execXferM0 c s
  | .xferM1 c => Sys2Proof.Machine.execXferM1 c s
  | .xferM2 c => Sys2Proof.Machine.execXferM2 c s
  | .xferM3 c => Sys2Proof.Machine.execXferM3 c s
  | .xferM4 c => Sys2Proof.Machine.execXferM4 c s
  | .xferM5 c => Sys2Proof.Machine.execXferM5 c s
  | .xferM6 c => Sys2Proof.Machine.execXferM6 c s
  | .xferM7 c => Sys2Proof.Machine.execXferM7 c s
  | .dirA2B c => Sys2Proof.Machine.execDirA2B c s
  | .dirB2A c => Sys2Proof.Machine.execDirB2A c s
  | .stepInc c => Sys2Proof.Machine.execStepInc c s
  | .stepDec c => Sys2Proof.Machine.execStepDec c s
  | .stepFix c => Sys2Proof.Machine.execStepFix c s
  | .haddrDirect c => Sys2Proof.Machine.execHaddrDirect c s
  | .haddrIndirect c => Sys2Proof.Machine.execHaddrIndirect c s
  | .lcEnd c => Sys2Proof.Machine.execLcEnd c s
  | .lcRep128 c => Sys2Proof.Machine.execLcRep128 c s
  | .lcSingle c n => Sys2Proof.Machine.execLcSingle c n s
  | .lcRepeat c n => Sys2Proof.Machine.execLcRepeat c n s
  | .dmaExec0 => Sys2Proof.Machine.execDmaExec0 s
  | .dmaExec1 => Sys2Proof.Machine.execDmaExec1 s
  | .dmaExec2 => Sys2Proof.Machine.execDmaExec2 s
  | .dmaExec3 => Sys2Proof.Machine.execDmaExec3 s
  | .dmaExec4 => Sys2Proof.Machine.execDmaExec4 s
  | .dmaExec5 => Sys2Proof.Machine.execDmaExec5 s
  | .dmaExec6 => Sys2Proof.Machine.execDmaExec6 s
  | .dmaExec7 => Sys2Proof.Machine.execDmaExec7 s
  | .hdmaEn0 => Sys2Proof.Machine.execHdmaEn0 s
  | .hdmaEn1 => Sys2Proof.Machine.execHdmaEn1 s
  | .hdmaEn2 => Sys2Proof.Machine.execHdmaEn2 s
  | .hdmaEn3 => Sys2Proof.Machine.execHdmaEn3 s
  | .hdmaEn4 => Sys2Proof.Machine.execHdmaEn4 s
  | .hdmaEn5 => Sys2Proof.Machine.execHdmaEn5 s
  | .hdmaEn6 => Sys2Proof.Machine.execHdmaEn6 s
  | .hdmaEn7 => Sys2Proof.Machine.execHdmaEn7 s
  | .evReset => Sys2Proof.Machine.execEvReset s
  | .evHdmaInit => Sys2Proof.Machine.execEvHdmaInit s
  | .evHdmaLine => Sys2Proof.Machine.execEvHdmaLine s

end Sys2Proof.Machine
end

