-- ==== Sys2Proof/Machine/Sequencer.lean ====
section
/-! DEFINITION. What decides which instruction comes next: the byte step of the `ExecuteDMA` in flight, the channel
arbiter, and the port that serves the host's moves (41_dma_transfer.md R170, 43_arbiter_scheduler.md R260, R268,
R269, 60_exceptions.md R294). -/

namespace Sys2Proof.Machine

/-- Several instructions one after another, up to the first that stops. -/
def execSeq : List Instr → State → Result
  | [], s => .next s
  | i :: rest, s =>
    match exec i s with
    | .next s' => execSeq rest s'
    | .fault f => .fault f
    | .refused r => .refused r

/-! ## The end of `ExecuteDMA` (R170 lines 24 to 28) -/

/-- The call is over: flags, the locals' owner, and the arbiter's `MDMAEN[c] <- 0` (R193, R194, R260). -/
def State.endDMA (c : Chan) (s : State) : State :=
  { s.leaveDMA with mdmaen := withoutBit s.mdmaen c, seq := { s.seq with busy := none } }

/-- `if NMIPending: NMIReschedule(NMI_DMA_DELAY)` (R170 line 25, R195). -/
def State.rescheduleNmi (s : State) : State :=
  if s.env.nmiPending then s.observe (.nmiReschedule Config.nmiDmaDelay) else s

/-- Completion: the NMI rule, then result true (R194, R195). -/
def State.completeDMA (c : Chan) (s : State) : State :=
  (s.endDMA c).rescheduleNmi.observe (.dmaResult c true)

/-- Abort: no NMI rule, result false, `DAS` and `A1T` as they stand (R193). -/
def State.abortDMA (c : Chan) (s : State) : State := (s.endDMA c).observe (.dmaResult c false)

/-! ## One byte (R170 lines 5 to 7 and 12 to 23) -/

/-- `ch[c].DAS <- ch[c].DAS - 1; N <- N - 1` (R170 lines 6 and 20), with R235's invariant kept (log 22). -/
def State.countByte (c : Chan) (s : State) : State :=
  let s := s.updRow c Channel.countDas
  { s with seq := { s.seq with remaining := s.seq.remaining - 1 } }

/-- The byte is counted and the sink decides whether the transfer goes on (R170 lines 6, 7, 20, 23). -/
def State.closeByte (c : Chan) (s : State) : State :=
  let (go, s) := (s.countByte c).cycleSink c
  if go then s else s.abortDMA c

/-- The instructions one DMA byte runs: three fields of `ch[c]`'s control byte. The fourth, `HADDR`, has "No effect
on DMA" (R230; log 4). -/
def State.byteInstrs (c : Chan) (s : State) : List Instr :=
  let b := decodeDmap c (s.row c).controlByte
  [b.xfer, b.dir, b.step]

/-- One step of `ExecuteDMA(c)`: the end of the call where `N` is 0, else one byte with its sink. An invalid
transfer moves nothing (R174). -/
def State.dmaStep (c : Chan) (s : State) : Result :=
  if s.seq.remaining = 0 then .next (s.completeDMA c)
  else if s.seq.invalid then .next (s.closeByte c)
  else
    match execSeq (s.byteInstrs c) s with
    | .next s' => .next (s'.closeByte c)
    | .fault f => .fault f
    | .refused r => .refused r

/-! ## The port -/

/-- One host move. A register transaction whose address is not the block's does nothing (R159). -/
def serve (m : Move) (s : State) : Result :=
  match m with
  | .regWrite addr data =>
    match decodeRegW addr data with
    | .ok i => exec i s
    | .error _ => .next s
  | .regRead addr =>
    match decodeRegR addr with
    | .ok i => exec i s
    | .error _ => .next s
  | .event ev => execSeq (decodeEvent ev) s
  | .callExecuteDMA c => exec (dmaExecOf c) s
  | .callInitializeHDMALines => exec .evHdmaInit s
  | .callAdvanceHDMALines mask => callAdvance mask s
  | .callResetAllChannels => .next s.resetAllChannels
  | .setNmi level => .next { s with env := { s.env with nmiPending := level } }
  | .loadSdd1 buf =>
    .next (if s.env.sdd1Present then { s with sdd1Flag := true, env := { s.env with sdd1Buf := buf } } else s)
  | .cpuStore addr v => .next { s with env := s.env.store addr v }

/-- The machine between transfers: the arbiter starts the lowest requested channel (R260), and with none requested the
port takes the next host move. With no move waiting nothing happens (log 2). -/
def State.idleStep (s : State) : Result :=
  match lowestChan s.mdmaen with
  | some c => exec (dmaExecOf c) s
  | none =>
    match s.env.inbox with
    | [] => .next s
    | m :: rest => serve m { s with env := { s.env with inbox := rest } }

end Sys2Proof.Machine
end

