-- ==== Sys2Proof/Machine/Step.lean ====
section
/-! DEFINITION. One step, and where a word is placed so that the next step runs it (00_scope.md R7, log 1 to 3). -/

namespace Sys2Proof.Machine

/-- One step of the machine: a byte of the `ExecuteDMA` in flight, else what the arbiter or the port starts (R7,
R269, R324). -/
def step (s : State) : Host.Outcome State Fault Refusal :=
  match s.seq.busy with
  | some c => s.dmaStep c
  | none => s.idleStep

/-- `s` with the word where the next step takes it: a two-byte word as the CPU's next register write with no transfer
pending, a one-byte word as the control byte of channel 0 with a byte of its DMA in flight, whose sink delivers
nothing (log 3). -/
def State.withFetchWord (s : State) (nbits w : Nat) : State :=
  if nbits ≤ 8 then
    let s := (s.updRow 0 fun r => r.withControlByte (BitVec.ofNat 8 w)).enterDMA 0
    { s with
      seq := { s.seq with
        busy := some 0
        remaining := if s.seq.remaining = 0 then 1 else s.seq.remaining
        invalid := false }
      env := { s.env with script := [] :: s.env.script } }
  else
    { s with
      mdmaen := 0
      seq := { s.seq with busy := none }
      env := { s.env with inbox := .regWrite (BitVec.ofNat 16 w) (BitVec.ofNat 8 (w / 0x10000)) :: s.env.inbox } }

end Sys2Proof.Machine
end

