-- ==== Sys2Proof/Machine/Entry.lean ====
section
/-! DEFINITION. `ExecuteDMA` and the arbiter as the spec writes them, run to their end in one call (41_dma_transfer.md
R170, 43_arbiter_scheduler.md R260). `step` does not use them: statements say that its steps compute them. -/

namespace Sys2Proof.Machine

/-- R170 lines 5 to 7: the bytes of an invalid transfer, `n` of them left; the result is `false` at an abort. -/
def invalidLoop (c : Chan) : Nat → State → Bool × State
  | 0, s => (true, s)
  | n + 1, s =>
    let s := s.updRow c Channel.countDas
    let (go, s) := s.cycleSink c
    if go then invalidLoop c n s else (false, s)

/-- R170 line 16 under `sdd1`: byte `k` of the buffer, any byte past its end. -/
def sdd1Source (k : Nat) (s : State) : Byte × State :=
  match s.env.sdd1Buf[k]? with
  | some v => (v, s)
  | none =>
    let (v, e) := s.env.draw
    (v, { s with env := e })

/-- R170 lines 13 to 19: byte number `k` of a valid transfer. -/
def moveDmaByte (c : Chan) (sdd1 : Bool) (k : Nat) (s : State) : State :=
  let r := s.row c
  let off := bOffset r.bbad r.mode s.patternStep
  if r.dir then
    let (v, s) := s.bRead off
    s.aWrite r.dmaAddr v
  else
    let (v, s) := if sdd1 then sdd1Source k s else s.aRead r.dmaAddr
    s.bWrite off v

/-- R170 lines 20 to 22, with the base pointer resolved again where `A1T` enters its block anew (R197). -/
def stepDmaByte (c : Chan) (addrStep : Half) (s : State) : State :=
  let s := s.updRow c Channel.countDas
  let r := s.row c
  let a := r.a1t + addrStep
  let s := s.setRow c { r with a1t := a }
  let wrapped := (addrStep == 1 && a == 0) || (addrStep == 0xFFFF && a == 0xFFFF)
  let s := if wrapped && !r.dir then s.resolveBase r.a1b else s
  { s with patternStep := nextPatternStep r.mode s.patternStep }

/-- R170 lines 12 to 23: `n` bytes left, byte `k` next. -/
def validLoop (c : Chan) (addrStep : Half) (sdd1 : Bool) : Nat → Nat → State → Bool × State
  | 0, _, s => (true, s)
  | n + 1, k, s =>
    let s := moveDmaByte c sdd1 k s
    let s := stepDmaByte c addrStep s
    let (go, s) := s.cycleSink c
    if go then validLoop c addrStep sdd1 n (k + 1) s else (false, s)

/-- `ExecuteDMA(c) -> completed` (R170). -/
def executeDMA (c : Chan) (s : State) : Bool × State :=
  let r := s.row c
  let s := s.enterDMA c
  let n := dmaCount r.das
  let s := s.addCycles Config.dmaChOverhead
  let (completed, s) :=
    if r.isInvalid then invalidLoop c n s
    else
      let s := { s with patternStep := 0 }
      let sdd1 := s.sdd1Hook r
      let s := if sdd1 then { s with sdd1Flag := false } else s
      let s := if r.dir then s else s.resolveBase r.a1b
      validLoop c r.addrStep sdd1 n 0 s
  let s := s.leaveDMA
  let s := if completed then s.rescheduleNmi else s
  (completed, s.observe (.dmaResult c completed))

/-- The arbiter on `WR.MDMAEN(v)` (R260): every requested channel, ascending, whatever the results. -/
def runArbiter (v : Mask) (s : State) : State :=
  let s := { s with mdmaen := v }
  let s := if v = 0 then s else s.addCycles Config.dmaSyncCost
  allChans.foldl (fun s c =>
    if hasBit s.mdmaen c then
      let (_, s) := executeDMA c s
      { s with mdmaen := withoutBit s.mdmaen c }
    else s) s

end Sys2Proof.Machine
end

