-- ==== Sys2Proof/Safety.lean ====
section
/-! DEFINITION. The terms claims are stated in: what a step changes, what it lets the outside observe, and the
invariants (00_scope.md R11, 10_state.md R39, R57, 20_memory.md R70, R71). -/

namespace Sys2Proof.Machine

/-! ## Frames -/

/-- `t` is `s` with row `c` replaced by `r`: every other row, every global, the locals and the environment (memory and
observations with it) are as before. -/
def State.rowBecomes (s : State) (c : Chan) (r : Channel) (t : State) : Prop :=
  t.row c = r ∧ (∀ d, d ≠ c → t.row d = s.row d) ∧ t = { s with ch := t.ch }

/-- The CPU address of register `r` of channel `c`, as a number: `0x4300 + 0x10*c + r` (R100). -/
def regAddr (c : Chan) (r : Nat) : Half := BitVec.ofNat 16 (0x4300 + 0x10 * c.toNat + r)

/-- `t` is `s` but for row `c` and the environment; the other rows are as before. -/
def State.onlyRowAndEnv (s : State) (c : Chan) (t : State) : Prop :=
  (∀ d, d ≠ c → t.row d = s.row d) ∧ t = { s with ch := t.ch, env := t.env }

/-- The fields of a row that no engine writes besides `A1T`, `DAS` and the live ones: the control byte, `BBAD` and the
two banks (R20 to R27, R29, R31, R70). -/
def Channel.sameConfig (r r' : Channel) : Prop :=
  r'.dir = r.dir ∧ r'.ind = r.ind ∧ r'.u5 = r.u5 ∧ r'.dec = r.dec ∧ r'.fix = r.fix ∧ r'.mode = r.mode ∧
  r'.bbad = r.bbad ∧ r'.a1b = r.a1b ∧ r'.dasb = r.dasb

/-- The state without the locals of `ExecuteDMA`, which mean nothing after the call (R56). -/
def State.dropLocals (s : State) : State := { s with seq := Seq.idle }

/-! ## Observations -/

/-- The cycle units of some observations: the sum of their `AddCycles` amounts (R11). -/
def cyclesOf (l : List Entry) : Nat :=
  (l.map fun x => match x.what with
    | .addCycles n => n
    | _ => 0).sum

/-- A facade transaction that moves a byte, or the OAM fix. -/
def Observed.isAccess : Observed → Bool
  | .readByte _ _ => true
  | .writeByte _ _ => true
  | .readRegister _ _ => true
  | .writeRegister _ _ => true
  | .oamFix => true
  | _ => false

/-- The accesses of a trace, oldest first. -/
def accesses (l : List Entry) : List Observed := ((l.map fun x => x.what).filter Observed.isAccess).reverse

/-- The pulse `NMIReschedule` (R195). -/
def Observed.isNmi : Observed → Bool
  | .nmiReschedule _ => true
  | _ => false

/-- A register access, if it is one, falls on the B-bus window of the facade (R71). -/
def Observed.inWindow : Observed → Bool
  | .readRegister a _ => 0x2100 ≤ a.toNat && a.toNat ≤ 0x21FF
  | .writeRegister a _ => 0x2100 ≤ a.toNat && a.toNat ≤ 0x21FF
  | _ => true

/-- An entry an engine's operation may add: any register access on the B-bus window, and no NMI pulse. -/
def Observed.fromEngine (w : Observed) : Bool := w.inWindow && !w.isNmi

/-! ## The accesses and results of an HDMA call, channel by channel -/

/-- The A-bus address of byte `i` of the channel's group: from `DASB:DAS` indirect, from `A1B:A2A` direct (R229). -/
def Channel.groupAddr (i : Nat) (r : Channel) : AAddr :=
  if r.ind then r.dasb ++ (r.das + BitVec.ofNat 16 i) else r.a1b ++ (r.a2a + BitVec.ofNat 16 i)

/-- The register of byte `i` of the channel's group (R71, R229). -/
def Channel.groupRegister (i : Nat) (r : Channel) : Half :=
  0x2100 + (r.bbad + pat r.mode (BitVec.ofNat 2 i)).setWidth 16

/-- The accesses of the group due on a scanline, `v i` being its byte `i`: the OAM fix of a channel on `BBAD = 0x04`, then
each byte's read and write (R228 lines 7 to 9, R229, R236). -/
def Channel.groupAccesses (v : Nat → Byte) (r : Channel) : List Observed :=
  if r.doTransfer then
    (if r.bbad = 0x04 then [.oamFix] else []) ++ (List.range (len r.mode)).flatMap fun i =>
      if r.dir then [.readRegister (r.groupRegister i) (v i), .writeByte (r.groupAddr i) (v i)]
      else [.readByte (r.groupAddr i) (v i), .writeRegister (r.groupRegister i) (v i)]
  else []

/-- The accesses of a line-count byte `b` at `A1B:a`: the byte, and where it is not 0 and the channel is indirect the two
bytes of the address after it (R222 lines 1, 10 and 11). -/
def Channel.tableAccesses (a : Half) (b lo hi : Byte) (r : Channel) : List Observed :=
  .readByte (r.a1b ++ a) b ::
    if r.ind && !(b == 0) then [.readByte (r.a1b ++ (a + 1)) lo, .readByte (r.a1b ++ (a + 2)) hi] else []

/-- `r'` is what the line-count byte `b` at in-bank address `a` makes of `r`, `lo` and `hi` being the two bytes after it;
the cached pointer is left open (R222). -/
def Channel.loads (a : Half) (b lo hi : Byte) (r r' : Channel) : Prop :=
  ∃ p, r' = { r with
    das := if r.ind && !(b == 0) then hi ++ lo else r.das
    a2a := a + (if r.ind && !(b == 0) then 3 else 1)
    rep := b.getLsbD 7
    lineCount := BitVec.ofNat 8 (if b.toNat % 128 = 0 then 128 else b.toNat % 128)
    doTransfer := !(b == 0)
    ptr := p }

/-- The bytes a channel's source pointer moves on a scanline (R232). -/
def Channel.lineBytes (r : Channel) : Half := BitVec.ofNat 16 (if r.doTransfer then len r.mode else 0)

/-- `A2A` after the group of a scanline, where a reloading channel reads its line-count byte (R228, R232). -/
def Channel.lineTable (r : Channel) : Half := if r.ind then r.a2a else r.a2a + r.lineBytes

/-- `DAS` after the group of a scanline (R228, R232). -/
def Channel.lineDas (r : Channel) : Half := if r.ind then r.das + r.lineBytes else r.das

/-- The accesses of one channel in a scanline step: its group, and where its count runs out the line-count byte after
it (R228 lines 7 to 13). -/
def Channel.lineAccesses (v : Nat → Byte) (b lo hi : Byte) (r : Channel) : List Observed :=
  r.groupAccesses v ++ if r.lineCount = 1 then r.tableAccesses r.lineTable b lo hi else []

/-- A reverse group of the row, due on this scanline, stores to `x` (R238). -/
def Channel.storesTo (x : AAddr) (r : Channel) : Prop :=
  r.dir = true ∧ r.doTransfer = true ∧ ∃ i < len r.mode, x = r.groupAddr i

/-- Memory holds `w` at `x` before a scanline step, and no reverse group of channel `c` or of an active channel served
before it stores there (R238, R261). -/
def State.lineKnows (s : State) (c : Chan) (x : AAddr) (w : Byte) : Prop :=
  s.env.peek x = some w ∧ ∀ d : Chan, d.toNat ≤ c.toNat → hasBit s.hdmaActive d = true → ¬(s.row d).storesTo x

/-! ## Invariants -/

/-- No `ExecuteDMA` is in flight and none is requested: the port is served. -/
def State.portReady (s : State) : Prop := s.seq.busy = none ∧ s.mdmaen = 0

/-- The transfer flags between steps: `InHDMA = 0`, `InEither = InDMA`, and `InDMA` and `CurrentChannel` are those of
the `ExecuteDMA` in flight (R39, R57, R171). -/
def State.flagsAgree (s : State) : Prop :=
  s.inHDMA = false ∧ s.inEither = s.inDMA ∧ s.inDMA = s.seq.busy.isSome ∧ s.currentChannel = s.seq.busy

/-- `1 <= LineCount <= 128` (R34, R57). -/
def Channel.lineCountOk (r : Channel) : Prop := 1 ≤ r.lineCount.toNat ∧ r.lineCount.toNat ≤ 128

/-- What every step keeps: the flags agree, the line counts are in range, `HDMARanInDMA` has been tested and cleared
(R192, R237), A-bus memory is in its canonical form, and `N` fits its 17-bit counter (R170). -/
structure State.Inv (s : State) : Prop where
  flags : s.flagsAgree
  lineCounts : ∀ c, (s.row c).lineCountOk
  ran : s.hdmaRanInDMA = 0
  memory : Memory.wf s.env.aMem = true
  count : s.seq.remaining ≤ 0x10000

/-- A cached pointer designates the byte at the current source address: `A1B:A2A` direct, `DASB:DAS` indirect (R235). -/
def Channel.ptrOk (r : Channel) : Prop := ∀ p, r.ptr = some p → p = r.sourceAddr r.ind

/-- R235's invariant in every row. -/
def State.pointersAgree (s : State) : Prop := ∀ c, (s.row c).ptrOk

/-- No channel is both active and ended, and none is active that is not enabled (R43, R57). -/
def State.masksAgree (s : State) : Prop :=
  ∀ c, hasBit s.hdmaActive c = true → hasBit s.hdmaEnded c = false ∧ hasBit s.hdmaen c = true

/-- No waiting move calls `AdvanceHDMALines` directly: R57's proviso for the two masks. -/
def State.schedulerOnly (s : State) : Prop :=
  ∀ m ∈ s.env.inbox, ∀ mask, m ≠ .callAdvanceHDMALines mask

/-- A host move that writes channel configuration: a register write, a reset (R20, R310). -/
def Move.configures : Move → Bool
  | .regWrite _ _ => true
  | .event ev => ev.getLsbD 2
  | .callResetAllChannels => true
  | _ => false

/-- The step about to be taken serves a host move that writes channel configuration. -/
def State.servesConfiguration (s : State) : Prop :=
  s.portReady ∧ ∃ m rest, s.env.inbox = m :: rest ∧ m.configures = true

/-- Some number of steps leads from one state to another. -/
def State.leadsTo (s t : State) : Prop := ∃ k, Sys2Proof.core.run k s = .next t

end Sys2Proof.Machine
end

