-- ==== Sys2Proof/Certificates/Slice0/Obligations.lean ====
section
/-! DEFINITION. The statements for the provers, from the numbered rules of spec/. -/

open Sys2Proof Sys2Proof.Machine

/-! ## Reset -/

/-- R55: the state right after reset, every channel field and every global. -/
def Obligations.ResetStateIsTheSpecs : Prop :=
  (∀ c, (State.reset.row c).dir = true ∧ (State.reset.row c).ind = true ∧ (State.reset.row c).u5 = true ∧
    (State.reset.row c).dec = true ∧ (State.reset.row c).fix = true ∧ (State.reset.row c).mode = 7 ∧
    (State.reset.row c).bbad = 0xFF ∧ (State.reset.row c).a1t = 0xFFFF ∧ (State.reset.row c).a1b = 0xFF ∧
    (State.reset.row c).das = 0xFFFF ∧ (State.reset.row c).dasb = 0xFF ∧ (State.reset.row c).a2a = 0xFFFF ∧
    (State.reset.row c).rep = false ∧ (State.reset.row c).lineCount = 0x7F ∧
    (State.reset.row c).doTransfer = false ∧ (State.reset.row c).ptr = none ∧
    (State.reset.row c).controlByte = 0xFF ∧ (State.reset.row c).ntrlByte = 0x7F) ∧
  State.reset.inDMA = false ∧ State.reset.inHDMA = false ∧ State.reset.inEither = false ∧
  State.reset.currentChannel = none ∧ State.reset.hdmaRanInDMA = 0 ∧ State.reset.hdmaen = 0 ∧
  State.reset.hdmaActive = 0 ∧ State.reset.hdmaEnded = 0 ∧ State.reset.mdmaen = 0 ∧
  State.reset.patternStep = 0 ∧ State.reset.sdd1Flag = false

/-- R264, R310, R311: `EV.RESET` gives every row and every global its reset value, issues no facade transaction and
accounts no cycles; a direct call of `ResetAllChannels` resets the rows only. The external state is not reset
(log 30). -/
def Obligations.ResetEventAndCallReset : Prop :=
  (∀ s : State, s.inEither = false → exec .evReset s = .next { State.reset with env := s.env }) ∧
  ∀ (s : State) (rest : List Move), s.portReady → s.env.inbox = .callResetAllChannels :: rest →
    ∃ t, step s = .next t ∧ (∀ c, t.row c = State.reset.row c) ∧
      t = { s with ch := t.ch, env := { s.env with inbox := rest } }

/-! ## The register port -/

/-- R130: a write of `0x43c0` is `WR.DMAP`, which sets the six fields of the control byte from their bits; of the row
only the cached pointer is dropped besides (R160), and nothing else changes. -/
def Obligations.WriteDmapSetsTheControlFields : Prop :=
  ∀ (c : Chan) (v : Byte) (s : State), s.inEither = false → decodeRegW (regAddr c 0) v = .ok (.wrDmap c v) ∧
    ∃ t, exec (.wrDmap c v) s = .next t ∧ s.rowBecomes c { s.row c with
      dir := v.getLsbD 7, ind := v.getLsbD 6, u5 := v.getLsbD 5, dec := v.getLsbD 4, fix := v.getLsbD 3,
      mode := v.extractLsb' 0 3, ptr := none } t

/-- R131, R134, R137: a write of `0x43c1`, `0x43c4` or `0x43c7` sets that 8-bit register to the byte; nothing else
changes but the cached pointer. -/
def Obligations.WriteByteRegisters : Prop :=
  ∀ (c : Chan) (v : Byte) (s : State), s.inEither = false →
    decodeRegW (regAddr c 1) v = .ok (.wrBbad c v) ∧ decodeRegW (regAddr c 4) v = .ok (.wrA1b c v) ∧
    decodeRegW (regAddr c 7) v = .ok (.wrDasb c v) ∧
    (∃ t, exec (.wrBbad c v) s = .next t ∧ s.rowBecomes c { s.row c with bbad := v, ptr := none } t) ∧
    (∃ t, exec (.wrA1b c v) s = .next t ∧ s.rowBecomes c { s.row c with a1b := v, ptr := none } t) ∧
    (∃ t, exec (.wrDasb c v) s = .next t ∧ s.rowBecomes c { s.row c with dasb := v, ptr := none } t)

/-- R132, R133, R135, R136, R138, R139: a write of `0x43c2`, `0x43c3`, `0x43c5`, `0x43c6`, `0x43c8` or `0x43c9` replaces
that half of its 16-bit register and keeps the other half. -/
def Obligations.WriteHalfRegisters : Prop :=
  ∀ (c : Chan) (v : Byte) (s : State), s.inEither = false →
    decodeRegW (regAddr c 2) v = .ok (.wrA1tl c v) ∧ decodeRegW (regAddr c 3) v = .ok (.wrA1th c v) ∧
    decodeRegW (regAddr c 5) v = .ok (.wrDasl c v) ∧ decodeRegW (regAddr c 6) v = .ok (.wrDash c v) ∧
    decodeRegW (regAddr c 8) v = .ok (.wrA2al c v) ∧ decodeRegW (regAddr c 9) v = .ok (.wrA2ah c v) ∧
    (∃ t, exec (.wrA1tl c v) s = .next t ∧
      s.rowBecomes c { s.row c with a1t := (s.row c).a1t.extractLsb' 8 8 ++ v, ptr := none } t) ∧
    (∃ t, exec (.wrA1th c v) s = .next t ∧
      s.rowBecomes c { s.row c with a1t := v ++ (s.row c).a1t.extractLsb' 0 8, ptr := none } t) ∧
    (∃ t, exec (.wrDasl c v) s = .next t ∧
      s.rowBecomes c { s.row c with das := (s.row c).das.extractLsb' 8 8 ++ v, ptr := none } t) ∧
    (∃ t, exec (.wrDash c v) s = .next t ∧
      s.rowBecomes c { s.row c with das := v ++ (s.row c).das.extractLsb' 0 8, ptr := none } t) ∧
    (∃ t, exec (.wrA2al c v) s = .next t ∧
      s.rowBecomes c { s.row c with a2a := (s.row c).a2a.extractLsb' 8 8 ++ v, ptr := none } t) ∧
    (∃ t, exec (.wrA2ah c v) s = .next t ∧
      s.rowBecomes c { s.row c with a2a := v ++ (s.row c).a2a.extractLsb' 0 8, ptr := none } t)

/-- R140: a write of `0x43cA` is `WR.NTRL`, which sets `Repeat` from bit 7 and `LineCount` from the low seven bits, 0
standing for 128; `DoTransfer` and everything else stay, but for the cached pointer (R160). -/
def Obligations.WriteNtrlSetsRepeatAndLineCount : Prop :=
  ∀ (c : Chan) (v : Byte) (s : State), s.inEither = false → decodeRegW (regAddr c 0xA) v = .ok (.wrNtrl c v) ∧
    ∃ t, exec (.wrNtrl c v) s = .next t ∧ s.rowBecomes c { s.row c with
      rep := v.getLsbD 7
      lineCount := if v.toNat % 128 = 0 then 128 else BitVec.ofNat 8 (v.toNat % 128)
      ptr := none } t

/-- R141: a write to an unimplemented offset, 0xB or 0xC to 0xF, changes no state. -/
def Obligations.WriteUnimplementedChangesNothing : Prop :=
  ∀ (c : Chan) (r : BitVec 2) (v : Byte) (s : State), s.inEither = false →
    decodeRegW (regAddr c 0xB) v = .ok (.wrUnimplB c v) ∧
    decodeRegW (regAddr c (0xC + r.toNat)) v = .ok (.wrUnimplCF c r v) ∧
    exec (.wrUnimplB c v) s = .next s ∧ exec (.wrUnimplCF c r v) s = .next s

/-- R160: every write to a register 0x0 to 0xA of a channel leaves that channel's cached pointer `none`. -/
def Obligations.ChannelWriteDropsTheCachedPointer : Prop :=
  ∀ (c : Chan) (r : BitVec 4) (v : Byte) (s : State), r.toNat ≤ 0xA → s.inEither = false →
    ∃ i t, decodeRegW (regAddr c r.toNat) v = .ok i ∧ exec i s = .next t ∧
      (t.row c).ptr = none

/-- R33, R119, R144 to R154: whatever byte is written to a register 0x0 to 0xA of a channel, a read of the same address
right after it answers that byte. -/
def Obligations.ChannelRegistersReadBackAsWritten : Prop :=
  ∀ (c : Chan) (r : BitVec 4) (v : Byte) (s : State), r.toNat ≤ 0xA → s.inEither = false →
    ∃ i j t, decodeRegW (regAddr c r.toNat) v = .ok i ∧
      decodeRegR (regAddr c r.toNat) = .ok j ∧
      exec i s = .next t ∧
      exec j t = .next { t with env := { t.env with trace := ⟨.readBack v, t.context⟩ :: t.env.trace } }

/-- R144 to R154: the address of each channel register and what it reads as. A read changes nothing else; that the byte it
drives is recorded as an observation is the model's choice (log 29). -/
def Obligations.ChannelRegisterReads : Prop :=
  ∀ (c : Chan) (s : State), s.inEither = false →
    ∀ p ∈ ([(0x0, .rdDmap c, BitVec.ofBool (s.row c).dir ++ BitVec.ofBool (s.row c).ind ++
          BitVec.ofBool (s.row c).u5 ++ BitVec.ofBool (s.row c).dec ++ BitVec.ofBool (s.row c).fix ++ (s.row c).mode),
        (0x1, .rdBbad c, (s.row c).bbad),
        (0x2, .rdA1tl c, (s.row c).a1t.extractLsb' 0 8), (0x3, .rdA1th c, (s.row c).a1t.extractLsb' 8 8),
        (0x4, .rdA1b c, (s.row c).a1b),
        (0x5, .rdDasl c, (s.row c).das.extractLsb' 0 8), (0x6, .rdDash c, (s.row c).das.extractLsb' 8 8),
        (0x7, .rdDasb c, (s.row c).dasb),
        (0x8, .rdA2al c, (s.row c).a2a.extractLsb' 0 8), (0x9, .rdA2ah c, (s.row c).a2a.extractLsb' 8 8),
        (0xA, .rdNtrl c, BitVec.ofBool (s.row c).rep ++ (s.row c).lineCount.extractLsb' 0 7)] :
          List (Nat × Instr × Byte)),
      decodeRegR (regAddr c p.1) = .ok p.2.1 ∧
      exec p.2.1 s = .next { s with env := { s.env with trace := ⟨.readBack p.2.2, s.context⟩ :: s.env.trace } }

/-- R156, R157: the two enable registers read as stored; `HDMAEN` is not `HDMA_ACTIVE`. `MDMAEN` reads 0 where the port
is served. That the byte driven is recorded as an observation is the model's choice (log 29). -/
def Obligations.EnableRegisterReads : Prop :=
  decodeRegR 0x420B = .ok .rdMdmaen ∧ decodeRegR 0x420C = .ok .rdHdmaen ∧
  ∀ s : State, s.inEither = false →
    exec .rdHdmaen s = .next { s with env := { s.env with trace := ⟨.readBack s.hdmaen, s.context⟩ :: s.env.trace } } ∧
    exec .rdMdmaen s = .next { s with env := { s.env with trace := ⟨.readBack s.mdmaen, s.context⟩ :: s.env.trace } } ∧
    (s.portReady → exec .rdMdmaen s = .next { s with
      env := { s.env with trace := ⟨.readBack 0, s.context⟩ :: s.env.trace } })

/-- R155: a read of an unimplemented offset drives a drawn byte, the outside's next answer if it gives one (log 13), and
changes nothing of the block. -/
def Obligations.UnimplementedReadIsADraw : Prop :=
  ∀ (c : Chan) (r : BitVec 2) (s : State), s.inEither = false →
    decodeRegR (regAddr c 0xB) = .ok (.rdUnimplB c) ∧
    decodeRegR (regAddr c (0xC + r.toNat)) = .ok (.rdUnimplCF c r) ∧
    ∀ i ∈ [Instr.rdUnimplB c, Instr.rdUnimplCF c r], ∃ v t, exec i s = .next t ∧
      (∀ w rest, s.env.answers = w :: rest → v = w ∧ t.env.answers = rest) ∧
      t = { s with env := { s.env with
        trace := ⟨.readBack v, s.context⟩ :: s.env.trace, answers := t.env.answers, drawn := t.env.drawn } }

/-- R142: a write of `MDMAEN` stores the mask, and accounts `DMA_SYNC_COST` exactly where the mask is not 0. The
arbiter's runs are the steps that follow (log 7). -/
def Obligations.WriteMdmaenRequestsTheChannels : Prop :=
  ∀ (v : Mask) (s : State), s.inEither = false → decodeRegW 0x420B v = .ok (.wrMdmaen v) ∧
    ∃ t, exec (.wrMdmaen v) s = .next t ∧ t.mdmaen = v ∧
    t.env.cycles = s.env.cycles + (if v = 0 then 0 else Config.dmaSyncCost) ∧
    (v = 0 → t.env = s.env) ∧
    (∃ new, t.env.trace = new ++ s.env.trace ∧ accesses new = []) ∧
    t = { s with mdmaen := v, env := { s.env with cycles := t.env.cycles, trace := t.env.trace } }

/-- R143: `HDMAEN <- v; HDMA_ACTIVE <- v and not HDMA_ENDED`, and nothing else: no line-count read, `HDMA_ENDED` and the
live state of every channel as before. -/
def Obligations.WriteHdmaenSetsTheActiveMask : Prop :=
  ∀ (v : Mask) (s : State), s.inEither = false → decodeRegW 0x420C v = .ok (.wrHdmaen v) ∧
    exec (.wrHdmaen v) s = .next { s with hdmaen := v, hdmaActive := v &&& ~~~s.hdmaEnded }

/-- R265: `HDMA.EN c` enables channel `c`, and makes it active unless it has ended this frame; no other bit and nothing
else changes. -/
def Obligations.HdmaEnableBit : Prop :=
  ∀ s : State, s.inEither = false →
    ∀ p ∈ ([(.hdmaEn0, 0), (.hdmaEn1, 1), (.hdmaEn2, 2), (.hdmaEn3, 3), (.hdmaEn4, 4), (.hdmaEn5, 5), (.hdmaEn6, 6),
      (.hdmaEn7, 7)] : List (Instr × Chan)),
    ∃ t, exec p.1 s = .next t ∧
      (∀ d, hasBit t.hdmaen d = (hasBit s.hdmaen d || d == p.2)) ∧
      (∀ d, hasBit t.hdmaActive d = (hasBit s.hdmaActive d || (d == p.2 && !hasBit s.hdmaEnded d))) ∧
      t = { s with hdmaen := t.hdmaen, hdmaActive := t.hdmaActive }

/-- R103, R143, R265: writing the byte `v` to `HDMAEN` is clearing both masks and running the `HDMA.EN` instructions of
its set bits. -/
def Obligations.WriteHdmaenRunsItsEnableBits : Prop :=
  ∀ (v : Mask) (s : State), s.inEither = false →
    exec (.wrHdmaen v) s = execSeq (decodeHdma v) { s with hdmaen := 0, hdmaActive := 0 }

/-- R158, R293: the four moves the host never makes have no meaning: a register access or an `ExecuteDMA` call or a
`RESET` while `InEither = 1`, an HDMA event while `InHDMA = 1`. -/
def Obligations.ExcludedHostMovesAreRefused : Prop :=
  (∀ (s : State) (addr : Half) (data : Byte) (i : Instr), s.inEither = true →
    decodeRegW addr data = .ok i ∨ decodeRegR addr = .ok i → exec i s = .refused .portWhileBusy) ∧
  (∀ (s : State) (c : Chan), s.inEither = true → exec (dmaExecOf c) s = .refused .dmaWhileBusy) ∧
  (∀ s : State, s.inHDMA = true →
    exec .evHdmaInit s = .refused .hdmaWhileInHDMA ∧ exec .evHdmaLine s = .refused .hdmaWhileInHDMA) ∧
  ∀ s : State, s.inEither = true → exec .evReset s = .refused .resetWhileBusy

/-- R100, R159: the block answers `0x4300 .. 0x437F`, `0x420B` and `0x420C` and no other address. That the step which meets
a transaction elsewhere takes it from the inbox and changes nothing else is the model's reading of "not the block's"
(log 28) and its form of what the outside asks for (log 2). -/
def Obligations.TransactionsElsewhereAreNotTheBlocks : Prop :=
  (∀ (addr : Half) (data : Byte),
    ((∃ i, decodeRegW addr data = .ok i) ↔
      (0x4300 ≤ addr.toNat ∧ addr.toNat ≤ 0x437F) ∨ addr = 0x420B ∨ addr = 0x420C) ∧
    ((∃ i, decodeRegR addr = .ok i) ↔
      (0x4300 ≤ addr.toNat ∧ addr.toNat ≤ 0x437F) ∨ addr = 0x420B ∨ addr = 0x420C)) ∧
  ∀ (s : State) (addr : Half) (data : Byte) (rest : List Move), s.portReady →
    ¬((0x4300 ≤ addr.toNat ∧ addr.toNat ≤ 0x437F) ∨ addr = 0x420B ∨ addr = 0x420C) →
    s.env.inbox = .regWrite addr data :: rest ∨ s.env.inbox = .regRead addr :: rest →
    step s = .next { s with env := { s.env with inbox := rest } }

/-! ## The instructions of a DMA byte -/

/-- R106, R179 to R186: in each mode the byte's B-bus offset is `BBAD` plus the pattern entry, and the pattern position
advances cyclically; nothing else changes. That the offset is latched is the model's (log 4). -/
def Obligations.XferSelectsTheOffsetAndAdvancesThePattern : Prop :=
  ∀ (c : Chan) (s : State),
    ∀ p ∈ ([(.xferM0 c, [0]), (.xferM1 c, [0, 1]), (.xferM2 c, [0, 0]), (.xferM3 c, [0, 0, 1, 1]),
      (.xferM4 c, [0, 1, 2, 3]), (.xferM5 c, [0, 1, 0, 1]), (.xferM6 c, [0, 0]), (.xferM7 c, [0, 0, 1, 1])] :
        List (Instr × List Byte)),
    exec p.1 s = .next { s with
      patternStep := BitVec.ofNat 2 ((s.patternStep.toNat + 1) % p.2.length)
      seq := { s.seq with bOff := (s.row c).bbad + p.2.getD (s.patternStep.toNat % p.2.length) 0 } }

/-- R106, R178: byte number `i` of a run of bytes of one mode uses pattern offset `PAT[MODE][i mod LEN[MODE]]`. That byte
number `i` is the last of `i + 1` transfer rows run alone, and that its offset is the latch they leave, is the model's
(log 4). -/
def Obligations.PatternCyclesOverTheBytes : Prop :=
  ∀ p ∈ ([(0, [0]), (1, [0, 1]), (2, [0, 0]), (3, [0, 0, 1, 1]), (4, [0, 1, 2, 3]), (5, [0, 1, 0, 1]), (6, [0, 0]),
      (7, [0, 0, 1, 1])] : List (BitVec 3 × List Byte)),
    ∀ (c : Chan) (s : State) (i : Nat), s.patternStep = 0 →
      ∃ t, execSeq (List.replicate (i + 1) (decodeXfer c p.1)) s = .next t ∧
        t.seq.bOff = (s.row c).bbad + p.2.getD (i % p.2.length) 0 ∧ ∀ d, t.row d = s.row d

/-- R176, R187: a forward byte is one `ARead` at `A1B:A1T` and then one `BWrite` of the byte read; nothing but the
observations and the counters of free values changes. That the `DIR` row runs alone is log 4, that a byte not known is a
free value is log 13. That A-bus memory stays through the `BWrite`, the WRAM data port included, is the model's choice
(log 12). -/
def Obligations.ForwardByteReadsThenWrites : Prop :=
  ∀ (c : Chan) (s : State), s.seq.sdd1On = false → ∃ v t, exec (.dirA2B c) s = .next t ∧
    (∀ w, s.env.peek ((s.row c).a1b ++ (s.row c).a1t) = some w → v = w) ∧
    t = { s with env := { s.env with
      trace := ⟨.writeRegister (0x2100 + s.seq.bOff.setWidth 16) v, s.context⟩ ::
        ⟨.readByte ((s.row c).a1b ++ (s.row c).a1t) v, s.context⟩ :: s.env.trace
      answers := t.env.answers, drawn := t.env.drawn } }

/-- R177, R188: a reverse byte is one `BRead` and then one `AWrite` of the byte read at `A1B:A1T`: RAM holds it after
that, every other address reads as before, and nothing else of the block changes. That the `DIR` row runs alone is log 4.
The model's choices are that a `BRead` changes no byte of memory (log 12), that RAM holds the byte also where it comes
from the WRAM data port and goes to WRAM (log 32), and that no address mirrors another (log 33). -/
def Obligations.ReverseByteReadsThenWrites : Prop :=
  ∀ (c : Chan) (s : State), ∃ v t, exec (.dirB2A c) s = .next t ∧
    (s.env.kindAt ((s.row c).a1b ++ (s.row c).a1t).toNat = some .ram →
      t.env.peek ((s.row c).a1b ++ (s.row c).a1t) = some v) ∧
    (∀ b, b ≠ (s.row c).a1b ++ (s.row c).a1t → t.env.peek b = s.env.peek b) ∧
    t = { s with env := { s.env with
      trace := ⟨.writeByte ((s.row c).a1b ++ (s.row c).a1t) v, s.context⟩ ::
        ⟨.readRegister (0x2100 + s.seq.bOff.setWidth 16) v, s.context⟩ :: s.env.trace
      aMem := t.env.aMem, answers := t.env.answers, drawn := t.env.drawn } }

/-- R196: with the hook taken, byte `k` is `SDD1_BUF[k]` and no `ARead` is issued; past the buffer's end it is any byte
(log 14). That the `DIR` row runs alone is log 4. That A-bus memory stays through the `BWrite` is the model's choice
(log 12). -/
def Obligations.Sdd1BytesComeFromTheBuffer : Prop :=
  ∀ (c : Chan) (s : State), s.seq.sdd1On = true → ∃ v t, exec (.dirA2B c) s = .next t ∧
    (∀ w, s.env.sdd1Buf[s.seq.sdd1Index]? = some w → v = w) ∧
    t = { s with
      seq := { s.seq with sdd1Index := s.seq.sdd1Index + 1 }
      env := { s.env with
        trace := ⟨.writeRegister (0x2100 + s.seq.bOff.setWidth 16) v, s.context⟩ :: s.env.trace
        answers := t.env.answers, drawn := t.env.drawn } }

/-- R111, R189 to R191: the address step is 0 if `FIX`, else -1 if `DEC`, else +1, in 16 bits with the bank unchanged.
Besides `A1T` only the fast-path pointer and its resolver calls can change (R197). That the `STEP` row runs alone and moves
`A1T` and nothing else of the row is the model's (log 4). -/
def Obligations.AddressStep : Prop :=
  (∀ (c : Chan) (s : State),
    ∀ p ∈ ([(.stepInc c, 1), (.stepDec c, 0xFFFF), (.stepFix c, 0)] : List (Instr × Half)),
    ∃ t new, exec p.1 s = .next t ∧ t.row c = { s.row c with a1t := (s.row c).a1t + p.2 } ∧
      (∀ d, d ≠ c → t.row d = s.row d) ∧ accesses new = [] ∧
      t = { s with
        ch := t.ch, seq := { s.seq with basePtr := t.seq.basePtr }
        env := { s.env with trace := new ++ s.env.trace } }) ∧
  ∀ (c : Chan) (r : Channel), (decodeDmap c r.controlByte).step =
    if r.fix then .stepFix c else if r.dec then .stepDec c else .stepInc c

/-! ## `ExecuteDMA` -/

/-- R110, R171, R173: `DMA.EXEC c` enters `ExecuteDMA(c)`: the flags, the count with 0 meaning 0x10000, the invalid
predicate, 8 cycle units and no access, no row changed. A valid transfer starts its pattern at 0 (R178). R260 has
`DMA.EXEC c` run the whole call: that the instruction itself is only the entry, its bytes and end being the steps that
follow, is the model's (log 1, log 7). -/
def Obligations.DmaExecEntersTheTransfer : Prop :=
  ∀ s : State, s.inEither = false →
    ∀ p ∈ ([(.dmaExec0, 0), (.dmaExec1, 1), (.dmaExec2, 2), (.dmaExec3, 3), (.dmaExec4, 4), (.dmaExec5, 5),
      (.dmaExec6, 6), (.dmaExec7, 7)] : List (Instr × Chan)),
    ∃ t new, exec p.1 s = .next t ∧ t.inDMA = true ∧ t.inEither = true ∧ t.currentChannel = some p.2 ∧
      t.seq.busy = some p.2 ∧
      t.seq.remaining = (if (s.row p.2).das = 0 then 0x10000 else (s.row p.2).das.toNat) ∧
      (t.seq.invalid = true ↔
        ((s.row p.2).a1b = 0x7E ∨ (s.row p.2).a1b = 0x7F) ∧ (s.row p.2).bbad = 0x80 ∧ (s.row p.2).dir = false) ∧
      t.patternStep = (if t.seq.invalid then s.patternStep else 0) ∧
      accesses new = [] ∧
      t = { s with
        inDMA := true, inEither := true, currentChannel := some p.2
        patternStep := t.patternStep, sdd1Flag := t.sdd1Flag, seq := t.seq
        env := { s.env with cycles := s.env.cycles + 8, trace := new ++ s.env.trace } }

/-- R196: the S-DD1 hook is taken at the entry of a valid transfer exactly where `SDD1_PRESENT and DIR = 0 and FIX = 1
and SDD1_FLAG = 1`; taken, it clears the flag at once and starts at byte 0 of the buffer; else the flag stays. That the
instruction is the entry only is log 1 and log 7. -/
def Obligations.Sdd1HookAtEntry : Prop :=
  ∀ (c : Chan) (s : State), s.inEither = false → ∃ t, exec (dmaExecOf c) s = .next t ∧
    (t.seq.sdd1On = true ↔ t.seq.invalid = false ∧ s.env.sdd1Present = true ∧ (s.row c).dir = false ∧
      (s.row c).fix = true ∧ s.sdd1Flag = true) ∧
    t.sdd1Flag = (s.sdd1Flag && !t.seq.sdd1On) ∧ t.seq.sdd1Index = 0

/-- R170, R176: while a valid `ExecuteDMA(c)` has bytes left, a step is the transfer, direction and step instruction of
the channel's control byte, in this order, and then the count and the cycle sink. -/
def Obligations.StepRunsOneDmaByte : Prop :=
  ∀ (c : Chan) (s : State), s.seq.busy = some c → s.seq.remaining ≠ 0 → s.seq.invalid = false →
    ∃ a b d, exec (decodeXfer c (s.row c).mode) s = .next a ∧
      exec (if (s.row c).dir then .dirB2A c else .dirA2B c) a = .next b ∧
      exec (if (s.row c).fix then .stepFix c else if (s.row c).dec then .stepDec c else .stepInc c) b = .next d ∧
      step s = .next (d.closeByte c)

/-- R174: a step of an invalid transfer (one byte, log 1) moves nothing: `DAS` decrements and the sink runs, no `ARead`,
no `BWrite`, no change of `A1T`, `PatternStep` or the S-DD1 flag. Where the channel is indirect its cached pointer is
dropped with the change of `DAS` (R235, log 22). Said for a sink that delivers nothing. -/
def Obligations.InvalidByteMovesNothing : Prop :=
  ∀ (c : Chan) (s : State) (rest : List (List Due)), s.seq.busy = some c → s.seq.remaining ≠ 0 →
    s.seq.invalid = true → s.hdmaRanInDMA = 0 → s.env.script = [] :: rest →
    ∃ t, step s = .next t ∧
      t.row c = { s.row c with das := (s.row c).das - 1, ptr := if (s.row c).ind then none else (s.row c).ptr } ∧
      (∀ d, d ≠ c → t.row d = s.row d) ∧
      t = { s with
        ch := t.ch
        seq := { s.seq with remaining := s.seq.remaining - 1 }
        env := { s.env with
          cycles := s.env.cycles + 8, trace := ⟨.addCycles 8, s.context⟩ :: s.env.trace, script := rest } }

/-- R195: the NMI rule is applied where the call completes, and only there: the pulse is issued exactly where
`NMIPending` is 1; no step before the end, an abort among them, issues it. The call that completes answers `true` and
clears the flags (R193, R194). That its end is a step of its own, taken at `N = 0`, is the model's (log 1). -/
def Obligations.NmiIsRescheduledOnCompletionOnly : Prop :=
  ∀ (c : Chan) (s : State), s.seq.busy = some c →
    (s.seq.remaining = 0 → ∃ t new, step s = .next t ∧ t.env.trace = new ++ s.env.trace ∧
      new.map (fun x => x.what) = .dmaResult c true ::
        (if s.env.nmiPending then [.nmiReschedule Config.nmiDmaDelay] else []) ∧
      t.inDMA = false ∧ t.inEither = false ∧ t.currentChannel = none) ∧
    (s.seq.remaining ≠ 0 → ∃ t new, step s = .next t ∧ t.env.trace = new ++ s.env.trace ∧
      ∀ x ∈ new, x.what.isNmi = false)

/-- R106, R176 to R178, R194, R200: a valid `ExecuteDMA(c)` during which no event falls due ends after exactly `N` byte
steps: byte `i` moves between `A1B:(A1T + i * step)` and register `0x2100 + (BBAD + PAT[i mod LEN])`, a forward byte is
the one memory held at the start, and then `DAS = 0`, `A1T` has moved by `N * step`, the cached pointer of an indirect
channel is dropped (R235, log 22), `8 + 8 * N` cycle units are accounted, the flags are down and the result is true. Said
without the S-DD1 hook. The call is spread over steps (log 1, log 7). That memory stays as it was at the start through
all `BWrite`s, the WRAM data port among them, is the model's choice (log 12). -/
def Obligations.UndisturbedTransferMovesNBytes : Prop :=
  ∀ (c : Chan) (s : State) (n : Nat) (d : Half) (rest : List (List Due)), s.inEither = false → s.hdmaRanInDMA = 0 →
    (s.row c).isInvalid = false → s.sdd1Hook (s.row c) = false →
    n = (if (s.row c).das = 0 then 0x10000 else (s.row c).das.toNat) →
    d = (if (s.row c).fix then 0 else if (s.row c).dec then 0xFFFF else 1) →
    s.env.script = List.replicate n [] ++ rest →
    ∃ (s' t : State) (new : List Entry) (v : Nat → Byte), exec (dmaExecOf c) s = .next s' ∧
      Sys2Proof.core.run (n + 1) s' = .next t ∧
      t.row c = { s.row c with
        das := 0, a1t := (s.row c).a1t + BitVec.ofNat 16 n * d
        ptr := if (s.row c).ind then none else (s.row c).ptr } ∧
      (∀ e, e ≠ c → t.row e = s.row e) ∧
      t.inDMA = false ∧ t.inEither = false ∧ t.currentChannel = none ∧ t.seq.busy = none ∧
      t.env.script = rest ∧ t.env.trace = new ++ s.env.trace ∧ t.env.cycles = s.env.cycles + (8 + 8 * n) ∧
      (new.head?.map fun x => x.what) = some (.dmaResult c true) ∧
      accesses new = (List.range n).flatMap (fun i =>
        let a := (s.row c).a1b ++ ((s.row c).a1t + BitVec.ofNat 16 i * d)
        let b := 0x2100 + ((s.row c).bbad + pat (s.row c).mode (BitVec.ofNat 2 (i % len (s.row c).mode))).setWidth 16
        if (s.row c).dir then [.readRegister b (v i), .writeByte a (v i)]
        else [.readByte a (v i), .writeRegister b (v i)]) ∧
      ((s.row c).dir = false → ∀ i < n, ∀ w,
        s.env.peek ((s.row c).a1b ++ ((s.row c).a1t + BitVec.ofNat 16 i * d)) = some w → v i = w)

/-- R193, R202: a scanline event that handles channel `c` at the sink of byte `k` of a valid `ExecuteDMA(c)` aborts it
there: exactly `k` bytes are moved, `DAS` is decremented by `k` and `A1T` advanced by `k * step`, the flags are down, the
result is false and no NMI is rescheduled. Said for a direct channel, whose `DAS` HDMA does not use, and without the
S-DD1 hook; the last byte (`k = N`) is no exception. The call is spread over steps (log 1, log 7). -/
def Obligations.CollisionAbortsAfterExactlyKBytes : Prop :=
  ∀ (c : Chan) (s : State) (k : Nat) (d : Half) (rest : List (List Due)), s.inEither = false → s.inHDMA = false →
    s.hdmaRanInDMA = 0 → (s.row c).isInvalid = false → s.sdd1Hook (s.row c) = false → (s.row c).ind = false →
    1 ≤ k → k ≤ (if (s.row c).das = 0 then 0x10000 else (s.row c).das.toNat) →
    d = (if (s.row c).fix then 0 else if (s.row c).dec then 0xFFFF else 1) →
    s.env.script = List.replicate (k - 1) [] ++ [⟨false, true, none⟩] :: rest → hasBit s.hdmaActive c = true →
    ∃ (s' t : State) (new : List Entry), exec (dmaExecOf c) s = .next s' ∧ Sys2Proof.core.run k s' = .next t ∧
      (t.row c).das = (s.row c).das - BitVec.ofNat 16 k ∧
      (t.row c).a1t = (s.row c).a1t + BitVec.ofNat 16 k * d ∧
      t.inDMA = false ∧ t.inEither = false ∧ t.currentChannel = none ∧ t.seq.busy = none ∧
      t.env.trace = new ++ s.env.trace ∧ (new.head?.map fun x => x.what) = some (.dmaResult c false) ∧
      (∀ x ∈ new, x.what.isNmi = false) ∧
      (new.filter fun x => x.what.isAccess && !x.ctx.inHDMA).length = 2 * k

/-- R170, R201: whatever the sinks deliver, the steps after `DMA.EXEC c` come to the state `ExecuteDMA(c)` of the spec
leaves, in at most 0x10001 steps (the last one the end of the call). The call's locals mean nothing after it (R56), and
the arbiter's bit `c` of `MDMAEN` is cleared (R260). -/
def Obligations.DmaStepsComputeExecuteDMA : Prop :=
  ∀ (c : Chan) (s : State), s.inEither = false →
    ∃ (s' t : State) (k : Nat), exec (dmaExecOf c) s = .next s' ∧ k ≤ 0x10001 ∧ Sys2Proof.core.run k s' = .next t ∧
      t.seq.busy = none ∧
      t.dropLocals = { (executeDMA c s).2 with mdmaen := withoutBit s.mdmaen c }.dropLocals

/-- R142, R260: the steps after `WR.MDMAEN(v)` come to the state the arbiter of the spec leaves: every requested channel
has run once, lowest number first, whatever the results, and `MDMAEN = 0`. -/
def Obligations.ArbiterStepsComputeTheRequestedTransfers : Prop :=
  ∀ (v : Mask) (s : State), s.inEither = false → s.seq.busy = none →
    ∃ s' t : State, exec (.wrMdmaen v) s = .next s' ∧ s'.leadsTo t ∧ t.portReady ∧
      t.dropLocals = (runArbiter v s).dropLocals

/-! ## HDMA -/

/-- R229: one group. With the source `DASB:DAS` (`HADDR.INDIRECT`) or `A1B:A2A` (`HADDR.DIRECT`), `LEN[MODE]` bytes move
between consecutive in-bank addresses and the pattern's registers from its position 0; forward bytes are those memory
held at the start, reverse bytes are what memory holds after that; 8 cycle units a byte; the source pointer advances by
exactly the group length, and of the rest of the block only the cached pointer may change. That the `HADDR` row alone is
the group is log 4. The model's choices are that memory stays through the `BWrite`s and `BRead`s, the WRAM data port
included (log 12), that RAM holds a reverse byte also from that port to WRAM (log 32), and that no address mirrors
another (log 33). -/
def Obligations.HdmaGroupMovesOnePattern : Prop :=
  ∀ (c : Chan) (ind : Bool) (s : State),
    let r := s.row c
    let g := len r.mode
    let a := fun i : Nat => if ind then r.dasb ++ (r.das + BitVec.ofNat 16 i) else r.a1b ++ (r.a2a + BitVec.ofNat 16 i)
    let b := fun i : Nat => 0x2100 + (r.bbad + pat r.mode (BitVec.ofNat 2 i)).setWidth 16
    ∃ (t : State) (new : List Entry) (v : Nat → Byte) (p : Option AAddr),
      exec (if ind then .haddrIndirect c else .haddrDirect c) s = .next t ∧
      t.row c = (if ind then { r with das := r.das + BitVec.ofNat 16 g, ptr := p }
        else { r with a2a := r.a2a + BitVec.ofNat 16 g, ptr := p }) ∧
      s.onlyRowAndEnv c t ∧
      t.env.trace = new ++ s.env.trace ∧ t.env.cycles = s.env.cycles + 8 * g ∧
      accesses new = (List.range g).flatMap (fun i =>
        if r.dir then [.readRegister (b i) (v i), .writeByte (a i) (v i)]
        else [.readByte (a i) (v i), .writeRegister (b i) (v i)]) ∧
      (r.dir = false → ∀ i < g, ∀ w, s.env.peek (a i) = some w → v i = w) ∧
      (r.dir = true → ∀ i < g, s.env.kindAt (a i).toNat = some .ram → t.env.peek (a i) = some (v i)) ∧
      ∀ x, r.dir = false ∨ (∀ i < g, x ≠ a i) → t.env.peek x = s.env.peek x

/-- R223 to R226: what a line-count byte leaves in `Repeat`, `LineCount` and `DoTransfer`, and that `A2A` ends one past
the byte, or three past it for an entry of an indirect channel. Configuration, `A1T`, every other row, every global and
every byte of memory stay, and so does `DAS` unless the address is fetched. Where an LC row begins and ends is the
model's choice (log 6). -/
def Obligations.LineCountByteResults : Prop :=
  ∀ (c : Chan) (n : BitVec 7) (s : State), n ≠ 0 →
    ∀ p ∈ ([(.lcEnd c, false, 128, false), (.lcRep128 c, true, 128, true), (.lcSingle c n, false, n.toNat, true),
      (.lcRepeat c n, true, n.toNat, true)] : List (Instr × Bool × Nat × Bool)),
    ∃ t, exec p.1 s = .next t ∧ (t.row c).rep = p.2.1 ∧ (t.row c).lineCount.toNat = p.2.2.1 ∧
      (t.row c).doTransfer = p.2.2.2 ∧
      (t.row c).a2a = (s.row c).a2a + (if p.2.2.2 && (s.row c).ind then 3 else 1) ∧
      (s.row c).sameConfig (t.row c) ∧ (t.row c).a1t = (s.row c).a1t ∧
      ((p.2.2.2 && (s.row c).ind) = false → (t.row c).das = (s.row c).das) ∧
      s.onlyRowAndEnv c t ∧ ∀ x, t.env.peek x = s.env.peek x

/-- R227: only after a non-zero line-count byte and only if `IND = 1`, two `ARead`s in bank `A1B` right after the byte,
low byte first, replace `DAS`; in-bank addresses wrap. That an LC row itself makes exactly these accesses and accounts
their 16 cycle units, the read of the byte itself standing before it, is the model's choice (log 6). -/
def Obligations.IndirectAddressFetch : Prop :=
  ∀ (c : Chan) (n : BitVec 7) (s : State),
    (∀ i ∈ [Instr.lcRep128 c, Instr.lcSingle c n, Instr.lcRepeat c n],
      ((s.row c).ind = true → ∃ (t : State) (new : List Entry) (lo hi : Byte), exec i s = .next t ∧
        t.env.trace = new ++ s.env.trace ∧
        accesses new = [.readByte ((s.row c).a1b ++ ((s.row c).a2a + 1)) lo,
          .readByte ((s.row c).a1b ++ ((s.row c).a2a + 2)) hi] ∧
        (∀ w, s.env.peek ((s.row c).a1b ++ ((s.row c).a2a + 1)) = some w → lo = w) ∧
        (∀ w, s.env.peek ((s.row c).a1b ++ ((s.row c).a2a + 2)) = some w → hi = w) ∧
        (t.row c).das = hi ++ lo ∧ (t.row c).a2a = (s.row c).a2a + 3 ∧ t.env.cycles = s.env.cycles + 16) ∧
      ((s.row c).ind = false → ∃ (t : State) (new : List Entry), exec i s = .next t ∧
        t.env.trace = new ++ s.env.trace ∧ accesses new = [] ∧ (t.row c).das = (s.row c).das)) ∧
    ∃ t, exec (.lcEnd c) s = .next t ∧ t.env = s.env ∧ (t.row c).das = (s.row c).das

/-- R102: the four classes of a line-count byte in their order, and the one formula `Repeat = byte[7]`,
`LineCount = (byte[6:0] = 0) ? 128 : byte[6:0]`, `exhausted = (byte = 0)`, which the spec derives, as `ReadLineCountByte`
(R222) applies it to the byte at `A1B:A2A`. That `ReadLineCountByte` is the read, 8 cycle units and then the LC row is the
model's choice of where that row begins (log 6). -/
def Obligations.ReadLineCountByteDecodesTheByte : Prop :=
  (∀ (c : Chan) (b : Byte), decodeLcb c b =
    if b = 0x00 then .lcEnd c else if b = 0x80 then .lcRep128 c
    else if b.toNat < 0x80 then .lcSingle c (b.setWidth 7) else .lcRepeat c (b.setWidth 7)) ∧
  ∀ (c : Chan) (b : Byte) (s : State), s.env.peek ((s.row c).a1b ++ (s.row c).a2a) = some b →
    (s.readLineCountByte c).1 = !(b == 0) ∧
    ((s.readLineCountByte c).2.row c).rep = b.getLsbD 7 ∧
    ((s.readLineCountByte c).2.row c).lineCount.toNat = (if b.toNat % 128 = 0 then 128 else b.toNat % 128) ∧
    .next (s.readLineCountByte c).2 =
      exec (decodeLcb c b) (({ s with env := { s.env with
        trace := ⟨.readByte ((s.row c).a1b ++ (s.row c).a2a) b, s.context⟩ :: s.env.trace } } : State).addCycles 8)

/-- R119: with this packing the byte read back from `NTRL` right after a line-count load equals the byte loaded, for
every byte value. The load is the LC row run alone (log 6), and the byte read is an observation (log 29). -/
def Obligations.NtrlReadsTheByteLoaded : Prop :=
  ∀ (c : Chan) (b : Byte) (s : State), s.inEither = false →
    ∃ t, exec (decodeLcb c b) s = .next t ∧
      exec (.rdNtrl c) t = .next { t with env := { t.env with trace := ⟨.readBack b, t.context⟩ :: t.env.trace } }

/-- R221, R222, R227, R237, R240, R261: frame start. Every enabled channel restarts at `A1T` and reads its first
line-count byte, a 0 among them ends it for the frame; `DAS` of an indirect one becomes the two table bytes after a byte
that is not 0, and stays after a 0. Every other channel's `DoTransfer` is cleared and nothing else of it changes. The
accesses are those reads and no others, channel by channel in ascending order. The cycle units are `HDMA_SYNC_COST` where a
channel is enabled, 8 for each line-count byte and 16 for each indirect address. The masks, the saved channel and the flags
are as the pseudocode leaves them, no byte of memory changes, and with nothing enabled nothing is accessed or accounted. -/
def Obligations.FrameStart : Prop :=
  ∀ s : State, s.inHDMA = false → ∃ (t : State) (new : List Entry) (b lo hi : Chan → Byte),
    exec .evHdmaInit s = .next t ∧
    t.inHDMA = false ∧ t.inEither = s.inDMA ∧ t.currentChannel = s.currentChannel ∧
    t.hdmaRanInDMA = (if s.inDMA then t.hdmaActive else 0) ∧
    (∀ x, t.env.peek x = s.env.peek x) ∧
    (s.hdmaen = 0 → t.env = s.env) ∧
    t.env.trace = new ++ s.env.trace ∧
    accesses new = allChans.flatMap (fun c =>
      if hasBit s.hdmaen c then (s.row c).tableAccesses (s.row c).a1t (b c) (lo c) (hi c) else []) ∧
    t.env.cycles = s.env.cycles + (if s.hdmaen = 0 then 0 else Config.hdmaSyncCost) + (allChans.map fun c =>
      if hasBit s.hdmaen c then 8 + (if (s.row c).ind && !(b c == 0) then 16 else 0) else 0).sum ∧
    ∀ c,
      (hasBit s.hdmaen c = false →
        t.row c = { s.row c with doTransfer := false } ∧
        hasBit t.hdmaActive c = false ∧ hasBit t.hdmaEnded c = false) ∧
      (hasBit s.hdmaen c = true →
        (∀ w, s.env.peek ((s.row c).a1b ++ (s.row c).a1t) = some w → b c = w) ∧
        (∀ w, s.env.peek ((s.row c).a1b ++ ((s.row c).a1t + 1)) = some w → lo c = w) ∧
        (∀ w, s.env.peek ((s.row c).a1b ++ ((s.row c).a1t + 2)) = some w → hi c = w) ∧
        (s.row c).loads (s.row c).a1t (b c) (lo c) (hi c) (t.row c) ∧
        hasBit t.hdmaActive c = !(b c == 0) ∧ hasBit t.hdmaEnded c = (b c == 0))

/-- R263: a scanline event runs `HDMA_ACTIVE <- AdvanceHDMALines(HDMA_ACTIVE)`; with `HDMA_ACTIVE = 0` nothing happens
and no cycles are accounted. -/
def Obligations.LineEventRunsTheActiveChannels : Prop :=
  decodeEvent 0b001 = [.evHdmaLine] ∧
  ∀ s : State, s.inHDMA = false →
    (s.hdmaActive = 0 → exec .evHdmaLine s = .next s) ∧
    (s.hdmaActive ≠ 0 → exec .evHdmaLine s =
      .next { (s.advanceHDMALines s.hdmaActive).2 with hdmaActive := (s.advanceHDMALines s.hdmaActive).1 })

/-- R222, R223, R227 to R229, R232 to R234, R236, R238, R261: the scanline step of every channel. An active channel whose
count does not run out moves its source pointer by its group length exactly where `DoTransfer` was set, counts the line and
takes `DoTransfer <- Repeat`; one whose count runs out then reads a new line-count byte, which leaves `DAS` of an indirect
channel at the two table bytes after it, or, where it is 0, past the group, and moves the bit of the channel from
`HDMA_ACTIVE` to `HDMA_ENDED`; a channel that is not active keeps its whole row. The accesses are those of the active
channels and no others, in ascending channel order, each channel's whole before the next one's: the OAM fix, the group, the
line-count byte, the address. A byte read, in a forward group or in the table, is the one memory held before the line,
unless a reverse group of this line stores at its address first; and memory changes only where reverse groups store. That
nothing the groups do on the B-bus changes memory is the model's choice (log 12), and so is that no address mirrors another
(log 33). -/
def Obligations.ScanlineStepOfEveryChannel : Prop :=
  ∀ s : State, s.inHDMA = false → s.hdmaActive ≠ 0 →
    ∃ (t : State) (new : List Entry) (v : Chan → Nat → Byte) (b lo hi : Chan → Byte),
    exec .evHdmaLine s = .next t ∧
    t.inHDMA = false ∧ t.inEither = s.inDMA ∧ t.currentChannel = s.currentChannel ∧
    t.hdmaRanInDMA = (if s.inDMA then s.hdmaActive else 0) ∧
    t.env.trace = new ++ s.env.trace ∧
    accesses new = allChans.flatMap (fun c =>
      if hasBit s.hdmaActive c then (s.row c).lineAccesses (v c) (b c) (lo c) (hi c) else []) ∧
    (∀ x, (∀ d, hasBit s.hdmaActive d = true → ¬(s.row d).storesTo x) → t.env.peek x = s.env.peek x) ∧
    ∀ c,
      let r := s.row c
      let a := r.lineTable
      (hasBit s.hdmaActive c = false →
        t.row c = r ∧ hasBit t.hdmaActive c = false ∧ hasBit t.hdmaEnded c = hasBit s.hdmaEnded c) ∧
      (hasBit s.hdmaActive c = true → r.dir = false → r.doTransfer = true →
        ∀ i < len r.mode, ∀ w, s.lineKnows c (r.groupAddr i) w → v c i = w) ∧
      (hasBit s.hdmaActive c = true → r.lineCount ≠ 1 →
        hasBit t.hdmaActive c = true ∧ hasBit t.hdmaEnded c = hasBit s.hdmaEnded c ∧
        ∃ p, t.row c = { r with
          das := r.lineDas, a2a := a, doTransfer := r.rep, lineCount := r.lineCount - 1, ptr := p }) ∧
      (hasBit s.hdmaActive c = true → r.lineCount = 1 →
        (∀ w, s.lineKnows c (r.a1b ++ a) w → b c = w) ∧
        (∀ w, s.lineKnows c (r.a1b ++ (a + 1)) w → lo c = w) ∧
        (∀ w, s.lineKnows c (r.a1b ++ (a + 2)) w → hi c = w) ∧
        Channel.loads a (b c) (lo c) (hi c) { r with das := r.lineDas } (t.row c) ∧
        hasBit t.hdmaActive c = !(b c == 0) ∧ hasBit t.hdmaEnded c = (hasBit s.hdmaEnded c || b c == 0))

/-- R240: the cycle units of one scanline step: `HDMA_SYNC_COST`, and for each active channel its group, and 8 without a
reload or 8 for the line-count byte and 16 more for an indirect address with one. -/
def Obligations.ScanlineStepCycleUnits : Prop :=
  ∀ s : State, s.inHDMA = false → s.hdmaActive ≠ 0 → ∃ t, exec .evHdmaLine s = .next t ∧
    t.env.cycles = s.env.cycles + Config.hdmaSyncCost + (allChans.map fun c =>
      if hasBit s.hdmaActive c then
        (if (s.row c).doTransfer then 8 * len (s.row c).mode else 0) +
        (if (s.row c).lineCount = 1 then 8 + (if (s.row c).ind && hasBit t.hdmaActive c then 16 else 0) else 8)
      else 0).sum

/-- R228, R57: a direct call of `AdvanceHDMALines(mask)` answers a subset of `mask`, leaves `HDMA_ACTIVE` to its caller,
and sets the ended bit of exactly the channels it dropped. -/
def Obligations.DirectAdvanceAnswersASubset : Prop :=
  ∀ (s : State) (mask : Mask) (rest : List Move), s.portReady → s.inHDMA = false →
    s.env.inbox = .callAdvanceHDMALines mask :: rest →
    ∃ t remaining new, step s = .next t ∧
      t.env.trace = new ++ s.env.trace ∧ (new.head?.map fun x => x.what) = some (.remainingMask remaining) ∧
      t.hdmaActive = s.hdmaActive ∧
      ∀ c, (hasBit remaining c = true → hasBit mask c = true) ∧
        hasBit t.hdmaEnded c = (hasBit s.hdmaEnded c || (hasBit mask c && !hasBit remaining c)) ∧
        (hasBit mask c = false → t.row c = s.row c)

/-- R239, R267: neither HDMA entry point changes a DMA global (`MDMAEN`, `PatternStep`, `SDD1_FLAG`), `HDMAEN`, the
configuration or `A1T` of any channel, or the `DAS` of a direct one. -/
def Obligations.HdmaLeavesConfigurationAndDmaState : Prop :=
  ∀ s : State, s.inHDMA = false → ∀ i ∈ [Instr.evHdmaInit, Instr.evHdmaLine], ∃ t, exec i s = .next t ∧
    t.inDMA = s.inDMA ∧ t.mdmaen = s.mdmaen ∧ t.hdmaen = s.hdmaen ∧ t.patternStep = s.patternStep ∧
    t.sdd1Flag = s.sdd1Flag ∧ t.seq = s.seq ∧
    ∀ c, (s.row c).sameConfig (t.row c) ∧ (t.row c).a1t = (s.row c).a1t ∧
      ((s.row c).ind = false → (t.row c).das = (s.row c).das)

/-- R236: the OAM fix comes before the first byte of a group of a channel with `BBAD = 0x04`, once per group, in both
directions, and on no scanline without a transfer. Said for a scanline on which one channel is active. -/
def Obligations.OamFixOncePerGroup : Prop :=
  ∀ (c : Chan) (s : State), s.inHDMA = false → (∀ d, hasBit s.hdmaActive d = (d == c)) →
    ∃ t new rest, exec .evHdmaLine s = .next t ∧ t.env.trace = new ++ s.env.trace ∧
      accesses new = (if (s.row c).doTransfer && (s.row c).bbad == 0x04 then [.oamFix] else []) ++ rest ∧
      Observed.oamFix ∉ rest

/-- R237: an HDMA entry point that runs inside a DMA records the channels it handles and the sink then stops a DMA on
one of them; outside a DMA the mask is written 0. Said for a sink with one event. -/
def Obligations.HdmaInsideADmaStopsItsOwnChannel : Prop :=
  (∀ (c : Chan) (s : State) (rest : List (List Due)), s.inDMA = true →
    (s.env.script = [⟨false, true, none⟩] :: rest → s.hdmaActive ≠ 0 →
      (s.cycleSink c).1 = !hasBit s.hdmaActive c ∧ (s.cycleSink c).2.hdmaRanInDMA = 0) ∧
    (s.env.script = [⟨true, false, none⟩] :: rest →
      (s.cycleSink c).1 = !hasBit (s.cycleSink c).2.hdmaActive c ∧ (s.cycleSink c).2.hdmaRanInDMA = 0)) ∧
  ∀ s : State, s.inHDMA = false → s.inDMA = false →
    (∃ t, exec .evHdmaInit s = .next t ∧ t.hdmaRanInDMA = 0) ∧
    (s.hdmaActive ≠ 0 → ∃ t, exec .evHdmaLine s = .next t ∧ t.hdmaRanInDMA = 0)

/-! ## Memory -/

/-- R70, R80: a byte stored in RAM is the byte the next read of the same address answers, and no other address reads
otherwise; a read changes no byte. ROM and unmapped addresses keep what they hold (log 9, log 11). That no address mirrors
another is the model's choice (log 33). -/
def Obligations.MemoryReadsTheByteStored : Prop :=
  ∀ (s : State) (a : AAddr) (v : Byte),
    (s.env.kindAt a.toNat = some .ram → ((s.aWrite a v).aRead a).1 = v) ∧
    (s.env.kindAt a.toNat ≠ some .ram → ∀ b, (s.aWrite a v).env.peek b = s.env.peek b) ∧
    (∀ b, b ≠ a → (s.aWrite a v).env.peek b = s.env.peek b) ∧
    ∀ b, (s.aRead a).2.env.peek b = s.env.peek b

/-- R82, R83: the resolvers answer a pointer only where every byte it will be used for lies in a RAM or ROM region, and
the pointer to one byte exactly there. -/
def Obligations.ResolversAnswerInsideRegionsOnly : Prop :=
  ∀ (s : State) (a : AAddr),
    ((s.resolveDirect a).1 = if (s.env.kindAt a.toNat).isSome then some a else none) ∧
    ∀ (bank : Byte) (p : AAddr) (x : Half), (s.resolveBase bank).seq.basePtr = some p →
      p = bank ++ 0#16 ∧ (s.env.kindAt (bank ++ x).toNat).isSome = true

/-! ## The machine as a whole -/

/-- A step runs the decoded instruction: with the port served, the next host move is taken, and a register transaction,
an event or a call runs what its word decodes to. -/
def Obligations.StepRunsTheDecodedInstruction : Prop :=
  ∀ (s : State) (rest : List Move), s.portReady →
    (∀ addr data i, s.env.inbox = .regWrite addr data :: rest → decodeRegW addr data = .ok i →
      step s = exec i { s with env := { s.env with inbox := rest } }) ∧
    (∀ addr i, s.env.inbox = .regRead addr :: rest → decodeRegR addr = .ok i →
      step s = exec i { s with env := { s.env with inbox := rest } }) ∧
    (∀ ev, s.env.inbox = .event ev :: rest →
      step s = execSeq (decodeEvent ev) { s with env := { s.env with inbox := rest } }) ∧
    (∀ c, s.env.inbox = .callExecuteDMA c :: rest →
      step s = exec (dmaExecOf c) { s with env := { s.env with inbox := rest } })

/-- R260, R261: between transfers a pending request is served before the port, lowest channel number first. -/
def Obligations.ArbiterStartsTheLowestRequestedChannel : Prop :=
  ∀ (s : State) (c : Chan), s.seq.busy = none → hasBit s.mdmaen c = true →
    (∀ d : Chan, d.toNat < c.toNat → hasBit s.mdmaen d = false) → step s = exec (dmaExecOf c) s

/-- R269: while a transfer is in flight or requested the CPU is stalled: no step takes a host move. -/
def Obligations.CpuIsStalledWhileTransferring : Prop :=
  ∀ s t : State, s.seq.busy.isSome = true ∨ s.mdmaen ≠ 0 → step s = .next t → t.env.inbox = s.env.inbox

/-- R11, R266: no step takes an observation back, and `Cycles` moves by exactly the `AddCycles` amounts of the
observations it adds. -/
def Obligations.StepsOnlyAddObservations : Prop :=
  ∀ s t : State, step s = .next t →
    ∃ new, t.env.trace = new ++ s.env.trace ∧ t.env.cycles = s.env.cycles + cyclesOf new

/-- R71: "the facade sees register addresses 0x2100 to 0x21FF only", at every step of every state. -/
def Obligations.RegisterAccessesStayOnTheBBus : Prop :=
  ∀ s t : State, step s = .next t → ∃ new, t.env.trace = new ++ s.env.trace ∧ ∀ x ∈ new, x.what.inWindow = true

/-- R20, R70: no operation of the block changes a bank, nor any other configuration field: only a register write or a
reset does. -/
def Obligations.OnlyTheHostChangesConfiguration : Prop :=
  ∀ s t : State, step s = .next t → ¬s.servesConfiguration → ∀ c, (s.row c).sameConfig (t.row c)

/-- R39, R57, R192, R235: the invariants hold after reset. -/
def Obligations.ResetMeetsTheInvariant : Prop :=
  State.reset.Inv ∧ State.reset.masksAgree ∧ State.reset.pointersAgree

/-- R39, R57: every step keeps the invariant: the transfer flags agree with the `ExecuteDMA` in flight, every line count
is 1 to 128, memory keeps its canonical form, the collision mask is clear between steps. R235: every step keeps, on its
own, that a cached pointer designates the byte at its channel's current source address (log 22). -/
def Obligations.StepKeepsTheInvariant : Prop :=
  (∀ s t : State, s.Inv → step s = .next t → t.Inv) ∧
  ∀ s t : State, s.pointersAgree → step s = .next t → t.pointersAgree

/-- R57: every step keeps "no channel is both active and ended" where nothing calls `AdvanceHDMALines` directly. -/
def Obligations.StepKeepsTheMasksDisjoint : Prop :=
  ∀ s t : State, s.schedulerOnly → s.masksAgree → step s = .next t → t.masksAgree ∧ t.schedulerOnly

/-- R8, R292: from every state of the invariant a step answers a next state: no fault, no stuck state, and the refusals
of R293 never arise. -/
def Obligations.InvariantStatesNeverStop : Prop := ∀ s : State, s.Inv → ∃ t, step s = .next t

/-! ## Encoding -/

/-- R100 to R103, R115, R118: decoding the word of a well-formed instruction gives that instruction: alone, or, for a
field of the control byte, as one of the byte's four. -/
def Obligations.DecodeOfEncodeIsTheInstruction : Prop :=
  ∀ i : Instr, i.wellFormed = true → ∃ l, decode (encode i) = .ok l ∧ i ∈ l ∧
    ((∀ c b, encode i ≠ .dmap c b) → l = [i])

/-- Words written out from the spec's encodings (R100 to R103, R115) decode to the instructions they stand for. -/
def Obligations.WrittenOutWordsDecode : Prop :=
  decodeRegW 0b0100001100010001#16 0x18 = .ok (.wrBbad 1 0x18) ∧
  decodeRegR 0b0100001101111010#16 = .ok (.rdNtrl 7) ∧
  decodeRegW 0b0100001000001011#16 0x05 = .ok (.wrMdmaen 0x05) ∧
  decodeRegW 0b0100001101111111#16 0x55 = .ok (.wrUnimplCF 7 3 0x55) ∧
  decodeDmap 2 0b11110100#8 = ⟨.xferM4 2, .dirB2A 2, .stepDec 2, .haddrIndirect 2⟩ ∧
  decodeDmap 2 0b00011001#8 = ⟨.xferM1 2, .dirA2B 2, .stepFix 2, .haddrDirect 2⟩ ∧
  decodeLcb 3 0b01000101#8 = .lcSingle 3 0x45 ∧ decodeLcb 3 0b11000101#8 = .lcRepeat 3 0x45 ∧
  decodeMdma 0b00000101#8 = [.dmaExec0, .dmaExec2] ∧ decodeHdma 0b10000000#8 = [.hdmaEn7] ∧
  decodeEvent 0b011#3 = [.evHdmaInit, .evHdmaLine]
end

