-- ==== Sys2Proof/Laws/Memory.lean ====
section
/-! SUPPORT. A-bus memory: read after write, the other addresses, the canonical form (20_memory.md R70, R80). -/

namespace Sys2Proof.Machine

@[simp] theorem memGet_memSet_self (m : List Host.Cell) (a : Nat) (v : Byte) : memGet (memSet m a v) a = some v := by
  induction m with
  | nil => simp [memSet, memGet]
  | cons p m ih =>
    obtain ⟨k, w⟩ := p
    simp only [memSet]
    split
    · simp [memGet]
    · split
      · simp [memGet]
      · have : k ≠ a := by omega
        simp [memGet, this, ih]

theorem memGet_memSet_ne (m : List Host.Cell) {a b : Nat} (v : Byte) (h : b ≠ a) :
    memGet (memSet m a v) b = memGet m b := by
  induction m with
  | nil => simp [memSet, memGet, Ne.symm h]
  | cons p m ih =>
    obtain ⟨k, w⟩ := p
    simp only [memSet]
    split
    · simp [memGet, Ne.symm h]
    · split
      · subst a; simp [memGet, Ne.symm h]
      · simp only [memGet, ih]

/-- The canonical form, one cell at a time: the first address is below the whole rest. -/
theorem Memory.wf_cons (k : Nat) (w : Byte) (m : List Host.Cell) :
    Memory.wf ((k, w) :: m) = true ↔ k < 0x1000000 ∧ (∀ p ∈ m.head?, k < p.1) ∧ Memory.wf m = true := by
  cases m with
  | nil => simp [Memory.wf]
  | cons p m =>
    obtain ⟨k', w'⟩ := p
    simp only [Memory.wf, List.head?_cons, Option.mem_def, Option.some.injEq, forall_eq', Bool.and_eq_true,
      decide_eq_true_eq]
    constructor
    · rintro ⟨h, hw⟩
      refine ⟨?_, h, hw⟩
      cases m with
      | nil => simp [Memory.wf] at hw; omega
      | cons q m => 
        have : ∀ (l : List Host.Cell) (k : Nat) (w : Byte), Memory.wf ((k, w) :: l) = true → k < 0x1000000 := by
          intro l
          induction l with
          | nil => intro k w h; simpa [Memory.wf] using h
          | cons r l ih =>
            intro k w h
            simp only [Memory.wf, Bool.and_eq_true, decide_eq_true_eq] at h
            have := ih _ _ h.2
            omega
        have := this _ _ _ hw
        omega
    · rintro ⟨-, h, hw⟩
      exact ⟨h, hw⟩

theorem memSet_head (m : List Host.Cell) (a : Nat) (v : Byte) :
    ∀ p ∈ (memSet m a v).head?, p.1 = a ∨ ∃ q ∈ m.head?, p.1 = q.1 := by
  cases m with
  | nil => simp [memSet]
  | cons q m =>
    obtain ⟨k, w⟩ := q
    simp only [memSet]
    split
    · simp
    · split <;> simp

/-- A store of a 24-bit address keeps the canonical form. -/
theorem memSet_wf {m : List Host.Cell} {a : Nat} (v : Byte) (ha : a < 0x1000000) (h : Memory.wf m = true) :
    Memory.wf (memSet m a v) = true := by
  induction m with
  | nil => simpa [memSet, Memory.wf] using ha
  | cons p m ih =>
    obtain ⟨k, w⟩ := p
    obtain ⟨hk, hh, hm⟩ := (Memory.wf_cons k w m).1 h
    simp only [memSet]
    split
    · next hlt => exact (Memory.wf_cons a v _).2 ⟨ha, by simpa using hlt, h⟩
    · split
      · next heq => subst heq; exact (Memory.wf_cons a v m).2 ⟨ha, hh, hm⟩
      · next h1 h2 =>
        refine (Memory.wf_cons k w _).2 ⟨hk, ?_, ih hm⟩
        intro p hp
        rcases memSet_head m a v p hp with e | ⟨q, hq, e⟩
        · omega
        · have := hh q hq; omega

@[simp] theorem Env.store_aMap (e : Env) (a : AAddr) (v : Byte) : (e.store a v).aMap = e.aMap := by
  unfold Env.store; split <;> rfl

@[simp] theorem Env.store_kindAt (e : Env) (a : AAddr) (v : Byte) (b : Nat) : (e.store a v).kindAt b = e.kindAt b := by
  simp [Env.kindAt]

/-- What a store at the facade can do: RAM lists the byte, anything else changes nothing. -/
theorem Env.store_eq (e : Env) (a : AAddr) (v : Byte) :
    e.store a v = { e with aMem := if e.kindAt a.toNat = some .ram then memSet e.aMem a.toNat v else e.aMem } := by
  unfold Env.store
  split <;> simp_all

theorem Env.store_wf (e : Env) (a : AAddr) (v : Byte) (h : Memory.wf e.aMem = true) : Memory.wf (e.store a v).aMem = true := by
  rw [Env.store_eq]
  simp only
  split
  · exact memSet_wf v a.isLt h
  · exact h

/-- RAM answers the byte stored last. -/
theorem Env.peek_store_self (e : Env) (a : AAddr) (v : Byte) (h : e.kindAt a.toNat = some .ram) :
    (e.store a v).peek a = some v := by
  simp only [Env.peek, Env.store_kindAt, h]
  rw [Env.store_eq]
  simp [h]

/-- Every other address answers as before. -/
theorem Env.peek_store_ne (e : Env) {a b : AAddr} (v : Byte) (h : b ≠ a) : (e.store a v).peek b = e.peek b := by
  have hn : b.toNat ≠ a.toNat := fun h' => h (BitVec.eq_of_toNat_eq h')
  simp only [Env.peek, Env.store_kindAt]
  rw [Env.store_eq]
  split
  · simp only
    split
    · exact memGet_memSet_ne _ _ hn
    · rfl
  · rfl

end Sys2Proof.Machine
end

