-- ==== Sys2Proof/Laws/State.lean ====
section
/-! SUPPORT. Each field of the state after each update of it, and the register file's read-after-write laws, so that no
later proof unfolds a record update. -/

namespace Sys2Proof.Machine

section setRow
variable (s : State) (c : Chan) (r : Channel)

@[simp] theorem State.setRow_ch : (s.setRow c r).ch = s.ch.set c.toNat r c.isLt := rfl
@[simp] theorem State.setRow_inDMA : (s.setRow c r).inDMA = s.inDMA := rfl
@[simp] theorem State.setRow_inHDMA : (s.setRow c r).inHDMA = s.inHDMA := rfl
@[simp] theorem State.setRow_inEither : (s.setRow c r).inEither = s.inEither := rfl
@[simp] theorem State.setRow_currentChannel : (s.setRow c r).currentChannel = s.currentChannel := rfl
@[simp] theorem State.setRow_hdmaRanInDMA : (s.setRow c r).hdmaRanInDMA = s.hdmaRanInDMA := rfl
@[simp] theorem State.setRow_hdmaen : (s.setRow c r).hdmaen = s.hdmaen := rfl
@[simp] theorem State.setRow_hdmaActive : (s.setRow c r).hdmaActive = s.hdmaActive := rfl
@[simp] theorem State.setRow_hdmaEnded : (s.setRow c r).hdmaEnded = s.hdmaEnded := rfl
@[simp] theorem State.setRow_mdmaen : (s.setRow c r).mdmaen = s.mdmaen := rfl
@[simp] theorem State.setRow_patternStep : (s.setRow c r).patternStep = s.patternStep := rfl
@[simp] theorem State.setRow_sdd1Flag : (s.setRow c r).sdd1Flag = s.sdd1Flag := rfl
@[simp] theorem State.setRow_seq : (s.setRow c r).seq = s.seq := rfl
@[simp] theorem State.setRow_env : (s.setRow c r).env = s.env := rfl

end setRow

section updRow
variable (s : State) (c : Chan) (f : Channel → Channel)

@[simp] theorem State.updRow_ch : (s.updRow c f).ch = s.ch.set c.toNat (f (s.row c)) c.isLt := rfl
@[simp] theorem State.updRow_inDMA : (s.updRow c f).inDMA = s.inDMA := rfl
@[simp] theorem State.updRow_inHDMA : (s.updRow c f).inHDMA = s.inHDMA := rfl
@[simp] theorem State.updRow_inEither : (s.updRow c f).inEither = s.inEither := rfl
@[simp] theorem State.updRow_currentChannel : (s.updRow c f).currentChannel = s.currentChannel := rfl
@[simp] theorem State.updRow_hdmaRanInDMA : (s.updRow c f).hdmaRanInDMA = s.hdmaRanInDMA := rfl
@[simp] theorem State.updRow_hdmaen : (s.updRow c f).hdmaen = s.hdmaen := rfl
@[simp] theorem State.updRow_hdmaActive : (s.updRow c f).hdmaActive = s.hdmaActive := rfl
@[simp] theorem State.updRow_hdmaEnded : (s.updRow c f).hdmaEnded = s.hdmaEnded := rfl
@[simp] theorem State.updRow_mdmaen : (s.updRow c f).mdmaen = s.mdmaen := rfl
@[simp] theorem State.updRow_patternStep : (s.updRow c f).patternStep = s.patternStep := rfl
@[simp] theorem State.updRow_sdd1Flag : (s.updRow c f).sdd1Flag = s.sdd1Flag := rfl
@[simp] theorem State.updRow_seq : (s.updRow c f).seq = s.seq := rfl
@[simp] theorem State.updRow_env : (s.updRow c f).env = s.env := rfl

end updRow

section observe
variable (s : State) (w : Observed)

@[simp] theorem State.observe_ch : (s.observe w).ch = s.ch := rfl
@[simp] theorem State.observe_inDMA : (s.observe w).inDMA = s.inDMA := rfl
@[simp] theorem State.observe_inHDMA : (s.observe w).inHDMA = s.inHDMA := rfl
@[simp] theorem State.observe_inEither : (s.observe w).inEither = s.inEither := rfl
@[simp] theorem State.observe_currentChannel : (s.observe w).currentChannel = s.currentChannel := rfl
@[simp] theorem State.observe_hdmaRanInDMA : (s.observe w).hdmaRanInDMA = s.hdmaRanInDMA := rfl
@[simp] theorem State.observe_hdmaen : (s.observe w).hdmaen = s.hdmaen := rfl
@[simp] theorem State.observe_hdmaActive : (s.observe w).hdmaActive = s.hdmaActive := rfl
@[simp] theorem State.observe_hdmaEnded : (s.observe w).hdmaEnded = s.hdmaEnded := rfl
@[simp] theorem State.observe_mdmaen : (s.observe w).mdmaen = s.mdmaen := rfl
@[simp] theorem State.observe_patternStep : (s.observe w).patternStep = s.patternStep := rfl
@[simp] theorem State.observe_sdd1Flag : (s.observe w).sdd1Flag = s.sdd1Flag := rfl
@[simp] theorem State.observe_seq : (s.observe w).seq = s.seq := rfl
@[simp] theorem State.observe_env : (s.observe w).env = { s.env with trace := ⟨w, s.context⟩ :: s.env.trace } := rfl
@[simp] theorem State.observe_row (d : Chan) : (s.observe w).row d = s.row d := rfl

end observe

section addCycles
variable (s : State) (n : Nat)

@[simp] theorem State.addCycles_ch : (s.addCycles n).ch = s.ch := rfl
@[simp] theorem State.addCycles_inDMA : (s.addCycles n).inDMA = s.inDMA := rfl
@[simp] theorem State.addCycles_inHDMA : (s.addCycles n).inHDMA = s.inHDMA := rfl
@[simp] theorem State.addCycles_inEither : (s.addCycles n).inEither = s.inEither := rfl
@[simp] theorem State.addCycles_currentChannel : (s.addCycles n).currentChannel = s.currentChannel := rfl
@[simp] theorem State.addCycles_hdmaRanInDMA : (s.addCycles n).hdmaRanInDMA = s.hdmaRanInDMA := rfl
@[simp] theorem State.addCycles_hdmaen : (s.addCycles n).hdmaen = s.hdmaen := rfl
@[simp] theorem State.addCycles_hdmaActive : (s.addCycles n).hdmaActive = s.hdmaActive := rfl
@[simp] theorem State.addCycles_hdmaEnded : (s.addCycles n).hdmaEnded = s.hdmaEnded := rfl
@[simp] theorem State.addCycles_mdmaen : (s.addCycles n).mdmaen = s.mdmaen := rfl
@[simp] theorem State.addCycles_patternStep : (s.addCycles n).patternStep = s.patternStep := rfl
@[simp] theorem State.addCycles_sdd1Flag : (s.addCycles n).sdd1Flag = s.sdd1Flag := rfl
@[simp] theorem State.addCycles_seq : (s.addCycles n).seq = s.seq := rfl
@[simp] theorem State.addCycles_env : (s.addCycles n).env = { s.env with cycles := s.env.cycles + n, trace := ⟨.addCycles n, s.context⟩ :: s.env.trace } := rfl
@[simp] theorem State.addCycles_row (d : Chan) : (s.addCycles n).row d = s.row d := rfl

end addCycles

section aWrite
variable (s : State) (a : AAddr) (v : Byte)

@[simp] theorem State.aWrite_ch : (s.aWrite a v).ch = s.ch := rfl
@[simp] theorem State.aWrite_inDMA : (s.aWrite a v).inDMA = s.inDMA := rfl
@[simp] theorem State.aWrite_inHDMA : (s.aWrite a v).inHDMA = s.inHDMA := rfl
@[simp] theorem State.aWrite_inEither : (s.aWrite a v).inEither = s.inEither := rfl
@[simp] theorem State.aWrite_currentChannel : (s.aWrite a v).currentChannel = s.currentChannel := rfl
@[simp] theorem State.aWrite_hdmaRanInDMA : (s.aWrite a v).hdmaRanInDMA = s.hdmaRanInDMA := rfl
@[simp] theorem State.aWrite_hdmaen : (s.aWrite a v).hdmaen = s.hdmaen := rfl
@[simp] theorem State.aWrite_hdmaActive : (s.aWrite a v).hdmaActive = s.hdmaActive := rfl
@[simp] theorem State.aWrite_hdmaEnded : (s.aWrite a v).hdmaEnded = s.hdmaEnded := rfl
@[simp] theorem State.aWrite_mdmaen : (s.aWrite a v).mdmaen = s.mdmaen := rfl
@[simp] theorem State.aWrite_patternStep : (s.aWrite a v).patternStep = s.patternStep := rfl
@[simp] theorem State.aWrite_sdd1Flag : (s.aWrite a v).sdd1Flag = s.sdd1Flag := rfl
@[simp] theorem State.aWrite_seq : (s.aWrite a v).seq = s.seq := rfl
@[simp] theorem State.aWrite_env : (s.aWrite a v).env = { s.env.store a v with trace := ⟨.writeByte a v, s.context⟩ :: (s.env.store a v).trace } := rfl
@[simp] theorem State.aWrite_row (d : Chan) : (s.aWrite a v).row d = s.row d := rfl

end aWrite

section bWrite
variable (s : State) (off v : Byte)

@[simp] theorem State.bWrite_ch : (s.bWrite off v).ch = s.ch := rfl
@[simp] theorem State.bWrite_inDMA : (s.bWrite off v).inDMA = s.inDMA := rfl
@[simp] theorem State.bWrite_inHDMA : (s.bWrite off v).inHDMA = s.inHDMA := rfl
@[simp] theorem State.bWrite_inEither : (s.bWrite off v).inEither = s.inEither := rfl
@[simp] theorem State.bWrite_currentChannel : (s.bWrite off v).currentChannel = s.currentChannel := rfl
@[simp] theorem State.bWrite_hdmaRanInDMA : (s.bWrite off v).hdmaRanInDMA = s.hdmaRanInDMA := rfl
@[simp] theorem State.bWrite_hdmaen : (s.bWrite off v).hdmaen = s.hdmaen := rfl
@[simp] theorem State.bWrite_hdmaActive : (s.bWrite off v).hdmaActive = s.hdmaActive := rfl
@[simp] theorem State.bWrite_hdmaEnded : (s.bWrite off v).hdmaEnded = s.hdmaEnded := rfl
@[simp] theorem State.bWrite_mdmaen : (s.bWrite off v).mdmaen = s.mdmaen := rfl
@[simp] theorem State.bWrite_patternStep : (s.bWrite off v).patternStep = s.patternStep := rfl
@[simp] theorem State.bWrite_sdd1Flag : (s.bWrite off v).sdd1Flag = s.sdd1Flag := rfl
@[simp] theorem State.bWrite_seq : (s.bWrite off v).seq = s.seq := rfl
@[simp] theorem State.bWrite_env : (s.bWrite off v).env = { s.env with trace := ⟨.writeRegister (bbusAddr off) v, s.context⟩ :: s.env.trace } := rfl
@[simp] theorem State.bWrite_row (d : Chan) : (s.bWrite off v).row d = s.row d := rfl

end bWrite

section oamFix
variable (s : State)

@[simp] theorem State.oamFix_ch : (s.oamFix).ch = s.ch := rfl
@[simp] theorem State.oamFix_inDMA : (s.oamFix).inDMA = s.inDMA := rfl
@[simp] theorem State.oamFix_inHDMA : (s.oamFix).inHDMA = s.inHDMA := rfl
@[simp] theorem State.oamFix_inEither : (s.oamFix).inEither = s.inEither := rfl
@[simp] theorem State.oamFix_currentChannel : (s.oamFix).currentChannel = s.currentChannel := rfl
@[simp] theorem State.oamFix_hdmaRanInDMA : (s.oamFix).hdmaRanInDMA = s.hdmaRanInDMA := rfl
@[simp] theorem State.oamFix_hdmaen : (s.oamFix).hdmaen = s.hdmaen := rfl
@[simp] theorem State.oamFix_hdmaActive : (s.oamFix).hdmaActive = s.hdmaActive := rfl
@[simp] theorem State.oamFix_hdmaEnded : (s.oamFix).hdmaEnded = s.hdmaEnded := rfl
@[simp] theorem State.oamFix_mdmaen : (s.oamFix).mdmaen = s.mdmaen := rfl
@[simp] theorem State.oamFix_patternStep : (s.oamFix).patternStep = s.patternStep := rfl
@[simp] theorem State.oamFix_sdd1Flag : (s.oamFix).sdd1Flag = s.sdd1Flag := rfl
@[simp] theorem State.oamFix_seq : (s.oamFix).seq = s.seq := rfl
@[simp] theorem State.oamFix_env : (s.oamFix).env = { s.env with trace := ⟨.oamFix, s.context⟩ :: s.env.trace } := rfl
@[simp] theorem State.oamFix_row (d : Chan) : (s.oamFix).row d = s.row d := rfl

end oamFix

section readBack
variable (s : State) (v : Byte)

@[simp] theorem State.readBack_ch : (s.readBack v).ch = s.ch := rfl
@[simp] theorem State.readBack_inDMA : (s.readBack v).inDMA = s.inDMA := rfl
@[simp] theorem State.readBack_inHDMA : (s.readBack v).inHDMA = s.inHDMA := rfl
@[simp] theorem State.readBack_inEither : (s.readBack v).inEither = s.inEither := rfl
@[simp] theorem State.readBack_currentChannel : (s.readBack v).currentChannel = s.currentChannel := rfl
@[simp] theorem State.readBack_hdmaRanInDMA : (s.readBack v).hdmaRanInDMA = s.hdmaRanInDMA := rfl
@[simp] theorem State.readBack_hdmaen : (s.readBack v).hdmaen = s.hdmaen := rfl
@[simp] theorem State.readBack_hdmaActive : (s.readBack v).hdmaActive = s.hdmaActive := rfl
@[simp] theorem State.readBack_hdmaEnded : (s.readBack v).hdmaEnded = s.hdmaEnded := rfl
@[simp] theorem State.readBack_mdmaen : (s.readBack v).mdmaen = s.mdmaen := rfl
@[simp] theorem State.readBack_patternStep : (s.readBack v).patternStep = s.patternStep := rfl
@[simp] theorem State.readBack_sdd1Flag : (s.readBack v).sdd1Flag = s.sdd1Flag := rfl
@[simp] theorem State.readBack_seq : (s.readBack v).seq = s.seq := rfl
@[simp] theorem State.readBack_env : (s.readBack v).env = { s.env with trace := ⟨.readBack v, s.context⟩ :: s.env.trace } := rfl
@[simp] theorem State.readBack_row (d : Chan) : (s.readBack v).row d = s.row d := rfl

end readBack

section enterDMA
variable (s : State) (c : Chan)

@[simp] theorem State.enterDMA_ch : (s.enterDMA c).ch = s.ch := rfl
@[simp] theorem State.enterDMA_inDMA : (s.enterDMA c).inDMA = true := rfl
@[simp] theorem State.enterDMA_inHDMA : (s.enterDMA c).inHDMA = s.inHDMA := rfl
@[simp] theorem State.enterDMA_inEither : (s.enterDMA c).inEither = true := rfl
@[simp] theorem State.enterDMA_currentChannel : (s.enterDMA c).currentChannel = some c := rfl
@[simp] theorem State.enterDMA_hdmaRanInDMA : (s.enterDMA c).hdmaRanInDMA = s.hdmaRanInDMA := rfl
@[simp] theorem State.enterDMA_hdmaen : (s.enterDMA c).hdmaen = s.hdmaen := rfl
@[simp] theorem State.enterDMA_hdmaActive : (s.enterDMA c).hdmaActive = s.hdmaActive := rfl
@[simp] theorem State.enterDMA_hdmaEnded : (s.enterDMA c).hdmaEnded = s.hdmaEnded := rfl
@[simp] theorem State.enterDMA_mdmaen : (s.enterDMA c).mdmaen = s.mdmaen := rfl
@[simp] theorem State.enterDMA_patternStep : (s.enterDMA c).patternStep = s.patternStep := rfl
@[simp] theorem State.enterDMA_sdd1Flag : (s.enterDMA c).sdd1Flag = s.sdd1Flag := rfl
@[simp] theorem State.enterDMA_seq : (s.enterDMA c).seq = s.seq := rfl
@[simp] theorem State.enterDMA_env : (s.enterDMA c).env = s.env := rfl
@[simp] theorem State.enterDMA_row (d : Chan) : (s.enterDMA c).row d = s.row d := rfl

end enterDMA

section leaveDMA
variable (s : State)

@[simp] theorem State.leaveDMA_ch : (s.leaveDMA).ch = s.ch := rfl
@[simp] theorem State.leaveDMA_inDMA : (s.leaveDMA).inDMA = false := rfl
@[simp] theorem State.leaveDMA_inHDMA : (s.leaveDMA).inHDMA = s.inHDMA := rfl
@[simp] theorem State.leaveDMA_inEither : (s.leaveDMA).inEither = false := rfl
@[simp] theorem State.leaveDMA_currentChannel : (s.leaveDMA).currentChannel = none := rfl
@[simp] theorem State.leaveDMA_hdmaRanInDMA : (s.leaveDMA).hdmaRanInDMA = s.hdmaRanInDMA := rfl
@[simp] theorem State.leaveDMA_hdmaen : (s.leaveDMA).hdmaen = s.hdmaen := rfl
@[simp] theorem State.leaveDMA_hdmaActive : (s.leaveDMA).hdmaActive = s.hdmaActive := rfl
@[simp] theorem State.leaveDMA_hdmaEnded : (s.leaveDMA).hdmaEnded = s.hdmaEnded := rfl
@[simp] theorem State.leaveDMA_mdmaen : (s.leaveDMA).mdmaen = s.mdmaen := rfl
@[simp] theorem State.leaveDMA_patternStep : (s.leaveDMA).patternStep = s.patternStep := rfl
@[simp] theorem State.leaveDMA_sdd1Flag : (s.leaveDMA).sdd1Flag = s.sdd1Flag := rfl
@[simp] theorem State.leaveDMA_seq : (s.leaveDMA).seq = s.seq := rfl
@[simp] theorem State.leaveDMA_env : (s.leaveDMA).env = s.env := rfl
@[simp] theorem State.leaveDMA_row (d : Chan) : (s.leaveDMA).row d = s.row d := rfl

end leaveDMA

section enterHDMA
variable (s : State)

@[simp] theorem State.enterHDMA_ch : (s.enterHDMA).ch = s.ch := rfl
@[simp] theorem State.enterHDMA_inDMA : (s.enterHDMA).inDMA = s.inDMA := rfl
@[simp] theorem State.enterHDMA_inHDMA : (s.enterHDMA).inHDMA = true := rfl
@[simp] theorem State.enterHDMA_inEither : (s.enterHDMA).inEither = true := rfl
@[simp] theorem State.enterHDMA_currentChannel : (s.enterHDMA).currentChannel = s.currentChannel := rfl
@[simp] theorem State.enterHDMA_hdmaRanInDMA : (s.enterHDMA).hdmaRanInDMA = s.hdmaRanInDMA := rfl
@[simp] theorem State.enterHDMA_hdmaen : (s.enterHDMA).hdmaen = s.hdmaen := rfl
@[simp] theorem State.enterHDMA_hdmaActive : (s.enterHDMA).hdmaActive = s.hdmaActive := rfl
@[simp] theorem State.enterHDMA_hdmaEnded : (s.enterHDMA).hdmaEnded = s.hdmaEnded := rfl
@[simp] theorem State.enterHDMA_mdmaen : (s.enterHDMA).mdmaen = s.mdmaen := rfl
@[simp] theorem State.enterHDMA_patternStep : (s.enterHDMA).patternStep = s.patternStep := rfl
@[simp] theorem State.enterHDMA_sdd1Flag : (s.enterHDMA).sdd1Flag = s.sdd1Flag := rfl
@[simp] theorem State.enterHDMA_seq : (s.enterHDMA).seq = s.seq := rfl
@[simp] theorem State.enterHDMA_env : (s.enterHDMA).env = s.env := rfl
@[simp] theorem State.enterHDMA_row (d : Chan) : (s.enterHDMA).row d = s.row d := rfl

end enterHDMA

section leaveHDMA
variable (s : State) (p : Option Chan)

@[simp] theorem State.leaveHDMA_ch : (s.leaveHDMA p).ch = s.ch := rfl
@[simp] theorem State.leaveHDMA_inDMA : (s.leaveHDMA p).inDMA = s.inDMA := rfl
@[simp] theorem State.leaveHDMA_inHDMA : (s.leaveHDMA p).inHDMA = false := rfl
@[simp] theorem State.leaveHDMA_inEither : (s.leaveHDMA p).inEither = s.inDMA := rfl
@[simp] theorem State.leaveHDMA_currentChannel : (s.leaveHDMA p).currentChannel = p := rfl
@[simp] theorem State.leaveHDMA_hdmaRanInDMA : (s.leaveHDMA p).hdmaRanInDMA = s.hdmaRanInDMA := rfl
@[simp] theorem State.leaveHDMA_hdmaen : (s.leaveHDMA p).hdmaen = s.hdmaen := rfl
@[simp] theorem State.leaveHDMA_hdmaActive : (s.leaveHDMA p).hdmaActive = s.hdmaActive := rfl
@[simp] theorem State.leaveHDMA_hdmaEnded : (s.leaveHDMA p).hdmaEnded = s.hdmaEnded := rfl
@[simp] theorem State.leaveHDMA_mdmaen : (s.leaveHDMA p).mdmaen = s.mdmaen := rfl
@[simp] theorem State.leaveHDMA_patternStep : (s.leaveHDMA p).patternStep = s.patternStep := rfl
@[simp] theorem State.leaveHDMA_sdd1Flag : (s.leaveHDMA p).sdd1Flag = s.sdd1Flag := rfl
@[simp] theorem State.leaveHDMA_seq : (s.leaveHDMA p).seq = s.seq := rfl
@[simp] theorem State.leaveHDMA_env : (s.leaveHDMA p).env = s.env := rfl
@[simp] theorem State.leaveHDMA_row (d : Chan) : (s.leaveHDMA p).row d = s.row d := rfl

end leaveHDMA

section recordRan
variable (s : State) (m : Mask)

@[simp] theorem State.recordRan_ch : (s.recordRan m).ch = s.ch := rfl
@[simp] theorem State.recordRan_inDMA : (s.recordRan m).inDMA = s.inDMA := rfl
@[simp] theorem State.recordRan_inHDMA : (s.recordRan m).inHDMA = s.inHDMA := rfl
@[simp] theorem State.recordRan_inEither : (s.recordRan m).inEither = s.inEither := rfl
@[simp] theorem State.recordRan_currentChannel : (s.recordRan m).currentChannel = s.currentChannel := rfl
@[simp] theorem State.recordRan_hdmaRanInDMA : (s.recordRan m).hdmaRanInDMA = if s.inDMA then m else 0 := rfl
@[simp] theorem State.recordRan_hdmaen : (s.recordRan m).hdmaen = s.hdmaen := rfl
@[simp] theorem State.recordRan_hdmaActive : (s.recordRan m).hdmaActive = s.hdmaActive := rfl
@[simp] theorem State.recordRan_hdmaEnded : (s.recordRan m).hdmaEnded = s.hdmaEnded := rfl
@[simp] theorem State.recordRan_mdmaen : (s.recordRan m).mdmaen = s.mdmaen := rfl
@[simp] theorem State.recordRan_patternStep : (s.recordRan m).patternStep = s.patternStep := rfl
@[simp] theorem State.recordRan_sdd1Flag : (s.recordRan m).sdd1Flag = s.sdd1Flag := rfl
@[simp] theorem State.recordRan_seq : (s.recordRan m).seq = s.seq := rfl
@[simp] theorem State.recordRan_env : (s.recordRan m).env = s.env := rfl
@[simp] theorem State.recordRan_row (d : Chan) : (s.recordRan m).row d = s.row d := rfl

end recordRan

/-! ## The register file -/

theorem chan_ne_toNat {c d : Chan} (h : d ≠ c) : c.toNat ≠ d.toNat :=
  fun e => h (BitVec.eq_of_toNat_eq e.symm)

/-- Two states with one register file agree on every row. -/
theorem State.row_congr {s t : State} (h : t.ch = s.ch) (c : Chan) : t.row c = s.row c := by
  simp only [State.row, h]

@[simp] theorem State.setRow_row_self (s : State) (c : Chan) (r : Channel) : (s.setRow c r).row c = r := by
  simp [State.row, State.setRow]

theorem State.setRow_row_ne (s : State) {c d : Chan} (r : Channel) (h : d ≠ c) : (s.setRow c r).row d = s.row d := by
  simp [State.row, State.setRow, Vector.getElem_set_ne, chan_ne_toNat h]

theorem State.setRow_row (s : State) (c d : Chan) (r : Channel) :
    (s.setRow c r).row d = if d = c then r else s.row d := by
  by_cases h : d = c
  · subst h; simp
  · simp [h, s.setRow_row_ne r h]

@[simp] theorem State.updRow_row_self (s : State) (c : Chan) (f : Channel → Channel) :
    (s.updRow c f).row c = f (s.row c) := s.setRow_row_self c _

theorem State.updRow_row_ne (s : State) {c d : Chan} (f : Channel → Channel) (h : d ≠ c) :
    (s.updRow c f).row d = s.row d := s.setRow_row_ne _ h

theorem State.updRow_row (s : State) (c d : Chan) (f : Channel → Channel) :
    (s.updRow c f).row d = if d = c then f (s.row c) else s.row d := s.setRow_row c d _

/-- The register file is determined by its rows. -/
theorem State.ch_ext {s t : State} (h : ∀ c, t.row c = s.row c) : t.ch = s.ch := by
  apply Vector.ext
  intro i hi
  have := h (BitVec.ofNat 3 i)
  simpa [State.row, Nat.mod_eq_of_lt hi] using this

@[simp] theorem State.reset_row (c : Chan) : State.reset.row c = Channel.reset := by
  simp [State.row, State.reset]

/-! ## The count of a DMA byte -/

section CountDas
variable (r : Channel)
@[simp] theorem Channel.countDas_dir : r.countDas.dir = r.dir := rfl
@[simp] theorem Channel.countDas_ind : r.countDas.ind = r.ind := rfl
@[simp] theorem Channel.countDas_u5 : r.countDas.u5 = r.u5 := rfl
@[simp] theorem Channel.countDas_dec : r.countDas.dec = r.dec := rfl
@[simp] theorem Channel.countDas_fix : r.countDas.fix = r.fix := rfl
@[simp] theorem Channel.countDas_mode : r.countDas.mode = r.mode := rfl
@[simp] theorem Channel.countDas_bbad : r.countDas.bbad = r.bbad := rfl
@[simp] theorem Channel.countDas_a1t : r.countDas.a1t = r.a1t := rfl
@[simp] theorem Channel.countDas_a1b : r.countDas.a1b = r.a1b := rfl
@[simp] theorem Channel.countDas_dasb : r.countDas.dasb = r.dasb := rfl
@[simp] theorem Channel.countDas_a2a : r.countDas.a2a = r.a2a := rfl
@[simp] theorem Channel.countDas_rep : r.countDas.rep = r.rep := rfl
@[simp] theorem Channel.countDas_lineCount : r.countDas.lineCount = r.lineCount := rfl
@[simp] theorem Channel.countDas_doTransfer : r.countDas.doTransfer = r.doTransfer := rfl
@[simp] theorem Channel.countDas_das : r.countDas.das = r.das - 1 := rfl
@[simp] theorem Channel.countDas_ptr : r.countDas.ptr = if r.ind then none else r.ptr := rfl
end CountDas

end Sys2Proof.Machine
end

