-- ==== Sys2Proof/Laws/Frames.lean ====
section
/-! SUPPORT. What the facade, the Cycle Accountant and the HDMA engine's operations can do to a state, said once: the
relations `EnvStep`, `Quiet` and `HdmaKeeps`, and one lemma for each shared operation. -/

namespace Sys2Proof.Machine

/-! ## Observations added -/

@[simp] theorem cyclesOf_nil : cyclesOf [] = 0 := rfl

theorem cyclesOf_append (a b : List Entry) : cyclesOf (a ++ b) = cyclesOf a + cyclesOf b := by
  simp [cyclesOf, List.map_append, List.sum_append]

/-- What an engine's operation can do to the environment: inputs and straps stay, memory keeps its form, observations
are only added, their `AddCycles` amounts are the cycles added, and registers are accessed in the B-bus window only. -/
structure EnvStep (e e' : Env) : Prop where
  inbox : e'.inbox = e.inbox
  script : e'.script = e.script
  nmi : e'.nmiPending = e.nmiPending
  present : e'.sdd1Present = e.sdd1Present
  buf : e'.sdd1Buf = e.sdd1Buf
  map : e'.aMap = e.aMap
  memory : Memory.wf e.aMem = true → Memory.wf e'.aMem = true
  grows : ∃ new, e'.trace = new ++ e.trace ∧ e'.cycles = e.cycles + cyclesOf new ∧ ∀ x ∈ new, x.what.fromEngine = true

theorem EnvStep.refl (e : Env) : EnvStep e e :=
  ⟨rfl, rfl, rfl, rfl, rfl, rfl, id, [], by simp⟩

theorem EnvStep.trans {e e' e'' : Env} (h : EnvStep e e') (h' : EnvStep e' e'') : EnvStep e e'' := by
  obtain ⟨n, ht, hc, hw⟩ := h.grows
  obtain ⟨n', ht', hc', hw'⟩ := h'.grows
  refine ⟨h'.inbox.trans h.inbox, h'.script.trans h.script, h'.nmi.trans h.nmi, h'.present.trans h.present,
    h'.buf.trans h.buf, h'.map.trans h.map, fun m => h'.memory (h.memory m), n' ++ n, ?_, ?_, ?_⟩
  · rw [ht', ht, List.append_assoc]
  · rw [hc', hc, cyclesOf_append]; omega
  · intro x hx
    rcases List.mem_append.1 hx with hx | hx
    · exact hw' x hx
    · exact hw x hx

/-- One observation that adds no cycles. -/
theorem EnvStep.observe (e : Env) (x : Entry) (hx : x.what.fromEngine = true) (hc : cyclesOf [x] = 0) :
    EnvStep e { e with trace := x :: e.trace } :=
  ⟨rfl, rfl, rfl, rfl, rfl, rfl, id, [x], rfl, by simp [hc], by simpa using hx⟩

theorem EnvStep.addCycles (e : Env) (n : Nat) (ctx : Context) :
    EnvStep e { e with cycles := e.cycles + n, trace := ⟨.addCycles n, ctx⟩ :: e.trace } :=
  ⟨rfl, rfl, rfl, rfl, rfl, rfl, id, [⟨.addCycles n, ctx⟩], rfl, by simp [cyclesOf], by simp [Observed.fromEngine, Observed.inWindow, Observed.isNmi]⟩

theorem EnvStep.draw (e : Env) : EnvStep e e.draw.2 := by
  unfold Env.draw
  split <;> exact ⟨rfl, rfl, rfl, rfl, rfl, rfl, id, [], by simp⟩

theorem EnvStep.readByte (e : Env) (a : AAddr) : EnvStep e (e.readByte a).2 := by
  unfold Env.readByte
  split
  · exact EnvStep.refl e
  · exact EnvStep.draw e

theorem EnvStep.store (e : Env) (a : AAddr) (v : Byte) : EnvStep e (e.store a v) := by
  have hm := fun h => Env.store_wf e a v h
  rw [Env.store_eq] at hm ⊢
  exact ⟨rfl, rfl, rfl, rfl, rfl, rfl, hm, [], by simp⟩

/-- The window of R71: whatever the offset, the facade sees a register 0x2100 to 0x21FF. -/
theorem bbusAddr_inWindow (off : Byte) : 0x2100 ≤ (bbusAddr off).toNat ∧ (bbusAddr off).toNat ≤ 0x21FF := by
  have h := off.isLt
  have : (bbusAddr off).toNat = 0x2100 + off.toNat := by
    have hb : Config.bbusBase.toNat = 0x2100 := rfl
    simp only [bbusAddr, BitVec.toNat_add, BitVec.toNat_setWidth, hb]
    omega
  omega

/-! ## Operations that touch the environment alone -/

/-- Everything but the environment is as before, and the environment made an `EnvStep`. -/
structure Quiet (s t : State) : Prop where
  rest : t = { s with env := t.env }
  env : EnvStep s.env t.env

theorem Quiet.refl (s : State) : Quiet s s := ⟨rfl, EnvStep.refl _⟩

theorem Quiet.trans {s t u : State} (h : Quiet s t) (h' : Quiet t u) : Quiet s u := by
  refine ⟨?_, h.env.trans h'.env⟩
  rw [h'.rest, h.rest]

theorem Quiet.ch {s t : State} (h : Quiet s t) : t.ch = s.ch := by rw [h.rest]

theorem Quiet.row {s t : State} (h : Quiet s t) (c : Chan) : t.row c = s.row c := State.row_congr h.ch c

theorem State.observe_quiet (s : State) (w : Observed) (hw : w.fromEngine = true) (hc : cyclesOf [⟨w, s.context⟩] = 0) :
    Quiet s (s.observe w) := ⟨rfl, EnvStep.observe _ _ hw hc⟩

theorem State.addCycles_quiet (s : State) (n : Nat) : Quiet s (s.addCycles n) := ⟨rfl, EnvStep.addCycles _ _ _⟩

theorem State.withEnv_quiet (s : State) (e : Env) (h : EnvStep s.env e) : Quiet s { s with env := e } := ⟨rfl, h⟩

/-- `ARead`: the stored byte, or a free one; nothing but the environment changes. -/
theorem State.aRead_quiet (s : State) (a : AAddr) : Quiet s (s.aRead a).2 :=
  (s.withEnv_quiet _ (EnvStep.readByte s.env a)).trans (State.observe_quiet _ _ rfl rfl)

theorem State.aWrite_quiet (s : State) (a : AAddr) (v : Byte) : Quiet s (s.aWrite a v) :=
  (s.withEnv_quiet _ (EnvStep.store s.env a v)).trans (State.observe_quiet _ _ rfl rfl)

theorem State.bRead_quiet (s : State) (off : Byte) : Quiet s (s.bRead off).2 :=
  (s.withEnv_quiet _ (EnvStep.draw s.env)).trans
    (State.observe_quiet _ _ (by simpa [Observed.fromEngine, Observed.inWindow, Observed.isNmi] using bbusAddr_inWindow off) rfl)

theorem State.bWrite_quiet (s : State) (off v : Byte) : Quiet s (s.bWrite off v) :=
  State.observe_quiet _ _ (by simpa [Observed.fromEngine, Observed.inWindow, Observed.isNmi] using bbusAddr_inWindow off) rfl

theorem State.oamFix_quiet (s : State) : Quiet s s.oamFix := State.observe_quiet _ _ rfl rfl

theorem State.moveByte_quiet (s : State) (dir : Bool) (off : Byte) (a : AAddr) : Quiet s (s.moveByte dir off a) := by
  unfold State.moveByte
  split
  · exact (s.bRead_quiet off).trans (State.aWrite_quiet _ _ _)
  · exact (s.aRead_quiet a).trans (State.bWrite_quiet _ _ _)

theorem State.resolveDirect_quiet (s : State) (a : AAddr) : Quiet s (s.resolveDirect a).2 :=
  State.observe_quiet _ _ rfl rfl

theorem State.moveGroupByte_quiet (s : State) (r : Channel) (ind : Bool) (i : Nat) :
    Quiet s (s.moveGroupByte r ind i) :=
  (s.moveByte_quiet _ _ _).trans (State.addCycles_quiet _ _)

/-- A run of quiet operations is quiet. -/
theorem Quiet.foldl {α : Type} (f : State → α → State) (hf : ∀ s a, Quiet s (f s a)) (l : List α) (s : State) :
    Quiet s (l.foldl f s) := by
  induction l generalizing s with
  | nil => exact Quiet.refl s
  | cons a l ih => exact (hf s a).trans (ih (f s a))

/-! ## Operations of the HDMA engine -/

/-- What no HDMA operation changes in a row: its configuration and `A1T`, and `DAS` where the channel is direct. -/
structure RowKeeps (r r' : Channel) : Prop where
  config : r.sameConfig r'
  a1t : r'.a1t = r.a1t
  das : r.ind = false → r'.das = r.das

theorem RowKeeps.refl (r : Channel) : RowKeeps r r := ⟨⟨rfl, rfl, rfl, rfl, rfl, rfl, rfl, rfl, rfl⟩, rfl, fun _ => rfl⟩

theorem RowKeeps.trans {r r' r'' : Channel} (h : RowKeeps r r') (h' : RowKeeps r' r'') : RowKeeps r r'' := by
  obtain ⟨⟨a1, a2, a3, a4, a5, a6, a7, a8, a9⟩, a, d⟩ := h
  obtain ⟨⟨b1, b2, b3, b4, b5, b6, b7, b8, b9⟩, b, e⟩ := h'
  exact ⟨⟨b1.trans a1, b2.trans a2, b3.trans a3, b4.trans a4, b5.trans a5, b6.trans a6, b7.trans a7, b8.trans a8,
    b9.trans a9⟩, b.trans a, fun hi => (e (a2.trans hi)).trans (d hi)⟩

/-- What no HDMA operation changes: the DMA's globals and locals, `HDMAEN`, `InDMA`, and every row's `RowKeeps`. -/
structure HdmaKeeps (s t : State) : Prop where
  inDMA : t.inDMA = s.inDMA
  hdmaen : t.hdmaen = s.hdmaen
  mdmaen : t.mdmaen = s.mdmaen
  patternStep : t.patternStep = s.patternStep
  sdd1Flag : t.sdd1Flag = s.sdd1Flag
  seq : t.seq = s.seq
  rows : ∀ d, RowKeeps (s.row d) (t.row d)
  env : EnvStep s.env t.env

theorem HdmaKeeps.refl (s : State) : HdmaKeeps s s :=
  ⟨rfl, rfl, rfl, rfl, rfl, rfl, fun _ => RowKeeps.refl _, EnvStep.refl _⟩

theorem HdmaKeeps.trans {s t u : State} (h : HdmaKeeps s t) (h' : HdmaKeeps t u) : HdmaKeeps s u :=
  ⟨h'.inDMA.trans h.inDMA, h'.hdmaen.trans h.hdmaen, h'.mdmaen.trans h.mdmaen, h'.patternStep.trans h.patternStep,
    h'.sdd1Flag.trans h.sdd1Flag, h'.seq.trans h.seq, fun d => (h.rows d).trans (h'.rows d), h.env.trans h'.env⟩

theorem Quiet.keeps {s t : State} (h : Quiet s t) : HdmaKeeps s t := by
  refine ⟨?_, ?_, ?_, ?_, ?_, ?_, fun d => ?_, h.env⟩
  all_goals first | (rw [h.rest]; done) | (rw [h.row d]; exact RowKeeps.refl _)

/-- A run of operations that keep, keeps. -/
theorem HdmaKeeps.foldl {α : Type} (f : State → α → State) (hf : ∀ s a, HdmaKeeps s (f s a)) (l : List α) (s : State) :
    HdmaKeeps s (l.foldl f s) := by
  induction l generalizing s with
  | nil => exact HdmaKeeps.refl s
  | cons a l ih => exact (hf s a).trans (ih (f s a))

/-- What an operation on channel `c` changes: row `c` and the environment. -/
structure OnChannel (c : Chan) (s t : State) : Prop where
  rest : t = { s with ch := t.ch, env := t.env }
  others : ∀ d, d ≠ c → t.row d = s.row d
  row : RowKeeps (s.row c) (t.row c)
  env : EnvStep s.env t.env

theorem OnChannel.trans {c : Chan} {s t u : State} (h : OnChannel c s t) (h' : OnChannel c t u) : OnChannel c s u := by
  refine ⟨?_, fun d hd => (h'.others d hd).trans (h.others d hd), h.row.trans h'.row, h.env.trans h'.env⟩
  rw [h'.rest, h.rest]

theorem Quiet.onChannel {s t : State} (h : Quiet s t) (c : Chan) : OnChannel c s t := by
  refine ⟨?_, fun d _ => h.row d, ?_, h.env⟩
  · rw [h.rest]
  · rw [h.row c]; exact RowKeeps.refl _

theorem OnChannel.refl (c : Chan) (s : State) : OnChannel c s s := (Quiet.refl s).onChannel c

theorem OnChannel.keeps {c : Chan} {s t : State} (h : OnChannel c s t) : HdmaKeeps s t := by
  refine ⟨?_, ?_, ?_, ?_, ?_, ?_, fun d => ?_, h.env⟩
  case refine_7 =>
    by_cases hd : d = c
    · subst hd; exact h.row
    · rw [h.others d hd]; exact RowKeeps.refl _
  all_goals rw [h.rest]

theorem OnChannel.onlyRowAndEnv {c : Chan} {s t : State} (h : OnChannel c s t) : s.onlyRowAndEnv c t :=
  ⟨h.others, h.rest⟩

theorem State.updRow_onChannel (s : State) (c : Chan) (f : Channel → Channel) (h : RowKeeps (s.row c) (f (s.row c))) :
    OnChannel c s (s.updRow c f) :=
  ⟨rfl, fun _ hd => s.updRow_row_ne f hd, by simpa using h, EnvStep.refl _⟩

theorem State.resolvePtr_onChannel (s : State) (c : Chan) (ind : Bool) : OnChannel c s (s.resolvePtr c ind) :=
  ((s.resolveDirect_quiet ((s.row c).sourceAddr ind)).onChannel c).trans
    (State.updRow_onChannel _ c (fun r => { r with ptr := (s.resolveDirect ((s.row c).sourceAddr ind)).1 })
      ⟨⟨rfl, rfl, rfl, rfl, rfl, rfl, rfl, rfl, rfl⟩, rfl, fun _ => rfl⟩)

/-- What resolving the pointer leaves in its own row. -/
theorem State.resolvePtr_row (s : State) (c : Chan) (ind : Bool) :
    (s.resolvePtr c ind).row c = { s.row c with ptr := s.env.directPointer ((s.row c).sourceAddr ind) } := by
  simp [State.resolvePtr, State.resolveDirect]

theorem State.groupPointer_onChannel (s : State) (c : Chan) (ind : Bool) : OnChannel c s (s.groupPointer c ind) := by
  unfold State.groupPointer
  split
  · exact s.resolvePtr_onChannel c ind
  · exact OnChannel.refl c s

/-- Only `PTR` of the own row may change before a group. -/
theorem State.groupPointer_row (s : State) (c : Chan) (ind : Bool) :
    ∃ p, (s.groupPointer c ind).row c = { s.row c with ptr := p } := by
  unfold State.groupPointer
  split
  · exact ⟨_, s.resolvePtr_row c ind⟩
  · exact ⟨(s.row c).ptr, rfl⟩

theorem State.moveGroupBytes_quiet (s : State) (r : Channel) (ind : Bool) (l : List Nat) :
    Quiet s (l.foldl (fun s i => s.moveGroupByte r ind i) s) :=
  Quiet.foldl _ (fun s i => s.moveGroupByte_quiet r ind i) l s

/-- The row after a group: the source pointer advanced by exactly `G`, `PTR` as R235 says, the rest as before. -/
theorem State.moveGroup_row (s : State) (c : Chan) (ind : Bool) :
    ∃ p, (s.moveGroup c ind).row c = { (s.row c).advanceSource ind (len (s.row c).mode) with ptr := p } := by
  obtain ⟨p, hp⟩ := s.groupPointer_row c ind
  refine ⟨((s.groupPointer c ind).row c).ptrAfterGroup ind (len (s.row c).mode), ?_⟩
  unfold State.moveGroup
  simp only [State.updRow_row_self, (State.moveGroupBytes_quiet _ _ _ _).row c]
  rw [hp]
  simp only [Channel.advanceSource]
  split <;> rfl

/-- A group changes its own row and the environment only. A direct channel keeps its `DAS`. -/
theorem State.moveGroup_onChannel (s : State) (c : Chan) (ind : Bool) (hi : ind = true → (s.row c).ind = true) :
    OnChannel c s (s.moveGroup c ind) := by
  have hg := (s.groupPointer_onChannel c ind)
  refine hg.trans ?_
  unfold State.moveGroup
  refine ((State.moveGroupBytes_quiet _ _ _ _).onChannel c).trans (State.updRow_onChannel _ c _ ?_)
  rw [(State.moveGroupBytes_quiet _ _ _ _).row c]
  have hind : ((s.groupPointer c ind).row c).ind = (s.row c).ind := hg.row.config.2.1
  cases ind with
  | false => exact ⟨⟨rfl, rfl, rfl, rfl, rfl, rfl, rfl, rfl, rfl⟩, rfl, fun _ => rfl⟩
  | true =>
    refine ⟨⟨rfl, rfl, rfl, rfl, rfl, rfl, rfl, rfl, rfl⟩, rfl, fun h => ?_⟩
    rw [hind, hi rfl] at h
    cases h

theorem State.fetchIndirect_onChannel (s : State) (c : Chan) (hi : (s.row c).ind = true) :
    OnChannel c s (s.fetchIndirect c) := by
  unfold State.fetchIndirect
  have q := ((s.aRead_quiet (s.row c).tableAddr).trans
    (State.aRead_quiet _ (aAddr (s.row c).a1b ((s.row c).a2a + 1)))).trans
    (State.addCycles_quiet _ (2 * Config.byteCost))
  refine (q.onChannel c).trans ((State.updRow_onChannel _ c _ ?_).trans (State.resolvePtr_onChannel _ c true))
  rw [q.row c]
  refine ⟨⟨rfl, rfl, rfl, rfl, rfl, rfl, rfl, rfl, rfl⟩, rfl, fun h => ?_⟩
  rw [hi] at h
  cases h

/-- What the address fetch leaves in its own row: the two bytes read, low first, and `A2A` past them (R227). -/
theorem State.fetchIndirect_row (s : State) (c : Chan) :
    ∃ p, (s.fetchIndirect c).row c =
      { s.row c with
        das := ((s.aRead (s.row c).tableAddr).2.aRead (aAddr (s.row c).a1b ((s.row c).a2a + 1))).1 ++
          (s.aRead (s.row c).tableAddr).1
        a2a := (s.row c).a2a + 2
        ptr := p } := by
  unfold State.fetchIndirect
  simp only [State.resolvePtr_row, State.updRow_row_self, State.addCycles_row, (State.aRead_quiet _ _).row c]
  exact ⟨_, rfl⟩

theorem State.openEntry_onChannel (s : State) (c : Chan) (rep : Bool) (count : Byte) :
    OnChannel c s (s.openEntry c rep count) := by
  unfold State.openEntry
  have hu := State.updRow_onChannel s c
    (fun r => { r with a2a := r.a2a + 1, rep := rep, lineCount := count, doTransfer := true })
    ⟨⟨rfl, rfl, rfl, rfl, rfl, rfl, rfl, rfl, rfl⟩, rfl, fun _ => rfl⟩
  refine hu.trans ?_
  simp only
  split
  · next h => exact State.fetchIndirect_onChannel _ c h
  · exact State.resolvePtr_onChannel _ c false

/-- The flags of an entry just opened (R222 lines 3, 4 and 8). -/
theorem State.openEntry_flags (s : State) (c : Chan) (rep : Bool) (count : Byte) :
    ((s.openEntry c rep count).row c).rep = rep ∧ ((s.openEntry c rep count).row c).lineCount = count ∧
    ((s.openEntry c rep count).row c).doTransfer = true := by
  unfold State.openEntry
  simp only
  split
  · obtain ⟨p, hp⟩ := State.fetchIndirect_row (s.updRow c fun r =>
      { r with a2a := r.a2a + 1, rep := rep, lineCount := count, doTransfer := true }) c
    rw [hp]; simp
  · rw [State.resolvePtr_row]; simp

theorem State.lineEnd_onChannel (s : State) (c : Chan) : OnChannel c s (s.lineEnd c) :=
  State.updRow_onChannel s c _ ⟨⟨rfl, rfl, rfl, rfl, rfl, rfl, rfl, rfl, rfl⟩, rfl, fun _ => rfl⟩

theorem State.lineByte_onChannel (s : State) (c : Chan) (line : Byte) : OnChannel c s (s.lineByte c line) := by
  unfold State.lineByte
  split
  · exact s.lineEnd_onChannel c
  · split
    · exact s.openEntry_onChannel c _ _
    · split <;> exact s.openEntry_onChannel c _ _

theorem State.readLineCountByte_onChannel (s : State) (c : Chan) : OnChannel c s (s.readLineCountByte c).2 :=
  (((s.aRead_quiet _).trans (State.addCycles_quiet _ _)).onChannel c).trans (State.lineByte_onChannel _ c _)

/-! ## Line counts -/

theorem lineCountOf_range (n : BitVec 7) : 1 ≤ (lineCountOf n).toNat ∧ (lineCountOf n).toNat ≤ 128 := by
  unfold lineCountOf
  split
  · decide
  · next h =>
    have h0 : n.toNat ≠ 0 := fun e => h (BitVec.eq_of_toNat_eq (by simpa using e))
    have hl := n.isLt
    have : (0#1 ++ n).toNat = n.toNat := by
      rw [BitVec.toNat_append]
      simp
    omega

/-- After any line-count byte the count is 1 to 128 (R34). -/
theorem State.lineByte_count (s : State) (c : Chan) (line : Byte) : ((s.lineByte c line).row c).lineCountOk := by
  unfold State.lineByte Channel.lineCountOk
  split
  · simp [State.lineEnd]
  · split
    · simp [State.lineRep128, (s.openEntry_flags c _ _).2.1]
    · split
      · simp only [State.lineRepeat, (s.openEntry_flags c _ _).2.1]; exact lineCountOf_range _
      · simp only [State.lineSingle, (s.openEntry_flags c _ _).2.1]; exact lineCountOf_range _

theorem State.readLineCountByte_count (s : State) (c : Chan) : ((s.readLineCountByte c).2.row c).lineCountOk :=
  State.lineByte_count _ c _

end Sys2Proof.Machine
end

