-- ==== Sys2Proof/Laws/Engine.lean ====
section
/-! SUPPORT. The two HDMA entry points, the scheduler and the cycle sink, said once each: what they leave unchanged, what
each channel's iteration does to its row and to the masks, the flags restored at the end. -/

namespace Sys2Proof.Machine

/-! ## Bits of a channel mask -/

theorem hasBit_withBit (m : Mask) (c d : Chan) : hasBit (withBit m c) d = (hasBit m d || decide (d = c)) := by
  have hc := c.isLt
  have hd := d.isLt
  have : (d = c) ↔ d.toNat = c.toNat := BitVec.toNat_inj.symm
  simp only [hasBit, withBit, BitVec.getLsbD_or, BitVec.getLsbD_shiftLeft, BitVec.getLsbD_one, this]
  congr 1
  by_cases h : d.toNat = c.toNat
  · simp [h]; omega
  · simp only [h, decide_false]
    by_cases h2 : d.toNat < c.toNat
    · simp [h2]
    · simp only [h2, decide_false, Bool.not_false, Bool.and_true]
      have : d.toNat - c.toNat ≠ 0 := by omega
      simp [this]

theorem hasBit_withoutBit (m : Mask) (c d : Chan) : hasBit (withoutBit m c) d = (hasBit m d && !decide (d = c)) := by
  have hc := c.isLt
  have hd := d.isLt
  have e : (d = c) ↔ d.toNat = c.toNat := BitVec.toNat_inj.symm
  simp only [hasBit, withoutBit, BitVec.getLsbD_and, BitVec.getLsbD_not, BitVec.getLsbD_shiftLeft, BitVec.getLsbD_one, e]
  congr 1
  by_cases h : d.toNat = c.toNat
  · simp [h]
  · simp only [h, decide_false]
    by_cases h2 : d.toNat < c.toNat
    · simp [h2]; omega
    · have : d.toNat - c.toNat ≠ 0 := by omega
      simp [this]; omega

/-- A mask is determined by its bits. -/
theorem mask_ext {m n : Mask} (h : ∀ c, hasBit m c = hasBit n c) : m = n := by
  apply BitVec.eq_of_getLsbD_eq
  intro i hi
  have hi' : i % 8 = i := Nat.mod_eq_of_lt hi
  have := h (BitVec.ofNat 3 i)
  simpa [hasBit, BitVec.toNat_ofNat, hi'] using this

theorem hasBit_zero (c : Chan) : hasBit 0 c = false := by simp [hasBit]

/-- A mask that is not 0 has a bit. -/
theorem exists_hasBit {m : Mask} (h : m ≠ 0) : ∃ c, hasBit m c = true := by
  by_contra hn
  apply h
  apply mask_ext
  intro c
  rw [hasBit_zero]
  by_contra hc
  exact hn ⟨c, by simpa using hc⟩

/-! ## A fold over the eight channels -/

theorem mem_allChans (c : Chan) : c ∈ allChans := by revert c; decide

theorem allChans_nodup : allChans.Nodup := by decide

/-- The fold over the channels, cut at one of them: the channels before it and after it are others. -/
theorem allChans_split (c : Chan) :
    ∃ pre post, allChans = pre ++ c :: post ∧ (∀ d ∈ pre, d ≠ c) ∧ ∀ d ∈ post, d ≠ c := by
  obtain ⟨pre, post, h⟩ := List.append_of_mem (mem_allChans c)
  have hn := allChans_nodup
  rw [h, List.nodup_append] at hn
  obtain ⟨-, hp, hd⟩ := hn
  refine ⟨pre, post, h, fun d hd' e => hd d hd' c (by simp) e, fun d hd' e => ?_⟩
  subst e
  exact (List.nodup_cons.1 hp).1 hd'

/-- A property each iteration keeps is kept by the fold. -/
theorem foldl_keeps {σ α : Type} {P : σ → Prop} (f : σ → α → σ) (l : List α)
    (hf : ∀ s, ∀ a ∈ l, P s → P (f s a)) (s : σ) (hs : P s) : P (l.foldl f s) := by
  induction l generalizing s with
  | nil => exact hs
  | cons a l ih =>
    exact ih (fun s b hb h => hf s b (List.mem_cons_of_mem a hb) h) (f s a) (hf s a List.mem_cons_self hs)

/-! ## One iteration: what it changes -/

/-- What one channel's iteration of an HDMA call changes: row `c`, the environment, `CurrentChannel` and the bits of
channel `c` in `HDMA_ACTIVE` and `HDMA_ENDED`. -/
structure Iteration (c : Chan) (s t : State) : Prop where
  rest : t = { s with
    ch := t.ch, env := t.env, currentChannel := t.currentChannel, hdmaActive := t.hdmaActive, hdmaEnded := t.hdmaEnded }
  others : ∀ d, d ≠ c → t.row d = s.row d
  row : RowKeeps (s.row c) (t.row c)
  env : EnvStep s.env t.env
  active : ∀ d, d ≠ c → hasBit t.hdmaActive d = hasBit s.hdmaActive d
  ended : ∀ d, d ≠ c → hasBit t.hdmaEnded d = hasBit s.hdmaEnded d

theorem Iteration.refl (c : Chan) (s : State) : Iteration c s s :=
  ⟨rfl, fun _ _ => rfl, RowKeeps.refl _, EnvStep.refl _, fun _ _ => rfl, fun _ _ => rfl⟩

theorem Iteration.trans {c : Chan} {s t u : State} (h : Iteration c s t) (h' : Iteration c t u) : Iteration c s u := by
  refine ⟨?_, fun d hd => (h'.others d hd).trans (h.others d hd), h.row.trans h'.row, h.env.trans h'.env,
    fun d hd => (h'.active d hd).trans (h.active d hd), fun d hd => (h'.ended d hd).trans (h.ended d hd)⟩
  rw [h'.rest, h.rest]

theorem OnChannel.iteration {c : Chan} {s t : State} (h : OnChannel c s t) : Iteration c s t := by
  refine ⟨?_, h.others, h.row, h.env, fun d _ => ?_, fun d _ => ?_⟩ <;> rw [h.rest]

theorem Iteration.setCurrent (c : Chan) (s : State) (x : Option Chan) : Iteration c s { s with currentChannel := x } :=
  ⟨rfl, fun _ _ => rfl, RowKeeps.refl _, EnvStep.refl _, fun _ _ => rfl, fun _ _ => rfl⟩

theorem Iteration.keeps {c : Chan} {s t : State} (h : Iteration c s t) : HdmaKeeps s t := by
  refine ⟨?_, ?_, ?_, ?_, ?_, ?_, fun d => ?_, h.env⟩
  case refine_7 =>
    by_cases hd : d = c
    · subst hd; exact h.row
    · rw [h.others d hd]; exact RowKeeps.refl _
  all_goals rw [h.rest]

/-! ## The iteration of `InitializeHDMALines` -/

theorem State.initChannel_iteration (s : State) (c : Chan) : Iteration c s (s.initChannel c) := by
  unfold State.initChannel
  split
  · have h1 := Iteration.setCurrent c s (some c)
    have h2 : Iteration c { s with currentChannel := some c }
        (State.updRow c (fun r => { r with a2a := r.a1t }) { s with currentChannel := some c }) :=
      (State.updRow_onChannel _ c _ ⟨⟨rfl, rfl, rfl, rfl, rfl, rfl, rfl, rfl, rfl⟩, rfl, fun _ => rfl⟩).iteration
    have h3 := (State.readLineCountByte_onChannel
      (State.updRow c (fun r => { r with a2a := r.a1t }) { s with currentChannel := some c }) c).iteration
    refine (h1.trans (h2.trans h3)).trans ?_
    simp only
    split
    · exact Iteration.refl c _
    · exact ⟨rfl, fun _ _ => rfl, RowKeeps.refl _, EnvStep.refl _,
        fun d hd => by simp [hasBit_withoutBit, hd], fun d hd => by simp [hasBit_withBit, hd]⟩
  · exact (State.updRow_onChannel s c _ ⟨⟨rfl, rfl, rfl, rfl, rfl, rfl, rfl, rfl, rfl⟩, rfl, fun _ => rfl⟩).iteration

/-! ## The iteration of `AdvanceHDMALines` -/

theorem State.lineGroup_onChannel (s : State) (c : Chan) : OnChannel c s (s.lineGroup c) := by
  unfold State.lineGroup
  simp only
  split
  · split
    · exact ((s.oamFix_quiet).onChannel c).trans (State.moveGroup_onChannel _ c _ (fun h => h))
    · exact State.moveGroup_onChannel s c _ (fun h => h)
  · exact OnChannel.refl c s

theorem State.countLine_onChannel (s : State) (c : Chan) : OnChannel c s (s.updRow c Channel.countLine) :=
  State.updRow_onChannel s c _ ⟨⟨rfl, rfl, rfl, rfl, rfl, rfl, rfl, rfl, rfl⟩, rfl, fun _ => rfl⟩

theorem advanceChannel_iteration (m : Mask) (s : State) (c : Chan) : Iteration c s (advanceChannel (m, s) c).2 := by
  unfold advanceChannel
  simp only
  split
  · have h1 := Iteration.setCurrent c s (some c)
    have h2 := (State.lineGroup_onChannel { s with currentChannel := some c } c).iteration
    have h3 := (State.countLine_onChannel (State.lineGroup c { s with currentChannel := some c }) c).iteration
    have h := h1.trans (h2.trans h3)
    split
    · have h4 := (State.readLineCountByte_onChannel
        ((State.lineGroup c { s with currentChannel := some c }).updRow c Channel.countLine) c).iteration
      split
      · exact h.trans h4
      · exact (h.trans h4).trans ⟨rfl, fun _ _ => rfl, RowKeeps.refl _, EnvStep.refl _,
          fun _ _ => rfl, fun d hd => by simp [hasBit_withBit, hd]⟩
    · exact h.trans ((State.addCycles_quiet _ _).onChannel c).iteration
  · exact Iteration.refl c s

/-- The mask an iteration answers: its own bit at most is cleared. -/
theorem advanceChannel_mask (m : Mask) (s : State) (c d : Chan) :
    (d ≠ c → hasBit (advanceChannel (m, s) c).1 d = hasBit m d) ∧
    (hasBit (advanceChannel (m, s) c).1 d = true → hasBit m d = true) := by
  unfold advanceChannel
  simp only
  split
  · split
    · split
      · exact ⟨fun _ => rfl, id⟩
      · simp only [hasBit_withoutBit]
        exact ⟨fun h => by simp [h], fun h => by simp at h; exact h.1⟩
    · exact ⟨fun _ => rfl, id⟩
  · exact ⟨fun _ => rfl, id⟩

/-- An iteration never touches `HDMA_ACTIVE`: the scheduler does (R263). -/
theorem advanceChannel_active (m : Mask) (s : State) (c : Chan) : (advanceChannel (m, s) c).2.hdmaActive = s.hdmaActive := by
  unfold advanceChannel
  simp only
  split
  · have h2 := State.lineGroup_onChannel { s with currentChannel := some c } c
    have h3 := State.countLine_onChannel (State.lineGroup c { s with currentChannel := some c }) c
    have h := h2.trans h3
    split
    · have h4 := State.readLineCountByte_onChannel
        ((State.lineGroup c { s with currentChannel := some c }).updRow c Channel.countLine) c
      have h5 := h.trans h4
      split <;> · simp only; rw [h5.rest]
    · have h5 := h.trans ((State.addCycles_quiet _ Config.byteCost).onChannel c)
      rw [h5.rest]
  · rfl

/-- A channel whose bit an iteration clears has its ended bit set, and no other bit of `HDMA_ENDED` changes. -/
theorem advanceChannel_ended (m : Mask) (s : State) (c : Chan) :
    hasBit (advanceChannel (m, s) c).2.hdmaEnded c =
      (hasBit s.hdmaEnded c || (hasBit m c && !hasBit (advanceChannel (m, s) c).1 c)) := by
  unfold advanceChannel
  simp only
  split
  · next hb =>
    have h2 := State.lineGroup_onChannel { s with currentChannel := some c } c
    have h3 := State.countLine_onChannel (State.lineGroup c { s with currentChannel := some c }) c
    have h := h2.trans h3
    split
    · have h4 := State.readLineCountByte_onChannel
        ((State.lineGroup c { s with currentChannel := some c }).updRow c Channel.countLine) c
      have h5 := h.trans h4
      split
      · simp only [hb]; rw [h5.rest]; simp
      · simp [hasBit_withBit, hasBit_withoutBit, hb]
    · have h5 := h.trans ((State.addCycles_quiet _ Config.byteCost).onChannel c)
      simp only [hb]; rw [h5.rest]; simp
  · next hb => simp [hb]

/-! ## The entry points -/

/-- What an HDMA entry point leaves: everything `HdmaKeeps` says, the flags of before, `InHDMA = 0` (R286). -/
structure HdmaCall (s t : State) : Prop where
  keeps : HdmaKeeps s t
  inHDMA : t.inHDMA = false
  inEither : t.inEither = s.inDMA
  current : t.currentChannel = s.currentChannel

theorem State.withGlobals_keeps (s : State) (a b : Bool) (cc : Option Chan) (ran act en : Mask) :
    HdmaKeeps s { s with
      inHDMA := a, inEither := b, currentChannel := cc, hdmaRanInDMA := ran, hdmaActive := act, hdmaEnded := en } :=
  ⟨rfl, rfl, rfl, rfl, rfl, rfl, fun _ => RowKeeps.refl _, EnvStep.refl _⟩

/-- The state `InitializeHDMALines` starts its channel loop in (R221 lines 1 to 3). -/
def State.initPrelude (s : State) : State :=
  let s := s.enterHDMA
  let s := { s with hdmaActive := s.hdmaen, hdmaEnded := 0 }
  if s.hdmaen = 0 then s else s.addCycles Config.hdmaSyncCost

/-- The state after the channel loop of `InitializeHDMALines`. -/
def State.initLoop (s : State) : State := allChans.foldl (fun s c => s.initChannel c) s.initPrelude

theorem State.initializeHDMALines_eq (s : State) :
    s.initializeHDMALines = (s.initLoop.leaveHDMA s.currentChannel).recordRan s.initLoop.hdmaActive := rfl

theorem State.initPrelude_keeps (s : State) : HdmaKeeps s s.initPrelude := by
  unfold State.initPrelude
  have h := s.withGlobals_keeps true true s.currentChannel s.hdmaRanInDMA s.hdmaen 0
  simp only
  split
  · exact h
  · exact h.trans (State.addCycles_quiet _ _).keeps

@[simp] theorem State.initPrelude_row (s : State) (c : Chan) : s.initPrelude.row c = s.row c := by
  unfold State.initPrelude; simp only; split <;> rfl

@[simp] theorem State.initPrelude_hdmaActive (s : State) : s.initPrelude.hdmaActive = s.hdmaen := by
  unfold State.initPrelude; simp only; split <;> rfl

@[simp] theorem State.initPrelude_hdmaen (s : State) : s.initPrelude.hdmaen = s.hdmaen := by
  unfold State.initPrelude; simp only; split <;> rfl

@[simp] theorem State.initPrelude_hdmaEnded (s : State) : s.initPrelude.hdmaEnded = 0 := by
  unfold State.initPrelude; simp only; split <;> rfl

theorem State.initLoop_keeps (s : State) : HdmaKeeps s s.initLoop :=
  s.initPrelude_keeps.trans (HdmaKeeps.foldl _ (fun s c => (s.initChannel_iteration c).keeps) _ _)

theorem State.initializeHDMALines_call (s : State) : HdmaCall s s.initializeHDMALines := by
  have h := s.initLoop_keeps
  rw [State.initializeHDMALines_eq]
  refine ⟨h.trans ?_, rfl, h.inDMA, rfl⟩
  exact ⟨rfl, rfl, rfl, rfl, rfl, rfl, fun _ => RowKeeps.refl _, EnvStep.refl _⟩

theorem State.initializeHDMALines_ran (s : State) :
    s.initializeHDMALines.hdmaRanInDMA = if s.inDMA then s.initializeHDMALines.hdmaActive else 0 := by
  rw [State.initializeHDMALines_eq]
  simp [s.initLoop_keeps.inDMA]

/-- The state `AdvanceHDMALines` starts its channel loop in (R228 lines 1 to 3). -/
def State.advancePrelude (mask : Mask) (s : State) : State :=
  (s.enterHDMA.recordRan mask).addCycles Config.hdmaSyncCost

/-- The mask and the state after the channel loop of `AdvanceHDMALines`. -/
def State.advanceLoop (mask : Mask) (s : State) : Mask × State :=
  allChans.foldl advanceChannel (mask, s.advancePrelude mask)

theorem State.advanceHDMALines_eq (mask : Mask) (s : State) :
    s.advanceHDMALines mask = ((s.advanceLoop mask).1, (s.advanceLoop mask).2.leaveHDMA s.currentChannel) := rfl

theorem State.advancePrelude_keeps (mask : Mask) (s : State) : HdmaKeeps s (s.advancePrelude mask) :=
  (s.withGlobals_keeps true true s.currentChannel (if s.inDMA then mask else 0) s.hdmaActive s.hdmaEnded).trans
    (State.addCycles_quiet _ _).keeps

/-- What the loop of `AdvanceHDMALines` keeps of the pair it carries. -/
theorem State.advanceLoop_keeps (mask : Mask) (s : State) : HdmaKeeps s (s.advanceLoop mask).2 := by
  refine foldl_keeps (P := fun p : Mask × State => HdmaKeeps s p.2) advanceChannel allChans ?_ _ (s.advancePrelude_keeps mask)
  intro p c _ h
  exact h.trans (advanceChannel_iteration p.1 p.2 c).keeps

theorem State.advanceLoop_active (mask : Mask) (s : State) : (s.advanceLoop mask).2.hdmaActive = s.hdmaActive := by
  refine foldl_keeps (P := fun p : Mask × State => p.2.hdmaActive = s.hdmaActive) advanceChannel allChans ?_ _ rfl
  intro p c _ h
  exact (advanceChannel_active p.1 p.2 c).trans h

/-- "the result is always a subset of `mask`" (R228). -/
theorem State.advanceLoop_subset (mask : Mask) (s : State) (d : Chan) :
    hasBit (s.advanceLoop mask).1 d = true → hasBit mask d = true := by
  refine foldl_keeps (P := fun p : Mask × State => hasBit p.1 d = true → hasBit mask d = true) advanceChannel allChans ?_ _ id
  intro p c _ h h'
  exact h ((advanceChannel_mask p.1 p.2 c d).2 h')

/-- `HDMA_ENDED` grows by exactly the bits the mask lost. -/
theorem State.advanceLoop_ended (mask : Mask) (s : State) (d : Chan) :
    hasBit (s.advanceLoop mask).2.hdmaEnded d =
      (hasBit s.hdmaEnded d || (hasBit mask d && !hasBit (s.advanceLoop mask).1 d)) := by
  refine foldl_keeps (P := fun p : Mask × State => (hasBit p.1 d = true → hasBit mask d = true) ∧
    hasBit p.2.hdmaEnded d = (hasBit s.hdmaEnded d || (hasBit mask d && !hasBit p.1 d))) advanceChannel allChans ?_ _
    ⟨id, ?_⟩ |>.2
  · rintro ⟨m, u⟩ c _ ⟨hs, he⟩
    refine ⟨fun h => hs ((advanceChannel_mask m u c d).2 h), ?_⟩
    by_cases hd : d = c
    · subst hd
      have h1 := advanceChannel_ended m u d
      have h2 := (advanceChannel_mask m u d d).2
      simp only at he hs
      rw [h1, he]
      cases hm : hasBit m d <;> cases hn : hasBit (advanceChannel (m, u) d).1 d <;> cases hk : hasBit mask d <;> simp_all
    · simp only [(advanceChannel_iteration m u c).ended d hd, (advanceChannel_mask m u c d).1 hd]
      exact he
  · simp only [Bool.and_not_self, Bool.or_false]; rfl

/-- What `AdvanceHDMALines` leaves in `HDMARanInDMA`: its mask inside a DMA, else 0 (R228, R237). -/
theorem State.advanceHDMALines_ran (mask : Mask) (s : State) :
    (s.advanceHDMALines mask).2.hdmaRanInDMA = if s.inDMA then mask else 0 := by
  rw [State.advanceHDMALines_eq]
  refine foldl_keeps (P := fun p : Mask × State => p.2.hdmaRanInDMA = _) advanceChannel allChans ?_
    (mask, s.advancePrelude mask) rfl
  intro p c _ h
  rw [(advanceChannel_iteration p.1 p.2 c).rest]
  exact h

theorem State.advanceHDMALines_call (mask : Mask) (s : State) : HdmaCall s (s.advanceHDMALines mask).2 := by
  have h := s.advanceLoop_keeps mask
  rw [State.advanceHDMALines_eq]
  refine ⟨h.trans ?_, rfl, h.inDMA, rfl⟩
  exact ⟨rfl, rfl, rfl, rfl, rfl, rfl, fun _ => RowKeeps.refl _, EnvStep.refl _⟩

theorem State.hdmaLine_call (s : State) (hi : s.inHDMA = false) (he : s.inEither = s.inDMA) : HdmaCall s s.hdmaLine := by
  unfold State.hdmaLine
  split
  · exact ⟨HdmaKeeps.refl s, hi, he, rfl⟩
  · obtain ⟨k, a, b, c⟩ := s.advanceHDMALines_call s.hdmaActive
    exact ⟨k.trans ⟨rfl, rfl, rfl, rfl, rfl, rfl, fun _ => RowKeeps.refl _, EnvStep.refl _⟩, a, b, c⟩

/-! ## The masks -/

theorem State.initChannel_masks (s : State) (c : Chan) (h : s.masksAgree) : (s.initChannel c).masksAgree := by
  have hit := s.initChannel_iteration c
  intro d
  by_cases hd : d = c
  · subst hd
    rw [hit.keeps.hdmaen]
    unfold State.initChannel
    split
    · have h2 := (State.updRow_onChannel { s with currentChannel := some d } d (fun r => { r with a2a := r.a1t })
        ⟨⟨rfl, rfl, rfl, rfl, rfl, rfl, rfl, rfl, rfl⟩, rfl, fun _ => rfl⟩).trans (State.readLineCountByte_onChannel
        (State.updRow d (fun r => { r with a2a := r.a1t }) { s with currentChannel := some d }) d)
      simp only
      split
      · rw [h2.rest]; exact h d
      · simp [hasBit_withoutBit]
    · exact h d
  · rw [hit.active d hd, hit.ended d hd, hit.keeps.hdmaen]
    exact h d

/-- After `InitializeHDMALines` the masks agree, whatever they were. -/
theorem State.initializeHDMALines_masks (s : State) : s.initializeHDMALines.masksAgree := by
  have : s.initLoop.masksAgree :=
    foldl_keeps (P := State.masksAgree) _ allChans (fun s c _ h => s.initChannel_masks c h) _ (by
      intro d; simp [hasBit])
  rw [State.initializeHDMALines_eq]
  exact this

theorem State.hdmaLine_masks (s : State) (h : s.masksAgree) : s.hdmaLine.masksAgree := by
  unfold State.hdmaLine
  split
  · exact h
  · rw [State.advanceHDMALines_eq]
    intro d hd
    have hs := s.advanceLoop_subset s.hdmaActive d hd
    have he := s.advanceLoop_ended s.hdmaActive d
    simp only at hd
    obtain ⟨h1, h2⟩ := h d hs
    refine ⟨?_, ?_⟩
    · simp only [State.leaveHDMA_hdmaEnded, he, h1, hd]; simp
    · simp only [State.leaveHDMA_hdmaen, (s.advanceLoop_keeps _).hdmaen]; exact h2

/-! ## Line counts -/

theorem State.initChannel_counts (s : State) (c : Chan) (h : ∀ d, (s.row d).lineCountOk) (d : Chan) :
    ((s.initChannel c).row d).lineCountOk := by
  by_cases hd : d = c
  · subst hd
    unfold State.initChannel
    split
    · simp only
      split <;> exact State.readLineCountByte_count _ d
    · rw [State.updRow_row_self]; exact h d
  · rw [(s.initChannel_iteration c).others d hd]; exact h d

theorem State.lineGroup_lineCount (s : State) (c : Chan) :
    ((s.lineGroup c).row c).lineCount = (s.row c).lineCount ∧ ((s.lineGroup c).row c).rep = (s.row c).rep := by
  unfold State.lineGroup
  simp only
  split
  · split
    · obtain ⟨p, hp⟩ := State.moveGroup_row s.oamFix c (s.row c).ind
      rw [hp]; simp only [State.oamFix_row, Channel.advanceSource]; split <;> exact ⟨rfl, rfl⟩
    · obtain ⟨p, hp⟩ := State.moveGroup_row s c (s.row c).ind
      rw [hp]; simp only [Channel.advanceSource]; split <;> exact ⟨rfl, rfl⟩
  · exact ⟨rfl, rfl⟩

theorem advanceChannel_counts (m : Mask) (s : State) (c : Chan) (h : ∀ d, (s.row d).lineCountOk) (d : Chan) :
    ((advanceChannel (m, s) c).2.row d).lineCountOk := by
  by_cases hd : d = c
  · subst hd
    unfold advanceChannel
    simp only
    split
    · split
      · split <;> exact State.readLineCountByte_count _ d
      · next hz =>
        have hl := (State.lineGroup_lineCount { s with currentChannel := some d } d).1
        have h0 := h d
        unfold Channel.lineCountOk at h0 ⊢
        simp only [State.updRow_row_self, Channel.countLine, hl] at hz
        simp only [State.addCycles_row, State.updRow_row_self, Channel.countLine, hl]
        have e : ((s.row d).lineCount - 1).toNat = (s.row d).lineCount.toNat - 1 := by
          rw [BitVec.toNat_sub_of_le]
          · rfl
          · simp only [BitVec.le_def]; exact h0.1
        have hz' : ((s.row d).lineCount - 1).toNat ≠ 0 := fun e' => hz (BitVec.eq_of_toNat_eq e')
        change 1 ≤ ((s.row d).lineCount - 1).toNat ∧ ((s.row d).lineCount - 1).toNat ≤ 128
        omega
    · exact h d
  · rw [(advanceChannel_iteration m s c).others d hd]; exact h d

theorem State.initializeHDMALines_counts (s : State) (h : ∀ d, (s.row d).lineCountOk) (d : Chan) :
    (s.initializeHDMALines.row d).lineCountOk := by
  rw [State.initializeHDMALines_eq]
  exact foldl_keeps (P := fun s : State => ∀ d, (s.row d).lineCountOk) _ allChans
    (fun s c _ h => s.initChannel_counts c h) _ (by simpa using h) d

theorem State.advanceHDMALines_counts (mask : Mask) (s : State) (h : ∀ d, (s.row d).lineCountOk) (d : Chan) :
    ((s.advanceHDMALines mask).2.row d).lineCountOk := by
  rw [State.advanceHDMALines_eq]
  exact foldl_keeps (P := fun p : Mask × State => ∀ d, (p.2.row d).lineCountOk) advanceChannel allChans
    (fun p c _ h => advanceChannel_counts p.1 p.2 c h) (mask, s.advancePrelude mask) h d

theorem State.hdmaLine_counts (s : State) (h : ∀ d, (s.row d).lineCountOk) (d : Chan) :
    (s.hdmaLine.row d).lineCountOk := by
  unfold State.hdmaLine
  split
  · exact h d
  · exact s.advanceHDMALines_counts _ h d

/-! ## The cycle sink -/

/-- What the environment's part of a sink can do: as `EnvStep`, but the script moves on and `NMIPending` may change. -/
structure SinkStep (e e' : Env) : Prop where
  inbox : e'.inbox = e.inbox
  present : e'.sdd1Present = e.sdd1Present
  buf : e'.sdd1Buf = e.sdd1Buf
  map : e'.aMap = e.aMap
  memory : Memory.wf e.aMem = true → Memory.wf e'.aMem = true
  grows : ∃ new, e'.trace = new ++ e.trace ∧ e'.cycles = e.cycles + cyclesOf new ∧ ∀ x ∈ new, x.what.fromEngine = true

theorem EnvStep.sink {e e' : Env} (h : EnvStep e e') : SinkStep e e' :=
  ⟨h.inbox, h.present, h.buf, h.map, h.memory, h.grows⟩

theorem SinkStep.refl (e : Env) : SinkStep e e := (EnvStep.refl e).sink

theorem SinkStep.trans {e e' e'' : Env} (h : SinkStep e e') (h' : SinkStep e' e'') : SinkStep e e'' := by
  obtain ⟨n, ht, hc, hw⟩ := h.grows
  obtain ⟨n', ht', hc', hw'⟩ := h'.grows
  refine ⟨h'.inbox.trans h.inbox, h'.present.trans h.present,
    h'.buf.trans h.buf, h'.map.trans h.map, fun m => h'.memory (h.memory m), n' ++ n, ?_, ?_, ?_⟩
  · rw [ht', ht, List.append_assoc]
  · rw [hc', hc, cyclesOf_append]; omega
  · intro x hx
    rcases List.mem_append.1 hx with hx | hx
    · exact hw' x hx
    · exact hw x hx

/-- What the events of a sink leave unchanged: the flags of before, the DMA's globals and locals, the rows'
configuration, `A1T`, and `DAS` of a direct channel; the line counts stay in range and the masks agree. -/
structure SinkKeeps (s t : State) : Prop where
  inDMA : t.inDMA = s.inDMA
  inHDMA : s.inHDMA = false → t.inHDMA = false
  inEither : s.inHDMA = false → s.inEither = s.inDMA → t.inEither = s.inEither
  current : t.currentChannel = s.currentChannel
  hdmaen : t.hdmaen = s.hdmaen
  mdmaen : t.mdmaen = s.mdmaen
  patternStep : t.patternStep = s.patternStep
  sdd1Flag : t.sdd1Flag = s.sdd1Flag
  seq : t.seq = s.seq
  rows : ∀ d, RowKeeps (s.row d) (t.row d)
  counts : (∀ d, (s.row d).lineCountOk) → ∀ d, (t.row d).lineCountOk
  masks : s.masksAgree → t.masksAgree
  env : SinkStep s.env t.env

theorem SinkKeeps.refl (s : State) : SinkKeeps s s :=
  ⟨rfl, id, fun _ _ => rfl, rfl, rfl, rfl, rfl, rfl, rfl, fun _ => RowKeeps.refl _, id, id, SinkStep.refl _⟩

theorem SinkKeeps.trans {s t u : State} (h : SinkKeeps s t) (h' : SinkKeeps t u) : SinkKeeps s u := by
  refine ⟨h'.inDMA.trans h.inDMA, fun x => h'.inHDMA (h.inHDMA x), fun x y => ?_, h'.current.trans h.current,
    h'.hdmaen.trans h.hdmaen, h'.mdmaen.trans h.mdmaen, h'.patternStep.trans h.patternStep,
    h'.sdd1Flag.trans h.sdd1Flag, h'.seq.trans h.seq, fun d => (h.rows d).trans (h'.rows d),
    fun x => h'.counts (h.counts x), fun x => h'.masks (h.masks x), h.env.trans h'.env⟩
  have := h.inEither x y
  exact (h'.inEither (h.inHDMA x) (by rw [this, y, h.inDMA])).trans this

theorem SinkKeeps.foldl {α : Type} (f : State → α → State) (hf : ∀ s a, SinkKeeps s (f s a)) (l : List α) (s : State) :
    SinkKeeps s (l.foldl f s) := by
  induction l generalizing s with
  | nil => exact SinkKeeps.refl s
  | cons a l ih => exact (hf s a).trans (ih (f s a))

theorem State.initializeHDMALines_sink (s : State) : SinkKeeps s s.initializeHDMALines := by
  obtain ⟨k, a, b, c⟩ := s.initializeHDMALines_call
  exact ⟨k.inDMA, fun _ => a, fun _ h => b.trans h.symm, c, k.hdmaen, k.mdmaen, k.patternStep, k.sdd1Flag, k.seq, k.rows,
    s.initializeHDMALines_counts, fun _ => s.initializeHDMALines_masks, k.env.sink⟩

theorem State.hdmaLine_sink (s : State) : SinkKeeps s s.hdmaLine := by
  by_cases ha : s.hdmaActive = 0
  · have : s.hdmaLine = s := by simp [State.hdmaLine, ha]
    rw [this]; exact SinkKeeps.refl s
  · have hk : HdmaCall s s.hdmaLine := by
      unfold State.hdmaLine
      simp only [ha, if_false]
      obtain ⟨k, a, b, c⟩ := s.advanceHDMALines_call s.hdmaActive
      exact ⟨k.trans ⟨rfl, rfl, rfl, rfl, rfl, rfl, fun _ => RowKeeps.refl _, EnvStep.refl _⟩, a, b, c⟩
    obtain ⟨k, a, b, c⟩ := hk
    exact ⟨k.inDMA, fun _ => a, fun _ h => b.trans h.symm, c, k.hdmaen, k.mdmaen, k.patternStep, k.sdd1Flag, k.seq, k.rows,
      s.hdmaLine_counts, s.hdmaLine_masks, k.env.sink⟩

theorem State.deliver_sink (s : State) (d : Due) : SinkKeeps s (s.deliver d) := by
  have hnmi : ∀ lv : Bool, SinkKeeps s { s with env := { s.env with nmiPending := lv } } := fun lv =>
    ⟨rfl, id, fun _ _ => rfl, rfl, rfl, rfl, rfl, rfl, rfl, fun _ => RowKeeps.refl _, id, id,
      ⟨rfl, rfl, rfl, rfl, id, [], by simp⟩⟩
  unfold State.deliver
  obtain ⟨i, l, n⟩ := d
  cases n <;> cases i <;> cases l
  all_goals simp only [Bool.false_eq_true, if_true, if_false]
  · exact SinkKeeps.refl s
  · exact s.hdmaLine_sink
  · exact s.initializeHDMALines_sink
  · exact s.initializeHDMALines_sink.trans (State.hdmaLine_sink _)
  · exact hnmi _
  · exact (hnmi _).trans (State.hdmaLine_sink _)
  · exact (hnmi _).trans (State.initializeHDMALines_sink _)
  · exact ((hnmi _).trans (State.initializeHDMALines_sink _)).trans (State.hdmaLine_sink _)

theorem State.nextDue_sink (s : State) : SinkKeeps s s.nextDue.2 := by
  unfold State.nextDue
  split
  · exact ⟨rfl, id, fun _ _ => rfl, rfl, rfl, rfl, rfl, rfl, rfl, fun _ => RowKeeps.refl _, id, id,
      ⟨rfl, rfl, rfl, rfl, id, [], by simp⟩⟩
  · exact SinkKeeps.refl s

theorem Quiet.sink {s t : State} (h : Quiet s t) : SinkKeeps s t := by
  have k := h.keeps
  refine ⟨k.inDMA, fun x => ?_, fun _ _ => ?_, ?_, k.hdmaen, k.mdmaen, k.patternStep, k.sdd1Flag, k.seq, k.rows,
    fun x d => ?_, fun x => ?_, h.env.sink⟩
  · rw [h.rest]; exact x
  · rw [h.rest]
  · rw [h.rest]
  · rw [h.row d]; exact x d
  · rw [h.rest]; exact x

/-- The sink as a whole: everything in `SinkKeeps`, and `HDMARanInDMA` is 0 after it (R192). -/
theorem State.cycleSink_keeps (s : State) (c : Chan) :
    SinkKeeps s (s.cycleSink c).2 ∧ (s.cycleSink c).2.hdmaRanInDMA = 0 := by
  unfold State.cycleSink
  refine ⟨?_, rfl⟩
  have h := ((s.addCycles_quiet Config.byteCost).sink.trans (State.nextDue_sink _)).trans
    (SinkKeeps.foldl (fun s d => s.deliver d) State.deliver_sink (s.addCycles Config.byteCost).nextDue.1
      (s.addCycles Config.byteCost).nextDue.2)
  exact h.trans ⟨rfl, id, fun _ _ => rfl, rfl, rfl, rfl, rfl, rfl, rfl, fun _ => RowKeeps.refl _, id, id, SinkStep.refl _⟩

end Sys2Proof.Machine
end

