-- ==== Sys2Proof/Laws/Access.lean ====
section
/-! SUPPORT. What the outside sees of the byte mover: each access as the observation it adds, the accesses of a run of
moves and of a group, and what memory holds after them. -/

namespace Sys2Proof.Machine

/-! ## Accesses of a trace -/

@[simp] theorem accesses_nil : accesses [] = [] := rfl

theorem accesses_append (new old : List Entry) : accesses (new ++ old) = accesses old ++ accesses new := by
  simp [accesses, List.map_append, List.filter_append, List.reverse_append]

theorem accesses_cons_none (x : Entry) (l : List Entry) (h : x.what.isAccess = false) : accesses (x :: l) = accesses l := by
  simp [accesses, h]

theorem accesses_cons_some (x : Entry) (l : List Entry) (h : x.what.isAccess = true) :
    accesses (x :: l) = accesses l ++ [x.what] := by
  simp [accesses, h]

/-! ## Single accesses -/

/-- A draw changes the counters of free values only. -/
theorem Env.draw_eq (e : Env) : e.draw.2 = { e with answers := e.draw.2.answers, drawn := e.draw.2.drawn } := by
  unfold Env.draw; split <;> rfl

theorem Env.readByte_eq (e : Env) (a : AAddr) :
    (e.readByte a).2 = { e with answers := (e.readByte a).2.answers, drawn := (e.readByte a).2.drawn } := by
  unfold Env.readByte
  split
  · rfl
  · exact e.draw_eq

/-- A byte memory holds is the byte `ReadByte` answers (R82). -/
theorem Env.readByte_known {e : Env} {a : AAddr} {w : Byte} (h : e.peek a = some w) : (e.readByte a).1 = w := by
  unfold Env.readByte; rw [h]

theorem State.aRead_known {s : State} {a : AAddr} {w : Byte} (h : s.env.peek a = some w) : (s.aRead a).1 = w :=
  Env.readByte_known h

theorem State.aRead_env (s : State) (a : AAddr) :
    (s.aRead a).2.env = { s.env with
      trace := ⟨.readByte a (s.aRead a).1, s.context⟩ :: s.env.trace
      answers := (s.aRead a).2.env.answers, drawn := (s.aRead a).2.env.drawn } := by
  have h := s.env.readByte_eq a
  change ({ (s.env.readByte a).2 with
    trace := ⟨.readByte a (s.env.readByte a).1, s.context⟩ :: (s.env.readByte a).2.trace } : Env) = _
  rw [h]
  rfl

theorem State.bRead_env (s : State) (off : Byte) :
    (s.bRead off).2.env = { s.env with
      trace := ⟨.readRegister (bbusAddr off) (s.bRead off).1, s.context⟩ :: s.env.trace
      answers := (s.bRead off).2.env.answers, drawn := (s.bRead off).2.env.drawn } := by
  have h := s.env.draw_eq
  change ({ s.env.draw.2 with
    trace := ⟨.readRegister (bbusAddr off) s.env.draw.1, s.context⟩ :: s.env.draw.2.trace } : Env) = _
  rw [h]
  rfl

/-- What an address reads as depends on the regions and the cells alone. -/
theorem Env.peek_congr {e e' : Env} (hm : e'.aMap = e.aMap) (hc : e'.aMem = e.aMem) (a : AAddr) : e'.peek a = e.peek a := by
  unfold Env.peek Env.kindAt
  rw [hm, hc]

theorem Env.kindAt_congr {e e' : Env} (hm : e'.aMap = e.aMap) (a : Nat) : e'.kindAt a = e.kindAt a := by
  unfold Env.kindAt
  rw [hm]

theorem State.aRead_peek (s : State) (a b : AAddr) : (s.aRead a).2.env.peek b = s.env.peek b := by
  rw [s.aRead_env a]; exact Env.peek_congr rfl rfl b

theorem State.bRead_peek (s : State) (off : Byte) (b : AAddr) : (s.bRead off).2.env.peek b = s.env.peek b := by
  rw [s.bRead_env off]; exact Env.peek_congr rfl rfl b

theorem State.aWrite_peek_self (s : State) (a : AAddr) (v : Byte) (h : s.env.kindAt a.toNat = some .ram) :
    (s.aWrite a v).env.peek a = some v := s.env.peek_store_self a v h

theorem State.aWrite_peek_ne (s : State) {a b : AAddr} (v : Byte) (h : b ≠ a) :
    (s.aWrite a v).env.peek b = s.env.peek b := s.env.peek_store_ne v h

/-! ## One byte moved -/

/-- The two accesses of a byte moved between `a` and `off`, in order (R176, R177, R229). -/
def moveAccesses (dir : Bool) (off : Byte) (a : AAddr) (v : Byte) : List Observed :=
  if dir then [.readRegister (bbusAddr off) v, .writeByte a v] else [.readByte a v, .writeRegister (bbusAddr off) v]

/-- The byte a move carries. -/
def State.movedByte (dir : Bool) (off : Byte) (a : AAddr) (s : State) : Byte :=
  if dir then (s.bRead off).1 else (s.aRead a).1

theorem State.moveByte_env (s : State) (dir : Bool) (off : Byte) (a : AAddr) :
    (s.moveByte dir off a).env = { s.env with
      trace := (moveAccesses dir off a (s.movedByte dir off a)).reverse.map (fun w => ⟨w, s.context⟩) ++ s.env.trace
      aMem := (s.moveByte dir off a).env.aMem
      answers := (s.moveByte dir off a).env.answers, drawn := (s.moveByte dir off a).env.drawn } := by
  cases dir
  · have h := s.aRead_env a
    apply Env.ext
    case trace => exact congrArg (List.cons _) (congrArg Env.trace h)
    case cycles => have e := congrArg Env.cycles h; exact e
    case nmiPending => have e := congrArg Env.nmiPending h; exact e
    case sdd1Present => have e := congrArg Env.sdd1Present h; exact e
    case sdd1Buf => have e := congrArg Env.sdd1Buf h; exact e
    case aMap => have e := congrArg Env.aMap h; exact e
    case inbox => have e := congrArg Env.inbox h; exact e
    case script => have e := congrArg Env.script h; exact e
    all_goals rfl
  · have h := s.bRead_env off
    have h2 : ∀ t : State, ∀ v, (t.aWrite a v).env = { t.env with
        trace := ⟨.writeByte a v, t.context⟩ :: t.env.trace, aMem := (t.aWrite a v).env.aMem } := by
      intro t v
      rw [State.aWrite_env, Env.store_eq]
    have h3 := h2 (s.bRead off).2 (s.bRead off).1
    apply Env.ext
    case trace => exact (congrArg Env.trace h3).trans (congrArg (List.cons _) (congrArg Env.trace h))
    case cycles => have e := congrArg Env.cycles h3; have e2 := congrArg Env.cycles h; exact e.trans e2
    case nmiPending => have e := congrArg Env.nmiPending h3; have e2 := congrArg Env.nmiPending h; exact e.trans e2
    case sdd1Present => have e := congrArg Env.sdd1Present h3; have e2 := congrArg Env.sdd1Present h; exact e.trans e2
    case sdd1Buf => have e := congrArg Env.sdd1Buf h3; have e2 := congrArg Env.sdd1Buf h; exact e.trans e2
    case aMap => have e := congrArg Env.aMap h3; have e2 := congrArg Env.aMap h; exact e.trans e2
    case inbox => have e := congrArg Env.inbox h3; have e2 := congrArg Env.inbox h; exact e.trans e2
    case script => have e := congrArg Env.script h3; have e2 := congrArg Env.script h; exact e.trans e2
    all_goals rfl

theorem State.moveByte_forward_mem (s : State) (off : Byte) (a : AAddr) :
    (s.moveByte false off a).env.aMem = s.env.aMem := by
  change (s.aRead a).2.env.aMem = _
  rw [s.aRead_env a]

theorem State.moveByte_aMap (s : State) (dir : Bool) (off : Byte) (a : AAddr) :
    (s.moveByte dir off a).env.aMap = s.env.aMap := by
  rw [s.moveByte_env dir off a]

theorem State.movedByte_known {s : State} {off : Byte} {a : AAddr} {w : Byte} (h : s.env.peek a = some w) :
    s.movedByte false off a = w := State.aRead_known h

/-- A reverse byte is what RAM holds after it. -/
theorem State.moveByte_reverse_self (s : State) (off : Byte) (a : AAddr) (h : s.env.kindAt a.toNat = some .ram) :
    (s.moveByte true off a).env.peek a = some (s.movedByte true off a) := by
  refine State.aWrite_peek_self (s.bRead off).2 a _ ?_
  rw [s.bRead_env off]; exact h

/-- No other address reads otherwise after a byte is moved, and none at all after a forward byte. -/
theorem State.moveByte_peek (s : State) (dir : Bool) (off : Byte) (a b : AAddr) (h : dir = false ∨ b ≠ a) :
    (s.moveByte dir off a).env.peek b = s.env.peek b := by
  cases dir with
  | false => exact Env.peek_congr (s.moveByte_aMap _ _ _) (s.moveByte_forward_mem off a) b
  | true =>
    have hb : b ≠ a := h.resolve_left (by decide)
    exact ((s.bRead off).2.aWrite_peek_ne _ hb).trans (s.bRead_peek off b)

/-! ## A run of moved bytes -/

/-- What a run of moves over a list of indices does, byte `i` between `addr i` and `off i`, each followed by its cycles:
the accesses in order, the cycles, and memory. -/
structure Moves (dir : Bool) (off : Nat → Byte) (addr : Nat → AAddr) (l : List Nat) (s t : State) (v : Nat → Byte)
    (new : List Entry) : Prop where
  trace : t.env.trace = new ++ s.env.trace
  acc : accesses new = l.flatMap fun i => moveAccesses dir (off i) (addr i) (v i)
  ctx : ∀ x ∈ new, x.ctx = s.context
  cycles : t.env.cycles = s.env.cycles + Config.byteCost * l.length
  map : t.env.aMap = s.env.aMap
  known : dir = false → ∀ i ∈ l, ∀ w, s.env.peek (addr i) = some w → v i = w
  stored : dir = true → (∀ i ∈ l, ∀ j ∈ l, addr i = addr j → i = j) →
    ∀ i ∈ l, s.env.kindAt (addr i).toNat = some .ram → t.env.peek (addr i) = some (v i)
  others : ∀ x, dir = false ∨ (∀ i ∈ l, x ≠ addr i) → t.env.peek x = s.env.peek x

/-- The run itself. -/
theorem moves_foldl (dir : Bool) (off : Nat → Byte) (addr : Nat → AAddr) (l : List Nat) (hn : l.Nodup) (s : State) :
    ∃ v new, Moves dir off addr l s
      (l.foldl (fun s i => (s.moveByte dir (off i) (addr i)).addCycles Config.byteCost) s) v new := by
  induction l generalizing s with
  | nil =>
    exact ⟨fun _ => 0, [], ⟨rfl, rfl, by simp, by simp, rfl, by simp, by simp, fun _ _ => rfl⟩⟩
  | cons i l ih =>
    obtain ⟨hi, hl⟩ := List.nodup_cons.1 hn
    let m := (s.moveByte dir (off i) (addr i)).addCycles Config.byteCost
    obtain ⟨v, new, h⟩ := ih hl m
    have hctx : m.context = s.context := by
      have := (s.moveByte_quiet dir (off i) (addr i)).rest
      change (s.moveByte dir (off i) (addr i)).context = _
      rw [this]; rfl
    have hmenv := s.moveByte_env dir (off i) (addr i)
    have hctx' : (s.moveByte dir (off i) (addr i)).context = s.context := hctx
    have hmt : m.env.trace = ⟨.addCycles Config.byteCost, s.context⟩ ::
        ((moveAccesses dir (off i) (addr i) (s.movedByte dir (off i) (addr i))).reverse.map (fun w => ⟨w, s.context⟩) ++
          s.env.trace) := by
      change (_ :: (s.moveByte dir (off i) (addr i)).env.trace) = _
      rw [hmenv, hctx']
    have hpeek : ∀ b, dir = false ∨ b ≠ addr i → m.env.peek b = s.env.peek b := fun b hb =>
      s.moveByte_peek dir (off i) (addr i) b hb
    refine ⟨fun j => if j = i then s.movedByte dir (off i) (addr i) else v j,
      new ++ ⟨.addCycles Config.byteCost, s.context⟩ ::
        (moveAccesses dir (off i) (addr i) (s.movedByte dir (off i) (addr i))).reverse.map (fun w => ⟨w, s.context⟩), ?_⟩
    refine ⟨?_, ?_, ?_, ?_, ?_, ?_, ?_, ?_⟩
    · rw [List.foldl_cons]
      change (l.foldl _ m).env.trace = _
      rw [h.trace, hmt]; simp
    · have hm : ∀ (w : Byte) (x : Context), accesses (⟨.addCycles Config.byteCost, x⟩ ::
          (moveAccesses dir (off i) (addr i) w).reverse.map (fun w => ⟨w, x⟩)) = moveAccesses dir (off i) (addr i) w := by
        intro w x
        unfold moveAccesses
        cases dir <;> rfl
      have hr : (l.flatMap fun j => moveAccesses dir (off j) (addr j)
          (if j = i then s.movedByte dir (off i) (addr i) else v j)) =
          l.flatMap fun j => moveAccesses dir (off j) (addr j) (v j) := by
        apply List.flatMap_congr
        intro j hj
        have : j ≠ i := fun e => hi (e ▸ hj)
        rw [if_neg this]
      rw [accesses_append, hm, h.acc, List.flatMap_cons, hr, if_pos rfl]
    · intro x hx
      rcases List.mem_append.1 hx with hx | hx
      · exact (h.ctx x hx).trans hctx
      · rcases List.mem_cons.1 hx with hx | hx
        · rw [hx]
        · obtain ⟨w, -, hw⟩ := List.mem_map.1 hx
          rw [← hw]
    · rw [List.foldl_cons]
      change (l.foldl _ m).env.cycles = _
      have : m.env.cycles = s.env.cycles + Config.byteCost := by
        change (s.moveByte dir (off i) (addr i)).env.cycles + _ = _
        rw [hmenv]
      rw [h.cycles, this, List.length_cons, Nat.mul_add, Nat.mul_one]
      omega
    · rw [List.foldl_cons]
      exact h.map.trans (s.moveByte_aMap dir (off i) (addr i))
    · intro hd j hj w hw
      rcases List.mem_cons.1 hj with e | hj
      · subst e; subst hd; simp only [if_true]; exact State.movedByte_known hw
      · have hne : j ≠ i := fun e => hi (e ▸ hj)
        simp only [hne, if_false]
        exact h.known hd j hj w (by rw [hpeek _ (Or.inl hd)]; exact hw)
    · intro hd hinj j hj hr
      rw [List.foldl_cons]
      change (l.foldl _ m).env.peek (addr j) = _
      rcases List.mem_cons.1 hj with e | hj
      · subst e
        simp only [if_true]
        rw [h.others (addr j) (Or.inr fun k hk e => hi (by
          rw [hinj j List.mem_cons_self k (List.mem_cons_of_mem _ hk) e]; exact hk))]
        subst hd
        exact s.moveByte_reverse_self (off j) (addr j) hr
      · have hne : j ≠ i := fun e => hi (e ▸ hj)
        simp only [hne, if_false]
        refine h.stored hd (fun a ha b hb => hinj a (List.mem_cons_of_mem _ ha) b (List.mem_cons_of_mem _ hb)) j hj ?_
        have hmm : m.env.aMap = s.env.aMap := s.moveByte_aMap dir (off i) (addr i)
        rw [Env.kindAt_congr hmm]; exact hr
    · intro x hx
      rw [List.foldl_cons]
      change (l.foldl _ m).env.peek x = _
      have h1 : dir = false ∨ x ≠ addr i := hx.imp id fun k => k i List.mem_cons_self
      rw [h.others x (hx.imp id fun k j hj => k j (List.mem_cons_of_mem _ hj)), hpeek x h1]

/-! ## One group -/

/-- The pointer resolution before a group adds no access and no cycles and changes no byte. -/
theorem State.groupPointer_silent (s : State) (c : Chan) (ind : Bool) :
    ∃ new, (s.groupPointer c ind).env = { s.env with trace := new ++ s.env.trace } ∧ accesses new = [] ∧
      (∀ x ∈ new, x.ctx = s.context) ∧ (s.groupPointer c ind).context = s.context := by
  unfold State.groupPointer
  split
  · exact ⟨[⟨.resolveDirect ((s.row c).sourceAddr ind), s.context⟩], rfl, rfl, by simp, rfl⟩
  · exact ⟨[], rfl, rfl, by simp, rfl⟩

/-- A group: its accesses, its cycles, memory, and its row. -/
theorem State.moveGroup_spec (s : State) (c : Chan) (ind : Bool) :
    ∃ (v : Nat → Byte) (new : List Entry) (p : Option AAddr),
      Moves (s.row c).dir (fun i => bOffset (s.row c).bbad (s.row c).mode (BitVec.ofNat 2 i))
        (fun i => aAddr ((s.row c).sourceBank ind) ((s.row c).sourceBase ind + BitVec.ofNat 16 i))
        (List.range (len (s.row c).mode)) s (s.moveGroup c ind) v new ∧
      (s.moveGroup c ind).row c = { (s.row c).advanceSource ind (len (s.row c).mode) with ptr := p } := by
  obtain ⟨np, hpe, hpa, hpc, hpx⟩ := s.groupPointer_silent c ind
  obtain ⟨p, hp⟩ := s.groupPointer_row c ind
  obtain ⟨q, hq⟩ := s.moveGroup_row c ind
  obtain ⟨v, new, h⟩ := moves_foldl (s.row c).dir (fun i => bOffset (s.row c).bbad (s.row c).mode (BitVec.ofNat 2 i))
    (fun i => aAddr ((s.row c).sourceBank ind) ((s.row c).sourceBase ind + BitVec.ofNat 16 i))
    (List.range (len (s.row c).mode)) List.nodup_range (s.groupPointer c ind)
  have henv : (s.moveGroup c ind).env = ((List.range (len (s.row c).mode)).foldl (fun u i =>
      (u.moveByte (s.row c).dir (bOffset (s.row c).bbad (s.row c).mode (BitVec.ofNat 2 i))
        (aAddr ((s.row c).sourceBank ind) ((s.row c).sourceBase ind + BitVec.ofNat 16 i))).addCycles Config.byteCost)
      (s.groupPointer c ind)).env := by
    unfold State.moveGroup
    simp only [State.updRow_env]
    rw [hp]
    rfl
  have hk : ∀ a, (s.groupPointer c ind).env.kindAt a = s.env.kindAt a := fun a => by rw [hpe]; rfl
  have hpk : ∀ a, (s.groupPointer c ind).env.peek a = s.env.peek a := fun a => by
    rw [hpe]; exact Env.peek_congr rfl rfl a
  refine ⟨v, new ++ np, q, ⟨?_, ?_, ?_, ?_, ?_, ?_, ?_, ?_⟩, hq⟩
  · rw [henv, h.trace, hpe]; simp
  · rw [accesses_append, hpa, h.acc]; rfl
  · intro x hx
    rcases List.mem_append.1 hx with hx | hx
    · exact (h.ctx x hx).trans hpx
    · exact hpc x hx
  · rw [henv, h.cycles, hpe]
  · rw [henv, h.map, hpe]
  · intro hd i hi w hw
    exact h.known hd i hi w (by rw [hpk]; exact hw)
  · intro hd hinj i hi hr
    rw [henv]
    exact h.stored hd hinj i hi (by rw [hk]; exact hr)
  · intro x hx
    rw [henv, h.others x hx, hpk]

/-- The addresses of a group are distinct: a group has at most 4 bytes. -/
theorem groupAddr_inj (bank : Byte) (base : Half) {i j : Nat} (hi : i < 4) (hj : j < 4)
    (h : aAddr bank (base + BitVec.ofNat 16 i) = aAddr bank (base + BitVec.ofNat 16 j)) : i = j := by
  have h2 : base + BitVec.ofNat 16 i = base + BitVec.ofNat 16 j := by
    have := congrArg (fun a : AAddr => a.setWidth 16) h
    simpa only [aAddr, BitVec.setWidth_append_eq_right] using this
  have h3 := congrArg BitVec.toNat (BitVec.add_right_inj base |>.1 h2)
  simp only [BitVec.toNat_ofNat] at h3
  omega

theorem len_le (m : BitVec 3) : 1 ≤ len m ∧ len m ≤ 4 := by revert m; decide

end Sys2Proof.Machine
end

