-- ==== Sys2Proof/Laws/Lines.lean ====
section
/-! SUPPORT. The line-count byte and one channel's iteration of each HDMA call, result by result: the row, the masks'
bits, the accesses in order, memory, cycles. -/

namespace Sys2Proof.Machine

/-! ## Accesses told -/

/-- What lies between two states was told: exactly these accesses, in this order. -/
def Tells (l : List Observed) (s t : State) : Prop := ∃ new, t.env.trace = new ++ s.env.trace ∧ accesses new = l

theorem Tells.trans {l m : List Observed} {s t u : State} (h : Tells l s t) (h' : Tells m t u) : Tells (l ++ m) s u := by
  obtain ⟨n, ht, ha⟩ := h
  obtain ⟨n', ht', ha'⟩ := h'
  exact ⟨n' ++ n, by rw [ht', ht, List.append_assoc], by rw [accesses_append, ha, ha']⟩

/-- Nothing but the trace decides. -/
theorem Tells.of_trace {s t : State} (h : t.env.trace = s.env.trace) : Tells [] s t := ⟨[], by simpa using h, rfl⟩

theorem Tells.congr {l : List Observed} {s s' t t' : State} (h : Tells l s t) (hs : s'.env.trace = s.env.trace)
    (ht : t'.env.trace = t.env.trace) : Tells l s' t' := by
  obtain ⟨n, e, ha⟩ := h
  exact ⟨n, by rw [ht, hs, e], ha⟩

/-! ## Operations that only read -/

/-- What an operation that only reads leaves: every byte of memory, the cycles besides `n`, and the accesses `l` told. -/
structure Reads (n : Nat) (l : List Observed) (s t : State) : Prop where
  peek : ∀ x, t.env.peek x = s.env.peek x
  map : t.env.aMap = s.env.aMap
  cycles : t.env.cycles = s.env.cycles + n
  told : Tells l s t

theorem Reads.trans {n m : Nat} {l k : List Observed} {s t u : State} (h : Reads n l s t) (h' : Reads m k t u) :
    Reads (n + m) (l ++ k) s u :=
  ⟨fun x => (h'.peek x).trans (h.peek x), h'.map.trans h.map, by rw [h'.cycles, h.cycles]; omega, h.told.trans h'.told⟩

theorem Reads.of_env {s t : State} (h : t.env = s.env) : Reads 0 [] s t :=
  ⟨fun x => by rw [h], by rw [h], by rw [h]; rfl, Tells.of_trace (by rw [h])⟩

theorem Reads.congr {n : Nat} {l : List Observed} {s s' t t' : State} (h : Reads n l s t) (hs : s'.env = s.env)
    (ht : t'.env = t.env) : Reads n l s' t' :=
  ⟨by rw [hs, ht]; exact h.peek, by rw [hs, ht]; exact h.map, by rw [hs, ht]; exact h.cycles,
    h.told.congr (by rw [hs]) (by rw [ht])⟩

theorem State.aRead_reads (s : State) (a : AAddr) : Reads 0 [.readByte a (s.aRead a).1] s (s.aRead a).2 :=
  ⟨s.aRead_peek a, by rw [s.aRead_env a], by rw [s.aRead_env a]; rfl,
    [⟨.readByte a (s.aRead a).1, s.context⟩], by rw [s.aRead_env a]; rfl, rfl⟩

theorem State.addCycles_reads (s : State) (n : Nat) : Reads n [] s (s.addCycles n) :=
  ⟨fun x => Env.peek_congr rfl rfl x, rfl, rfl, [⟨.addCycles n, s.context⟩], rfl, rfl⟩

theorem State.updRow_reads (s : State) (c : Chan) (f : Channel → Channel) : Reads 0 [] s (s.updRow c f) :=
  Reads.of_env rfl

theorem State.resolvePtr_reads (s : State) (c : Chan) (ind : Bool) : Reads 0 [] s (s.resolvePtr c ind) :=
  ⟨fun x => Env.peek_congr rfl rfl x, rfl, rfl, [⟨.resolveDirect ((s.row c).sourceAddr ind), s.context⟩], rfl, rfl⟩

/-! ## The line-count byte -/

/-- Some byte agrees with what memory holds at an address, if it holds one. -/
theorem Env.exists_known (e : Env) (a : AAddr) : ∃ v, ∀ w, e.peek a = some w → v = w := by
  cases e.peek a with
  | none => exact ⟨0, fun w hw => by cases hw⟩
  | some w => exact ⟨w, fun w' hw => Option.some.inj hw⟩

/-- The two bytes of an indirect address: read, known where memory knows them, the new `DAS` (R222 lines 9 to 15). -/
theorem State.fetchIndirect_spec (s : State) (c : Chan) :
    ∃ lo hi p,
      (s.fetchIndirect c).row c = { s.row c with das := hi ++ lo, a2a := (s.row c).a2a + 2, ptr := p } ∧
      Reads 16 [.readByte (aAddr (s.row c).a1b (s.row c).a2a) lo, .readByte (aAddr (s.row c).a1b ((s.row c).a2a + 1)) hi]
        s (s.fetchIndirect c) ∧
      (∀ w, s.env.peek (aAddr (s.row c).a1b (s.row c).a2a) = some w → lo = w) ∧
      ∀ w, s.env.peek (aAddr (s.row c).a1b ((s.row c).a2a + 1)) = some w → hi = w := by
  obtain ⟨p, hp⟩ := s.fetchIndirect_row c
  have h1 := s.aRead_reads (s.row c).tableAddr
  have h2 := State.aRead_reads (s.aRead (s.row c).tableAddr).2 (aAddr (s.row c).a1b ((s.row c).a2a + 1))
  refine ⟨_, _, p, hp, ?_, fun w hw => State.aRead_known hw, fun w hw => State.aRead_known ((h1.peek _).trans hw)⟩
  have h3 := (h1.trans h2).trans (State.addCycles_reads _ 16)
  exact (h3.trans (State.updRow_reads _ c _)).trans (State.resolvePtr_reads _ c true)

/-- The row of an entry just opened, whole, and its accesses. -/
theorem State.openEntry_spec (s : State) (c : Chan) (rep : Bool) (count : Byte) :
    ∃ lo hi p,
      (s.openEntry c rep count).row c = { s.row c with
        das := if (s.row c).ind then hi ++ lo else (s.row c).das
        ptr := p, rep := rep, lineCount := count, doTransfer := true
        a2a := (s.row c).a2a + (if (s.row c).ind then 3 else 1) } ∧
      Reads (if (s.row c).ind then 16 else 0)
        (if (s.row c).ind then [.readByte (aAddr (s.row c).a1b ((s.row c).a2a + 1)) lo,
          .readByte (aAddr (s.row c).a1b ((s.row c).a2a + 2)) hi] else []) s (s.openEntry c rep count) ∧
      (∀ w, s.env.peek (aAddr (s.row c).a1b ((s.row c).a2a + 1)) = some w → lo = w) ∧
      ∀ w, s.env.peek (aAddr (s.row c).a1b ((s.row c).a2a + 2)) = some w → hi = w := by
  unfold State.openEntry
  simp only [State.updRow_row_self]
  generalize hu : s.updRow c (fun r => { r with a2a := r.a2a + 1, rep := rep, lineCount := count, doTransfer := true }) = u
  have hr : u.row c = { s.row c with a2a := (s.row c).a2a + 1, rep := rep, lineCount := count, doTransfer := true } := by
    rw [← hu, State.updRow_row_self]
  have h : Reads 0 [] s u := hu ▸ s.updRow_reads c _
  have e2 : (s.row c).a2a + 1 + 1 = (s.row c).a2a + 2 := by rw [BitVec.add_assoc]; rfl
  have e3 : (s.row c).a2a + 1 + 2 = (s.row c).a2a + 3 := by rw [BitVec.add_assoc]; rfl
  cases hi : (s.row c).ind with
  | false =>
    obtain ⟨lo, hlo⟩ := s.env.exists_known (aAddr (s.row c).a1b ((s.row c).a2a + 1))
    obtain ⟨hb, hhb⟩ := s.env.exists_known (aAddr (s.row c).a1b ((s.row c).a2a + 2))
    refine ⟨lo, hb, u.env.directPointer ((u.row c).sourceAddr false), ?_, h.trans (u.resolvePtr_reads c false), hlo, hhb⟩
    simp only [Bool.false_eq_true, if_false]
    rw [State.resolvePtr_row, hr]
    simp only [hi]
  | true =>
    obtain ⟨lo, hb, p, h1, h2, h3, h4⟩ := u.fetchIndirect_spec c
    rw [hr] at h1 h2 h3 h4
    simp only [e2, e3] at h1 h2 h3 h4
    refine ⟨lo, hb, p, ?_, h.trans h2, fun w hw => h3 w ((h.peek _).trans hw), fun w hw => h4 w ((h.peek _).trans hw)⟩
    simp only [if_true]
    rw [h1]
    simp only [hi]

theorem lineCountOf_eq (b : Byte) :
    lineCountOf (b.extractLsb' 0 7) = BitVec.ofNat 8 (if b.toNat % 128 = 0 then 128 else b.toNat % 128) := by
  revert b; decide

/-- What the line-count byte `b` of channel `c` does (R222 lines 2 to 18): the row it leaves, the two bytes of its address
read and known where memory knows them, nothing else accessed. -/
structure LineResult (c : Chan) (b lo hi : Byte) (s t : State) : Prop where
  row : (s.row c).loads (s.row c).a2a b lo hi (t.row c)
  reads : Reads (if (s.row c).ind && !(b == 0) then 16 else 0)
    (if (s.row c).ind && !(b == 0) then [.readByte ((s.row c).a1b ++ ((s.row c).a2a + 1)) lo,
      .readByte ((s.row c).a1b ++ ((s.row c).a2a + 2)) hi] else []) s t
  lo : ∀ w, s.env.peek ((s.row c).a1b ++ ((s.row c).a2a + 1)) = some w → lo = w
  hi : ∀ w, s.env.peek ((s.row c).a1b ++ ((s.row c).a2a + 2)) = some w → hi = w

theorem State.lineByte_spec (s : State) (c : Chan) (b : Byte) : ∃ lo hi, LineResult c b lo hi s (s.lineByte c b) := by
  have hopen : ∀ (rep : Bool) (count : Byte), s.lineByte c b = s.openEntry c rep count → b ≠ 0 → rep = b.getLsbD 7 →
      count = lineCountOf (b.extractLsb' 0 7) → ∃ lo hi, LineResult c b lo hi s (s.lineByte c b) := by
    intro rep count he hb h1 h2
    obtain ⟨lo, hi, p, k1, k2, k3, k4⟩ := s.openEntry_spec c rep count
    have hz : (b == 0) = false := by simpa using hb
    refine ⟨lo, hi, ⟨p, ?_⟩, ?_, k3, k4⟩
    · rw [he, k1, h1, h2, lineCountOf_eq, hz]; simp only [Bool.not_false, Bool.and_true]
    · rw [he, hz]; simp only [Bool.not_false, Bool.and_true]; exact k2
  by_cases h0 : b = 0
  · subst h0
    obtain ⟨lo, hlo⟩ := s.env.exists_known ((s.row c).a1b ++ ((s.row c).a2a + 1))
    obtain ⟨hi, hhi⟩ := s.env.exists_known ((s.row c).a1b ++ ((s.row c).a2a + 2))
    refine ⟨lo, hi, ⟨none, ?_⟩, ?_, hlo, hhi⟩
    · rw [show s.lineByte c 0 = s.lineEnd c from rfl, State.lineEnd, State.updRow_row_self]
      simp only [beq_self_eq_true, Bool.not_true, Bool.and_false, Bool.false_eq_true, if_false]
      rfl
    · simp only [beq_self_eq_true, Bool.not_true, Bool.and_false, Bool.false_eq_true, if_false]
      exact Reads.of_env rfl
  · by_cases h80 : b = 0x80
    · exact hopen true 128 (by unfold State.lineByte; rw [if_neg h0, if_pos h80]; rfl) h0 (by rw [h80]; decide)
        (by rw [h80]; decide)
    · cases h7 : b.getLsbD 7
      · exact hopen false _ (by unfold State.lineByte; rw [if_neg h0, if_neg h80, if_neg (by rw [h7]; decide)]; rfl)
          h0 h7.symm rfl
      · exact hopen true _ (by unfold State.lineByte; rw [if_neg h0, if_neg h80, if_pos h7]; rfl) h0 h7.symm rfl

/-- The bytes `b`, `lo`, `hi` are those `known` says of the table from the in-bank address `a` on. -/
def Channel.tableKnown (known : AAddr → Byte → Prop) (a : Half) (b lo hi : Byte) (r : Channel) : Prop :=
  (∀ w, known (r.a1b ++ a) w → b = w) ∧ (∀ w, known (r.a1b ++ (a + 1)) w → lo = w) ∧
    ∀ w, known (r.a1b ++ (a + 2)) w → hi = w

theorem Channel.tableKnown.mono {k k' : AAddr → Byte → Prop} {a : Half} {b lo hi : Byte} {r : Channel}
    (h : r.tableKnown k a b lo hi) (hk : ∀ x w, k' x w → k x w) : r.tableKnown k' a b lo hi :=
  ⟨fun w x => h.1 w (hk _ _ x), fun w x => h.2.1 w (hk _ _ x), fun w x => h.2.2 w (hk _ _ x)⟩

/-- `ReadLineCountByte(c)`: the byte at `A1B:A2A`, what it says, its accesses and cycles (R222). -/
theorem State.readLineCountByte_spec (s : State) (c : Chan) :
    ∃ b lo hi : Byte, (s.readLineCountByte c).1 = !(b == 0) ∧
      (s.row c).loads (s.row c).a2a b lo hi ((s.readLineCountByte c).2.row c) ∧
      Reads (8 + if (s.row c).ind && !(b == 0) then 16 else 0) ((s.row c).tableAccesses (s.row c).a2a b lo hi) s
        (s.readLineCountByte c).2 ∧
      (s.row c).tableKnown (fun x w => s.env.peek x = some w) (s.row c).a2a b lo hi := by
  have h1 := (s.aRead_reads (s.row c).tableAddr).trans
    (State.addCycles_reads (s.aRead (s.row c).tableAddr).2 Config.byteCost)
  have hr : ((s.aRead (s.row c).tableAddr).2.addCycles Config.byteCost).row c = s.row c :=
    (s.aRead_quiet (s.row c).tableAddr).row c
  obtain ⟨lo, hi, k1, k2, k3, k4⟩ :=
    ((s.aRead (s.row c).tableAddr).2.addCycles Config.byteCost).lineByte_spec c (s.aRead (s.row c).tableAddr).1
  rw [hr] at k1 k2 k3 k4
  have h := h1.trans k2
  rw [show 0 + Config.byteCost = 8 from rfl] at h
  exact ⟨(s.aRead (s.row c).tableAddr).1, lo, hi, rfl, k1, h, fun w hw => State.aRead_known hw,
    fun w hw => k3 w ((h1.peek _).trans hw), fun w hw => k4 w ((h1.peek _).trans hw)⟩

/-! ## The iteration of `InitializeHDMALines` -/

/-- One channel of a frame start that is not enabled. -/
theorem State.initChannel_idle {s : State} {c : Chan} (hb : hasBit s.hdmaen c = false) :
    s.initChannel c = s.updRow c fun r => { r with doTransfer := false } := by
  unfold State.initChannel
  rw [if_neg (by rw [hb]; decide)]

/-- One enabled channel of a frame start: its row, its bits, its accesses and cycles. -/
theorem State.initChannel_spec {s : State} {c : Chan} (hb : hasBit s.hdmaen c = true) :
    ∃ b lo hi : Byte,
      (s.row c).loads (s.row c).a1t b lo hi ((s.initChannel c).row c) ∧
      Reads (8 + if (s.row c).ind && !(b == 0) then 16 else 0) ((s.row c).tableAccesses (s.row c).a1t b lo hi) s
        (s.initChannel c) ∧
      (s.row c).tableKnown (fun x w => s.env.peek x = some w) (s.row c).a1t b lo hi ∧
      hasBit (s.initChannel c).hdmaActive c = (hasBit s.hdmaActive c && !(b == 0)) ∧
      hasBit (s.initChannel c).hdmaEnded c = (hasBit s.hdmaEnded c || (b == 0)) := by
  let u : State := State.updRow c (fun r => { r with a2a := r.a1t }) { s with currentChannel := some c }
  have hu : u.row c = { s.row c with a2a := (s.row c).a1t } := State.updRow_row_self _ _ _
  obtain ⟨b, lo, hi, h1, h2, h3, h4⟩ := u.readLineCountByte_spec c
  have hon := u.readLineCountByte_onChannel c
  have he : s.initChannel c = if (u.readLineCountByte c).1 then (u.readLineCountByte c).2 else
      { (u.readLineCountByte c).2 with
        hdmaActive := withoutBit (u.readLineCountByte c).2.hdmaActive c
        hdmaEnded := withBit (u.readLineCountByte c).2.hdmaEnded c } := by
    unfold State.initChannel
    rw [if_pos hb]
  have ha : (u.readLineCountByte c).2.hdmaActive = s.hdmaActive := by rw [hon.rest]; rfl
  have hn : (u.readLineCountByte c).2.hdmaEnded = s.hdmaEnded := by rw [hon.rest]; rfl
  rw [hu] at h2 h3 h4
  obtain ⟨p, hp⟩ := h2
  refine ⟨b, lo, hi, ⟨p, ?_⟩, h3.congr rfl ?_, h4, ?_, ?_⟩
  · rw [he]
    cases (u.readLineCountByte c).1 <;> exact hp
  · rw [he]
    cases (u.readLineCountByte c).1 <;> rfl
  · rw [he, h1]
    cases hz : (b == 0)
    · simp [ha]
    · simp [hasBit_withoutBit]
  · rw [he, h1]
    cases hz : (b == 0)
    · simp [hn]
    · simp [hasBit_withBit]

/-! ## The iteration of `AdvanceHDMALines` -/

/-- The row after the group of a scanline. -/
theorem State.lineGroup_row (s : State) (c : Chan) :
    ∃ p, (s.lineGroup c).row c = { s.row c with das := (s.row c).lineDas, a2a := (s.row c).lineTable, ptr := p } := by
  unfold State.lineGroup Channel.lineDas Channel.lineTable
  simp only
  by_cases hd : (s.row c).doTransfer = true
  · have hl : (s.row c).lineBytes = BitVec.ofNat 16 (len (s.row c).mode) := by
      unfold Channel.lineBytes; rw [if_pos hd]
    rw [if_pos hd, hl]
    have key : ∀ u : State, u.row c = s.row c → ∃ p, (u.moveGroup c (s.row c).ind).row c = { s.row c with
        das := if (s.row c).ind then (s.row c).das + BitVec.ofNat 16 (len (s.row c).mode) else (s.row c).das
        a2a := if (s.row c).ind then (s.row c).a2a else (s.row c).a2a + BitVec.ofNat 16 (len (s.row c).mode)
        ptr := p } := by
      intro u hu
      obtain ⟨p, hp⟩ := u.moveGroup_row c (s.row c).ind
      refine ⟨p, ?_⟩
      rw [hp, hu]
      unfold Channel.advanceSource
      by_cases hi : (s.row c).ind = true <;> simp only [hi, if_true, if_false, Bool.false_eq_true]
    split
    · exact key s.oamFix rfl
    · exact key s rfl
  · have hl : (s.row c).lineBytes = 0 := by
      unfold Channel.lineBytes; rw [if_neg hd]; rfl
    rw [if_neg hd, hl]
    refine ⟨(s.row c).ptr, Channel.ext rfl rfl rfl rfl rfl rfl rfl rfl rfl ?_ rfl ?_ rfl rfl rfl rfl⟩ <;>
      exact (by split <;> simp)

/-- A scanline's group: its accesses, its cycles, and memory. -/
theorem State.lineGroup_spec (s : State) (c : Chan) :
    ∃ v : Nat → Byte,
      Tells ((s.row c).groupAccesses v) s (s.lineGroup c) ∧
      (s.lineGroup c).env.cycles = s.env.cycles + (if (s.row c).doTransfer then 8 * len (s.row c).mode else 0) ∧
      (s.lineGroup c).env.aMap = s.env.aMap ∧
      (∀ x, ¬(s.row c).storesTo x → (s.lineGroup c).env.peek x = s.env.peek x) ∧
      ((s.row c).dir = false → (s.row c).doTransfer = true → ∀ i < len (s.row c).mode, ∀ w,
        s.env.peek ((s.row c).groupAddr i) = some w → v i = w) := by
  unfold State.lineGroup Channel.groupAccesses Channel.storesTo
  simp only
  by_cases hd : (s.row c).doTransfer = true
  · simp only [hd, if_true]
    have hreg : ∀ i, bbusAddr (bOffset (s.row c).bbad (s.row c).mode (BitVec.ofNat 2 i)) = (s.row c).groupRegister i :=
      fun _ => rfl
    have haddr : ∀ i, aAddr ((s.row c).sourceBank (s.row c).ind)
        ((s.row c).sourceBase (s.row c).ind + BitVec.ofNat 16 i) = (s.row c).groupAddr i := fun i => by
      unfold Channel.groupAddr Channel.sourceBank Channel.sourceBase
      cases (s.row c).ind <;> rfl
    have key : ∀ (u : State) (l : List Observed), u.row c = s.row c → Tells l s u → u.env.cycles = s.env.cycles →
        u.env.aMap = s.env.aMap → (∀ x, u.env.peek x = s.env.peek x) → ∃ v : Nat → Byte,
        Tells (l ++ (List.range (len (s.row c).mode)).flatMap fun i =>
          if (s.row c).dir then [.readRegister ((s.row c).groupRegister i) (v i), .writeByte ((s.row c).groupAddr i) (v i)]
          else [.readByte ((s.row c).groupAddr i) (v i), .writeRegister ((s.row c).groupRegister i) (v i)])
          s (u.moveGroup c (s.row c).ind) ∧
        (u.moveGroup c (s.row c).ind).env.cycles = s.env.cycles + 8 * len (s.row c).mode ∧
        (u.moveGroup c (s.row c).ind).env.aMap = s.env.aMap ∧
        (∀ x, ¬((s.row c).dir = true ∧ True ∧ ∃ i < len (s.row c).mode, x = (s.row c).groupAddr i) →
          (u.moveGroup c (s.row c).ind).env.peek x = s.env.peek x) ∧
        ((s.row c).dir = false → True → ∀ i < len (s.row c).mode, ∀ w,
          s.env.peek ((s.row c).groupAddr i) = some w → v i = w) := by
      intro u l hu ht h1 h2 h3
      obtain ⟨v, new, p, h, -⟩ := u.moveGroup_spec c (s.row c).ind
      rw [hu] at h
      refine ⟨v, ht.trans ⟨new, h.trace, ?_⟩, by rw [h.cycles, h1, List.length_range]; rfl, h.map.trans h2, ?_, ?_⟩
      · rw [h.acc]
        apply List.flatMap_congr
        intro i _
        unfold moveAccesses
        rw [hreg, haddr]
      · intro x hx
        rw [h.others x ?_, h3]
        by_cases hdir : (s.row c).dir = true
        · refine Or.inr fun i hi e => hx ⟨hdir, trivial, i, List.mem_range.1 hi, ?_⟩
          rw [e, haddr]
        · exact Or.inl (by simpa using hdir)
      · intro hdir _ i hi w hw
        exact h.known hdir i (List.mem_range.2 hi) w (by rw [haddr, h3]; exact hw)
    have hoam : Config.oamTarget = 0x04 := rfl
    rw [hoam]
    by_cases hb : (s.row c).bbad = 0x04
    · rw [if_pos hb, if_pos hb]
      exact key s.oamFix [.oamFix] rfl ⟨[⟨.oamFix, s.context⟩], rfl, rfl⟩ rfl rfl fun x => Env.peek_congr rfl rfl x
    · rw [if_neg hb, if_neg hb]
      exact key s [] rfl (Tells.of_trace rfl) rfl rfl fun _ => rfl
  · simp only [hd, Bool.false_eq_true, if_false]
    exact ⟨fun _ => 0, Tells.of_trace rfl, by simp, by simp, fun _ _ => by simp, fun _ h => absurd h id⟩

/-- A channel whose bit is not set is passed over. -/
theorem advanceChannel_idle {m : Mask} {c : Chan} (s : State) (hb : hasBit m c = false) :
    advanceChannel (m, s) c = (m, s) := by
  unfold advanceChannel
  simp only [hb, Bool.false_eq_true, if_false]

/-- What one channel's share of a scanline step leaves: accesses, memory, cycles, row and bits; `b`, `lo`, `hi` are the
line-count byte and the two bytes after it, where its count runs out. -/
structure LineStep (m : Mask) (s : State) (c : Chan) (v : Nat → Byte) (b lo hi : Byte) (q : Mask × State) : Prop where
  told : Tells ((s.row c).lineAccesses v b lo hi) s q.2
  peek : ∀ x, ¬(s.row c).storesTo x → q.2.env.peek x = s.env.peek x
  data : (s.row c).dir = false → (s.row c).doTransfer = true → ∀ i < len (s.row c).mode, ∀ w,
    s.env.peek ((s.row c).groupAddr i) = some w → v i = w
  table : (s.row c).lineCount = 1 → (s.row c).tableKnown
    (fun x w => s.env.peek x = some w ∧ ¬(s.row c).storesTo x) (s.row c).lineTable b lo hi
  cycles : q.2.env.cycles = s.env.cycles + ((if (s.row c).doTransfer then 8 * len (s.row c).mode else 0) +
    (if (s.row c).lineCount = 1 then 8 + (if (s.row c).ind && !(b == 0) then 16 else 0) else 8))
  active : hasBit q.1 c = !((s.row c).lineCount == 1 && b == 0)
  ended : hasBit q.2.hdmaEnded c = (hasBit s.hdmaEnded c || ((s.row c).lineCount == 1 && b == 0))
  counts : (s.row c).lineCount ≠ 1 → ∃ p, q.2.row c = { s.row c with
    das := (s.row c).lineDas, a2a := (s.row c).lineTable
    doTransfer := (s.row c).rep, lineCount := (s.row c).lineCount - 1, ptr := p }
  reloads : (s.row c).lineCount = 1 →
    Channel.loads (s.row c).lineTable b lo hi { s.row c with das := (s.row c).lineDas } (q.2.row c)

/-- One active channel of a scanline step. -/
theorem advanceChannel_spec {m : Mask} (s : State) {c : Chan} (hb : hasBit m c = true) :
    ∃ v b lo hi, LineStep m s c v b lo hi (advanceChannel (m, s) c) := by
  let s1 : State := { s with currentChannel := some c }
  let u : State := (s1.lineGroup c).updRow c Channel.countLine
  obtain ⟨p, hp⟩ := s1.lineGroup_row c
  obtain ⟨v, htold, hcyc, hmap, hpeek, hdata⟩ := s1.lineGroup_spec c
  have hs1 : s1.row c = s.row c := rfl
  rw [hs1] at hp htold hcyc hpeek hdata
  have hu : u.row c = Channel.countLine
      { s.row c with das := (s.row c).lineDas, a2a := (s.row c).lineTable, ptr := p } := by
    change (State.updRow c Channel.countLine (s1.lineGroup c)).row c = _
    rw [State.updRow_row_self, hp]
  have hon := (s1.lineGroup_onChannel c).trans (State.countLine_onChannel (s1.lineGroup c) c)
  have hue : u.hdmaEnded = s.hdmaEnded := by
    change (State.updRow c Channel.countLine (s1.lineGroup c)).hdmaEnded = _
    rw [hon.rest]
  have he : advanceChannel (m, s) c = if (u.row c).lineCount = (0 : Byte) then
      (if (u.readLineCountByte c).1 then (m, (u.readLineCountByte c).2)
        else (withoutBit m c, { (u.readLineCountByte c).2 with
          hdmaEnded := withBit (u.readLineCountByte c).2.hdmaEnded c }))
      else (m, u.addCycles Config.byteCost) := by
    unfold advanceChannel
    simp only [hb, if_true]
    rfl
  have hz : (u.row c).lineCount = (0 : Byte) ↔ (s.row c).lineCount = 1 := by
    rw [show (u.row c).lineCount = (s.row c).lineCount - 1 by rw [hu]; rfl]
    constructor
    · intro h
      have h2 := congrArg (fun x : Byte => x + 1) h
      simpa [BitVec.sub_add_cancel] using h2
    · intro h; rw [h]; rfl
  have hut : Tells ((s.row c).groupAccesses v) s u := htold
  by_cases h1 : (s.row c).lineCount = 1
  · rw [if_pos (hz.2 h1)] at he
    obtain ⟨b, lo, hi, k1, k2, k3, k4⟩ := u.readLineCountByte_spec c
    have hn : (u.readLineCountByte c).2.hdmaEnded = s.hdmaEnded := by
      rw [(u.readLineCountByte_onChannel c).rest]; exact hue
    have hta : (u.row c).a2a = (s.row c).lineTable := by rw [hu]; rfl
    have hind : (u.row c).ind = (s.row c).ind := by rw [hu]; rfl
    have hacc : (u.row c).tableAccesses (u.row c).a2a b lo hi = (s.row c).tableAccesses (s.row c).lineTable b lo hi := by
      rw [hu]; rfl
    have hkn : ∀ k, (u.row c).tableKnown k (u.row c).a2a b lo hi →
        (s.row c).tableKnown k (s.row c).lineTable b lo hi := by
      intro k h; rw [hu] at h; exact h
    rw [hind, hacc] at k3
    have henv : (advanceChannel (m, s) c).2.env = (u.readLineCountByte c).2.env := by
      rw [he]; cases (u.readLineCountByte c).1 <;> rfl
    have hrow : (advanceChannel (m, s) c).2.row c = (u.readLineCountByte c).2.row c := by
      rw [he]; cases (u.readLineCountByte c).1 <;> rfl
    refine ⟨v, b, lo, hi, ?_, ?_, hdata, fun _ => ?_, ?_, ?_, ?_, fun h => absurd h1 h, fun _ => ?_⟩
    · unfold Channel.lineAccesses
      rw [if_pos h1]
      exact (hut.trans k3.told).congr rfl (by rw [henv])
    · intro x hx
      rw [henv, k3.peek x]; exact hpeek x hx
    · refine hkn _ (k4.mono fun x w hw => ?_)
      exact (hpeek x hw.2).trans hw.1
    · rw [henv, k3.cycles, if_pos h1, show u.env.cycles = _ from hcyc, Nat.add_assoc]
    · rw [he, k1, h1]
      cases hb0 : (b == 0)
      · simpa using hb
      · simp [hasBit_withoutBit]
    · rw [he, k1, h1]
      cases hb0 : (b == 0)
      · simp [hn]
      · simp [hasBit_withBit]
    · obtain ⟨q, hq⟩ := k2
      refine ⟨q, ?_⟩
      rw [hrow, hq, hu]
      rfl
  · rw [if_neg (fun h => h1 (hz.1 h))] at he
    have hbq : ((s.row c).lineCount == 1) = false := by simpa using h1
    refine ⟨v, 0, 0, 0, ?_, ?_, hdata, fun h => absurd h h1, ?_, ?_, ?_, fun _ => ⟨p, ?_⟩, fun h => absurd h h1⟩
    · unfold Channel.lineAccesses
      rw [if_neg h1, he]
      exact hut.trans (u.addCycles_reads Config.byteCost).told
    · intro x hx
      rw [he]
      exact ((u.addCycles_reads Config.byteCost).peek x).trans (hpeek x hx)
    · rw [he, if_neg h1, (u.addCycles_reads Config.byteCost).cycles, show u.env.cycles = _ from hcyc, Nat.add_assoc]
      rfl
    · rw [he, hbq]; simpa using hb
    · rw [he, hbq]; simp [hue]
    · rw [he]
      exact hu

end Sys2Proof.Machine
end

