-- ==== Sys2Proof/Laws/Transfer.lean ====
section
/-! SUPPORT. The DMA sequencer: a byte step as one function, what a byte and the end of the call leave unchanged, and the
step function case by case. -/

namespace Sys2Proof.Machine

/-! ## The control byte and its bundle -/

theorem Channel.controlByte_bit7 (r : Channel) : r.controlByte.getLsbD 7 = r.dir := by
  obtain ⟨d, i, u, e, f, m, _⟩ := r
  simp only [Channel.controlByte]
  revert m
  cases d <;> cases i <;> cases u <;> cases e <;> cases f <;> decide

theorem Channel.controlByte_bit6 (r : Channel) : r.controlByte.getLsbD 6 = r.ind := by
  obtain ⟨d, i, u, e, f, m, _⟩ := r
  simp only [Channel.controlByte]
  revert m
  cases d <;> cases i <;> cases u <;> cases e <;> cases f <;> decide

theorem Channel.controlByte_bit4 (r : Channel) : r.controlByte.getLsbD 4 = r.dec := by
  obtain ⟨d, i, u, e, f, m, _⟩ := r
  simp only [Channel.controlByte]
  revert m
  cases d <;> cases i <;> cases u <;> cases e <;> cases f <;> decide

theorem Channel.controlByte_bit3 (r : Channel) : r.controlByte.getLsbD 3 = r.fix := by
  obtain ⟨d, i, u, e, f, m, _⟩ := r
  simp only [Channel.controlByte]
  revert m
  cases d <;> cases i <;> cases u <;> cases e <;> cases f <;> decide

theorem Channel.controlByte_mode (r : Channel) : r.controlByte.extractLsb' 0 3 = r.mode := by
  obtain ⟨d, i, u, e, f, m, _⟩ := r
  simp only [Channel.controlByte]
  revert m
  cases d <;> cases i <;> cases u <;> cases e <;> cases f <;> decide

/-- The bundle of a row's control byte: one instruction for each of its fields (R101). -/
theorem decodeDmap_controlByte (c : Chan) (r : Channel) :
    decodeDmap c r.controlByte =
      ⟨decodeXfer c r.mode, decodeDir c r.dir, decodeStep c r.dec r.fix, decodeHaddr c r.ind⟩ := by
  simp only [decodeDmap, r.controlByte_bit7, r.controlByte_bit6, r.controlByte_bit4, r.controlByte_bit3,
    r.controlByte_mode]

/-! ## The three instructions of a byte as functions -/

theorem exec_decodeXfer (c : Chan) (m : BitVec 3) (s : State) : exec (decodeXfer c m) s = .next (s.selectOffset c m) := by
  have : ∀ m : BitVec 3, m = 0 ∨ m = 1 ∨ m = 2 ∨ m = 3 ∨ m = 4 ∨ m = 5 ∨ m = 6 ∨ m = 7 := by decide
  rcases this m with h | h | h | h | h | h | h | h <;> subst h <;> rfl

/-- The data movement of a byte, by direction (R187, R188). -/
def State.moveDma (c : Chan) (dir : Bool) (s : State) : State := if dir then s.reverseByte c else s.forwardByte c

theorem exec_decodeDir (c : Chan) (dir : Bool) (s : State) : exec (decodeDir c dir) s = .next (s.moveDma c dir) := by
  cases dir <;> rfl

/-- The address step by its two flags (R111). -/
def State.stepDma (c : Chan) (dec fix : Bool) (s : State) : State :=
  if fix then s.stepAddress c 0 fun _ => false
  else if dec then s.stepAddress c 0xFFFF fun a => a == 0xFFFF
  else s.stepAddress c 1 fun a => a == 0

theorem exec_decodeStep (c : Chan) (dec fix : Bool) (s : State) :
    exec (decodeStep c dec fix) s = .next (s.stepDma c dec fix) := by
  unfold decodeStep State.stepDma
  split
  · rfl
  · split
    · simp only [exec, execStepDec]
    · simp only [exec, execStepInc]

/-- The three instructions of the channel's control byte, one after another. -/
def State.byteBody (c : Chan) (s : State) : State :=
  ((s.selectOffset c (s.row c).mode).moveDma c (s.row c).dir).stepDma c (s.row c).dec (s.row c).fix

theorem execSeq_cons_next {i : Instr} {l : List Instr} {s t : State} (h : exec i s = .next t) :
    execSeq (i :: l) s = execSeq l t := by
  rw [execSeq, h]

theorem execSeq_byteInstrs (c : Chan) (s : State) : execSeq (s.byteInstrs c) s = .next (s.byteBody c) := by
  have h : s.byteInstrs c = [decodeXfer c (s.row c).mode, decodeDir c (s.row c).dir,
      decodeStep c (s.row c).dec (s.row c).fix] := by
    simp only [State.byteInstrs, decodeDmap_controlByte]
  rw [h, execSeq_cons_next (exec_decodeXfer c _ s), execSeq_cons_next (exec_decodeDir c _ _),
    execSeq_cons_next (exec_decodeStep c _ _ _)]
  rfl

/-- A step of `ExecuteDMA(c)`, its three cases. -/
theorem State.dmaStep_eq (c : Chan) (s : State) :
    s.dmaStep c = .next (if s.seq.remaining = 0 then s.completeDMA c
      else if s.seq.invalid then s.closeByte c else (s.byteBody c).closeByte c) := by
  unfold State.dmaStep
  split
  · rfl
  · split
    · rfl
    · rw [execSeq_byteInstrs]

theorem step_busy {s : State} {c : Chan} (h : s.seq.busy = some c) : step s = s.dmaStep c := by
  unfold step; rw [h]

theorem step_idle {s : State} (h : s.seq.busy = none) : step s = s.idleStep := by
  unfold step; rw [h]

/-! ## What a byte leaves unchanged -/

/-- What the movement and the step of a DMA byte change: `A1T` of the own row, `PatternStep`, the locals besides the
call's own (`busy`, `remaining`, `invalid`, `sdd1On`), the environment as an engine may. -/
structure ByteStep (c : Chan) (s t : State) : Prop where
  rest : t = { s with ch := t.ch, patternStep := t.patternStep, seq := t.seq, env := t.env }
  busy : t.seq.busy = s.seq.busy
  remaining : t.seq.remaining = s.seq.remaining
  invalid : t.seq.invalid = s.seq.invalid
  sdd1On : t.seq.sdd1On = s.seq.sdd1On
  others : ∀ d, d ≠ c → t.row d = s.row d
  row : ∃ a, t.row c = { s.row c with a1t := a }
  env : EnvStep s.env t.env

theorem ByteStep.trans {c : Chan} {s t u : State} (h : ByteStep c s t) (h' : ByteStep c t u) : ByteStep c s u := by
  refine ⟨?_, h'.busy.trans h.busy, h'.remaining.trans h.remaining, h'.invalid.trans h.invalid,
    h'.sdd1On.trans h.sdd1On, fun d hd => (h'.others d hd).trans (h.others d hd), ?_, h.env.trans h'.env⟩
  · rw [h'.rest, h.rest]
  · obtain ⟨a, ha⟩ := h.row
    obtain ⟨b, hb⟩ := h'.row
    exact ⟨b, by rw [hb, ha]⟩

theorem Quiet.byteStep {s t : State} (h : Quiet s t) (c : Chan) : ByteStep c s t := by
  refine ⟨?_, ?_, ?_, ?_, ?_, fun d _ => h.row d, ⟨(s.row c).a1t, ?_⟩, h.env⟩
  all_goals first | rw [h.row c] | rw [h.rest]

theorem ByteStep.refl (c : Chan) (s : State) : ByteStep c s s := (Quiet.refl s).byteStep c

theorem State.selectOffset_byteStep (s : State) (c : Chan) (m : BitVec 3) : ByteStep c s (s.selectOffset c m) :=
  ⟨rfl, rfl, rfl, rfl, rfl, fun _ _ => rfl, ⟨_, rfl⟩, EnvStep.refl _⟩

theorem State.sdd1Byte_byteStep (s : State) (c : Chan) : ByteStep c s s.sdd1Byte.2 := by
  unfold State.sdd1Byte
  simp only
  split
  · exact ⟨rfl, rfl, rfl, rfl, rfl, fun _ _ => rfl, ⟨_, rfl⟩, EnvStep.refl _⟩
  · exact ⟨rfl, rfl, rfl, rfl, rfl, fun _ _ => rfl, ⟨_, rfl⟩, EnvStep.draw _⟩

theorem State.moveDma_byteStep (s : State) (c : Chan) (dir : Bool) : ByteStep c s (s.moveDma c dir) := by
  unfold State.moveDma
  split
  · exact (s.moveByte_quiet _ _ _).byteStep c
  · unfold State.forwardByte
    split
    · exact (s.sdd1Byte_byteStep c).trans ((State.bWrite_quiet _ _ _).byteStep c)
    · exact (s.moveByte_quiet _ _ _).byteStep c

theorem State.resolveBase_byteStep (s : State) (c : Chan) (bank : Byte) : ByteStep c s (s.resolveBase bank) :=
  ⟨rfl, rfl, rfl, rfl, rfl, fun _ _ => rfl, ⟨_, rfl⟩, EnvStep.observe _ _ rfl rfl⟩

theorem State.stepAddress_byteStep (s : State) (c : Chan) (d : Half) (w : Half → Bool) :
    ByteStep c s (s.stepAddress c d w) := by
  have h : ByteStep c s (s.setRow c { s.row c with a1t := (s.row c).a1t + d }) :=
    ⟨rfl, rfl, rfl, rfl, rfl, fun e he => s.setRow_row_ne _ he, ⟨(s.row c).a1t + d, by simp⟩, EnvStep.refl _⟩
  unfold State.stepAddress
  simp only
  split
  · exact h.trans (State.resolveBase_byteStep _ c _)
  · exact h

theorem State.stepAddress_row (s : State) (c : Chan) (d : Half) (w : Half → Bool) :
    (s.stepAddress c d w).row c = { s.row c with a1t := (s.row c).a1t + d } := by
  unfold State.stepAddress
  simp only
  split
  · change (s.setRow c _).row c = _; simp
  · simp

theorem State.stepDma_byteStep (s : State) (c : Chan) (dec fix : Bool) : ByteStep c s (s.stepDma c dec fix) := by
  unfold State.stepDma
  split
  · exact s.stepAddress_byteStep c _ _
  · split <;> exact s.stepAddress_byteStep c _ _

theorem State.byteBody_byteStep (s : State) (c : Chan) : ByteStep c s (s.byteBody c) :=
  ((s.selectOffset_byteStep c _).trans (State.moveDma_byteStep _ c _)).trans (State.stepDma_byteStep _ c _ _)

/-! ## The count and the end of the call -/

/-- What any step of `ExecuteDMA(c)` leaves: the masks and `SDD1_FLAG` apart from what the events of the sink do, every
row's configuration; the flags agree where they agreed. -/
structure DmaStepKeeps (s t : State) : Prop where
  config : ∀ d, (s.row d).sameConfig (t.row d)
  counts : (∀ d, (s.row d).lineCountOk) → ∀ d, (t.row d).lineCountOk
  masks : s.masksAgree → t.masksAgree
  ran : s.hdmaRanInDMA = 0 → t.hdmaRanInDMA = 0
  flags : s.flagsAgree → t.flagsAgree
  remaining : t.seq.remaining ≤ s.seq.remaining
  inbox : t.env.inbox = s.env.inbox
  memory : Memory.wf s.env.aMem = true → Memory.wf t.env.aMem = true

/-- Observations added, with the cycles they account. -/
def Env.Grows (e e' : Env) : Prop :=
  ∃ new, e'.trace = new ++ e.trace ∧ e'.cycles = e.cycles + cyclesOf new ∧ ∀ x ∈ new, x.what.inWindow = true

theorem Env.Grows.refl (e : Env) : e.Grows e := ⟨[], by simp⟩

theorem Env.Grows.trans {e e' e'' : Env} (h : e.Grows e') (h' : e'.Grows e'') : e.Grows e'' := by
  obtain ⟨n, ht, hc, hw⟩ := h
  obtain ⟨n', ht', hc', hw'⟩ := h'
  refine ⟨n' ++ n, by rw [ht', ht, List.append_assoc], by rw [hc', hc, cyclesOf_append]; omega, fun x hx => ?_⟩
  rcases List.mem_append.1 hx with hx | hx
  · exact hw' x hx
  · exact hw x hx

theorem fromEngine_inWindow {w : Observed} (h : w.fromEngine = true) : w.inWindow = true := by
  simp only [Observed.fromEngine, Bool.and_eq_true] at h; exact h.1

theorem SinkStep.growsEnv {e e' : Env} (h : SinkStep e e') : e.Grows e' := by
  obtain ⟨n, ht, hc, hw⟩ := h.grows
  exact ⟨n, ht, hc, fun x hx => fromEngine_inWindow (hw x hx)⟩

theorem EnvStep.growsEnv {e e' : Env} (h : EnvStep e e') : e.Grows e' := h.sink.growsEnv

theorem State.observe_grows (s : State) (w : Observed) (hw : w.inWindow = true) (hc : cyclesOf [⟨w, s.context⟩] = 0) :
    s.env.Grows (s.observe w).env := ⟨[⟨w, s.context⟩], rfl, by simp [hc], by simpa using hw⟩

theorem State.completeDMA_grows (s : State) (c : Chan) : s.env.Grows (s.completeDMA c).env := by
  unfold State.completeDMA State.rescheduleNmi
  split
  · exact (State.observe_grows (s.endDMA c) (.nmiReschedule Config.nmiDmaDelay) rfl rfl).trans
      (State.observe_grows _ (.dmaResult c true) rfl rfl)
  · exact State.observe_grows (s.endDMA c) (.dmaResult c true) rfl rfl

theorem State.closeByte_grows (s : State) (c : Chan) : s.env.Grows (s.closeByte c).env := by
  have h := ((s.countByte c).cycleSink_keeps c).1.env.growsEnv
  unfold State.closeByte
  simp only
  split
  · exact h
  · exact h.trans (State.observe_grows ((((s.countByte c).cycleSink c).2).endDMA c) (.dmaResult c false) rfl rfl)

theorem State.dmaStep_grows {s t : State} {c : Chan} (h : s.dmaStep c = .next t) : s.env.Grows t.env := by
  rw [State.dmaStep_eq] at h
  cases h
  split
  · exact s.completeDMA_grows c
  · split
    · exact s.closeByte_grows c
    · exact ((s.byteBody_byteStep c).env.growsEnv).trans (State.closeByte_grows _ c)

theorem Channel.sameConfig.refl (r : Channel) : r.sameConfig r := ⟨rfl, rfl, rfl, rfl, rfl, rfl, rfl, rfl, rfl⟩

theorem Channel.sameConfig.trans {a b c : Channel} (h : a.sameConfig b) (h' : b.sameConfig c) : a.sameConfig c := by
  obtain ⟨a1, a2, a3, a4, a5, a6, a7, a8, a9⟩ := h
  obtain ⟨b1, b2, b3, b4, b5, b6, b7, b8, b9⟩ := h'
  exact ⟨b1.trans a1, b2.trans a2, b3.trans a3, b4.trans a4, b5.trans a5, b6.trans a6, b7.trans a7, b8.trans a8,
    b9.trans a9⟩

theorem State.countByte_row (s : State) (c d : Chan) :
    (s.countByte c).row d = if d = c then (s.row c).countDas else s.row d :=
  s.updRow_row c d Channel.countDas

theorem ByteStep.sameConfig {c : Chan} {s t : State} (h : ByteStep c s t) (d : Chan) : (s.row d).sameConfig (t.row d) := by
  by_cases hd : d = c
  · subst hd
    obtain ⟨a, ha⟩ := h.row
    rw [ha]; exact Channel.sameConfig.refl _
  · rw [h.others d hd]; exact Channel.sameConfig.refl _

theorem ByteStep.keeps {c : Chan} {s t : State} (h : ByteStep c s t) : DmaStepKeeps s t := by
  refine ⟨h.sameConfig, fun x d => ?_, fun x => ?_, fun x => ?_, fun x => ?_, ?_, h.env.inbox, h.env.memory⟩
  · by_cases hd : d = c
    · subst hd
      obtain ⟨a, ha⟩ := h.row
      rw [ha]; exact x d
    · rw [h.others d hd]; exact x d
  · rw [h.rest]; exact x
  · rw [h.rest]; exact x
  · obtain ⟨x1, x2, x3, x4⟩ := x
    have hb := h.busy
    rw [h.rest]
    exact ⟨x1, x2, by simp only [hb]; exact x3, by simp only [hb]; exact x4⟩
  · rw [h.remaining]

theorem DmaStepKeeps.trans {s t u : State} (h : DmaStepKeeps s t) (h' : DmaStepKeeps t u) : DmaStepKeeps s u :=
  ⟨fun d => (h.config d).trans (h'.config d), fun x => h'.counts (h.counts x), fun x => h'.masks (h.masks x),
    fun x => h'.ran (h.ran x), fun x => h'.flags (h.flags x), h'.remaining.trans h.remaining, h'.inbox.trans h.inbox,
    fun x => h'.memory (h.memory x)⟩

theorem State.countByte_keeps (s : State) (c : Chan) : DmaStepKeeps s (s.countByte c) := by
  refine ⟨fun d => ?_, fun x d => ?_, id, id, id, Nat.sub_le _ _, rfl, id⟩
  · rw [s.countByte_row]
    split
    · next h => subst h; exact Channel.sameConfig.refl _
    · exact Channel.sameConfig.refl _
  · rw [s.countByte_row]
    split
    · next h => subst h; exact x d
    · exact x d

theorem SinkKeeps.dma {s t : State} (h : SinkKeeps s t) (hr : t.hdmaRanInDMA = 0) : DmaStepKeeps s t := by
  refine ⟨fun d => (h.rows d).config, h.counts, h.masks, fun _ => hr, fun x => ?_, le_of_eq (by rw [h.seq]),
    h.env.inbox, h.env.memory⟩
  obtain ⟨x1, x2, x3, x4⟩ := x
  exact ⟨h.inHDMA x1, by rw [h.inEither x1 x2, h.inDMA, x2], by rw [h.inDMA, h.seq, x3], by rw [h.current, h.seq, x4]⟩

theorem State.endDMA_keeps (s : State) (c : Chan) : DmaStepKeeps s (s.endDMA c) :=
  ⟨fun _ => Channel.sameConfig.refl _, id, id, id, fun x => ⟨x.1, rfl, rfl, rfl⟩, le_refl _, rfl, id⟩

theorem State.observe_keeps (s : State) (w : Observed) : DmaStepKeeps s (s.observe w) :=
  ⟨fun _ => Channel.sameConfig.refl _, id, id, id, id, le_refl _, rfl, id⟩

theorem State.rescheduleNmi_keeps (s : State) : DmaStepKeeps s s.rescheduleNmi := by
  unfold State.rescheduleNmi
  split
  · exact s.observe_keeps _
  · exact ⟨fun _ => Channel.sameConfig.refl _, id, id, id, id, le_refl _, rfl, id⟩

theorem State.closeByte_keeps (s : State) (c : Chan) : DmaStepKeeps s (s.closeByte c) := by
  obtain ⟨h, hr⟩ := (s.countByte c).cycleSink_keeps c
  have h1 := (s.countByte_keeps c).trans (h.dma hr)
  unfold State.closeByte
  simp only
  split
  · exact h1
  · exact (h1.trans (State.endDMA_keeps _ c)).trans (State.observe_keeps _ _)

theorem State.completeDMA_keeps (s : State) (c : Chan) : DmaStepKeeps s (s.completeDMA c) :=
  ((s.endDMA_keeps c).trans (State.rescheduleNmi_keeps _)).trans (State.observe_keeps _ _)

/-- Any step of `ExecuteDMA(c)` answers a next state that keeps all of `DmaStepKeeps`. -/
theorem State.dmaStep_keeps (s : State) (c : Chan) : ∃ t, s.dmaStep c = .next t ∧ DmaStepKeeps s t := by
  rw [State.dmaStep_eq]
  refine ⟨_, rfl, ?_⟩
  split
  · exact s.completeDMA_keeps c
  · split
    · exact s.closeByte_keeps c
    · exact (s.byteBody_byteStep c).keeps.trans (State.closeByte_keeps _ c)

/-! ## The guards of R293 -/

theorem State.viaPort_next {s : State} (h : s.inEither = false) (f : State → State) : s.viaPort f = .next (f s) := by
  unfold State.viaPort; rw [h]; rfl

theorem State.viaPort_refused {s : State} (h : s.inEither = true) (f : State → State) :
    s.viaPort f = .refused .portWhileBusy := by
  unfold State.viaPort; rw [h]; rfl

theorem State.outsideHDMA_next {s : State} (h : s.inHDMA = false) (f : State → State) :
    s.outsideHDMA f = .next (f s) := by
  unfold State.outsideHDMA; rw [h]; rfl

theorem State.startDMA_next {s : State} (h : s.inEither = false) (c : Chan) : s.startDMA c = .next (s.beginDMA c) := by
  unfold State.startDMA; rw [h]; rfl

theorem State.startDMA_refused {s : State} (h : s.inEither = true) (c : Chan) :
    s.startDMA c = .refused .dmaWhileBusy := by
  unfold State.startDMA; rw [h]; rfl

/-! ## The entry of `ExecuteDMA` -/

theorem dmaCount_le (h : Half) : dmaCount h ≤ 0x10000 := by
  unfold dmaCount
  split
  · exact le_refl _
  · have := h.isLt; omega

/-- Everything the entry changes: the flags, the locals, and for a valid transfer `PatternStep` and `SDD1_FLAG`. -/
theorem State.beginDMA_shape (s : State) (c : Chan) :
    ∃ f p b i e, s.beginDMA c = { s with
        inDMA := true, inEither := true, currentChannel := some c, sdd1Flag := f, patternStep := p, env := e
        seq := { Seq.idle with
          busy := some c, remaining := dmaCount (s.row c).das, invalid := (s.row c).isInvalid, basePtr := b, sdd1On := i } } ∧
      EnvStep s.env e := by
  have ho : EnvStep s.env (s.openDMA c).env := EnvStep.addCycles _ _ _
  unfold State.beginDMA
  simp only
  split
  · exact ⟨s.sdd1Flag, s.patternStep, none, false, _, rfl, ho⟩
  · split
    · exact ⟨_, 0, none, _, _, rfl, ho⟩
    · exact ⟨_, 0, _, _, _, rfl, ho.trans (State.resolveBase_byteStep
        ((s.openDMA c).armDMA (s.sdd1Hook (s.row c))) c (s.row c).a1b).env⟩

/-! ## The arbiter -/

theorem exec_dmaExecOf (c : Chan) (s : State) : exec (dmaExecOf c) s = s.startDMA c := by
  have : ∀ c : Chan, c = 0 ∨ c = 1 ∨ c = 2 ∨ c = 3 ∨ c = 4 ∨ c = 5 ∨ c = 6 ∨ c = 7 := by decide
  rcases this c with h | h | h | h | h | h | h | h <;> subst h <;> rfl

theorem lowestChan_zero : lowestChan 0 = none := by decide

/-- The port is served where no transfer is in flight or requested. -/
theorem State.portReady.idleStep {s : State} (h : s.portReady) :
    step s = match s.env.inbox with
      | [] => .next s
      | m :: rest => serve m { s with env := { s.env with inbox := rest } } := by
  rw [step_idle h.1]
  unfold State.idleStep
  have : lowestChan s.mdmaen = none := by rw [h.2]; exact lowestChan_zero
  rw [this]
  all_goals (cases s.env.inbox <;> rfl)

/-- A pending request is served first. -/
theorem lowestChan_some {m : Mask} (h : m ≠ 0) : ∃ c, lowestChan m = some c ∧ hasBit m c = true := by
  obtain ⟨c, hc⟩ := exists_hasBit h
  have : (lowestChan m).isSome := by
    unfold lowestChan
    rw [List.find?_isSome]
    exact ⟨c, mem_allChans c, hc⟩
  obtain ⟨d, hd⟩ := Option.isSome_iff_exists.1 this
  exact ⟨d, hd, List.find?_some hd⟩

end Sys2Proof.Machine
end

