-- ==== Sys2Proof/Laws/Locals.lean ====
section
/-! SUPPORT. The locals of `ExecuteDMA` (`seq`) are read by no operation of the HDMA engine, of the cycle sink or of the
facade: each commutes with replacing them. -/

namespace Sys2Proof.Machine

/-- The state with other locals. -/
def State.withSeq (q : Seq) (s : State) : State := { s with seq := q }

theorem State.dropLocals_eq (s : State) : s.dropLocals = s.withSeq Seq.idle := rfl

section facade
variable (q : Seq) (s : State)

@[simp] theorem State.withSeq_row (c : Chan) : (s.withSeq q).row c = s.row c := rfl
@[simp] theorem State.withSeq_seq : (s.withSeq q).seq = q := rfl
@[simp] theorem State.withSeq_env : (s.withSeq q).env = s.env := rfl
@[simp] theorem State.withSeq_withSeq (p : Seq) : (s.withSeq q).withSeq p = s.withSeq p := rfl
@[simp] theorem State.withSeq_self : s.withSeq s.seq = s := rfl

theorem State.observe_withSeq (w : Observed) : (s.withSeq q).observe w = (s.observe w).withSeq q := rfl
theorem State.addCycles_withSeq (n : Nat) : (s.withSeq q).addCycles n = (s.addCycles n).withSeq q := rfl
theorem State.updRow_withSeq (c : Chan) (f : Channel → Channel) :
    (s.withSeq q).updRow c f = (s.updRow c f).withSeq q := rfl
theorem State.aRead_withSeq (a : AAddr) : (s.withSeq q).aRead a = ((s.aRead a).1, (s.aRead a).2.withSeq q) := rfl
theorem State.aWrite_withSeq (a : AAddr) (v : Byte) : (s.withSeq q).aWrite a v = (s.aWrite a v).withSeq q := rfl
theorem State.bRead_withSeq (off : Byte) : (s.withSeq q).bRead off = ((s.bRead off).1, (s.bRead off).2.withSeq q) := rfl
theorem State.bWrite_withSeq (off v : Byte) : (s.withSeq q).bWrite off v = (s.bWrite off v).withSeq q := rfl

theorem State.moveByte_withSeq (dir : Bool) (off : Byte) (a : AAddr) :
    (s.withSeq q).moveByte dir off a = (s.moveByte dir off a).withSeq q := by
  cases dir <;> rfl

theorem State.resolvePtr_withSeq (c : Chan) (ind : Bool) :
    (s.withSeq q).resolvePtr c ind = (s.resolvePtr c ind).withSeq q := rfl

theorem State.groupPointer_withSeq (c : Chan) (ind : Bool) :
    (s.withSeq q).groupPointer c ind = (s.groupPointer c ind).withSeq q := by
  unfold State.groupPointer
  simp only [State.withSeq_row, apply_ite (State.withSeq q)]
  rfl

theorem State.moveGroupByte_withSeq (r : Channel) (ind : Bool) (i : Nat) :
    (s.withSeq q).moveGroupByte r ind i = (s.moveGroupByte r ind i).withSeq q := by
  unfold State.moveGroupByte
  rw [State.moveByte_withSeq, State.addCycles_withSeq]

/-- A fold of commuting operations commutes. -/
theorem foldl_withSeq {α : Type} (f : State → α → State) (hf : ∀ s a, f (s.withSeq q) a = (f s a).withSeq q)
    (l : List α) (s : State) : l.foldl f (s.withSeq q) = (l.foldl f s).withSeq q := by
  induction l generalizing s with
  | nil => rfl
  | cons a l ih => rw [List.foldl_cons, hf, ih]; rfl

theorem State.moveGroup_withSeq (c : Chan) (ind : Bool) :
    (s.withSeq q).moveGroup c ind = (s.moveGroup c ind).withSeq q := by
  unfold State.moveGroup
  simp only [State.groupPointer_withSeq, State.withSeq_row]
  rw [foldl_withSeq q _ (fun s i => s.moveGroupByte_withSeq q _ ind i), State.updRow_withSeq]

theorem State.fetchIndirect_withSeq (c : Chan) :
    (s.withSeq q).fetchIndirect c = (s.fetchIndirect c).withSeq q := rfl

theorem State.openEntry_withSeq (c : Chan) (rep : Bool) (count : Byte) :
    (s.withSeq q).openEntry c rep count = (s.openEntry c rep count).withSeq q := by
  unfold State.openEntry
  simp only [State.updRow_withSeq, State.withSeq_row, apply_ite (State.withSeq q)]
  rfl

theorem State.lineByte_withSeq (c : Chan) (line : Byte) :
    (s.withSeq q).lineByte c line = (s.lineByte c line).withSeq q := by
  unfold State.lineByte
  simp only [State.lineRep128, State.lineSingle, State.lineRepeat, State.openEntry_withSeq, apply_ite (State.withSeq q)]
  rfl

theorem State.readLineCountByte_withSeq (c : Chan) :
    (s.withSeq q).readLineCountByte c = ((s.readLineCountByte c).1, (s.readLineCountByte c).2.withSeq q) := by
  unfold State.readLineCountByte
  simp only [State.withSeq_row, State.aRead_withSeq, State.addCycles_withSeq, State.lineByte_withSeq]

theorem State.initChannel_withSeq (c : Chan) : (s.withSeq q).initChannel c = (s.initChannel c).withSeq q := by
  unfold State.initChannel
  have h : ({ s.withSeq q with currentChannel := some c } : State) = State.withSeq q { s with currentChannel := some c } := rfl
  simp only [h, State.updRow_withSeq, State.readLineCountByte_withSeq]
  simp only [apply_ite (State.withSeq q)]
  rfl

theorem State.initPrelude_withSeq : (s.withSeq q).initPrelude = s.initPrelude.withSeq q := by
  unfold State.initPrelude
  have h : (s.withSeq q).enterHDMA = s.enterHDMA.withSeq q := rfl
  simp only [h]
  simp only [apply_ite (State.withSeq q)]
  rfl

theorem State.initializeHDMALines_withSeq :
    (s.withSeq q).initializeHDMALines = s.initializeHDMALines.withSeq q := by
  rw [State.initializeHDMALines_eq, State.initializeHDMALines_eq]
  have : (s.withSeq q).initLoop = s.initLoop.withSeq q := by
    unfold State.initLoop
    rw [State.initPrelude_withSeq, foldl_withSeq q _ (fun s c => s.initChannel_withSeq q c)]
  rw [this]
  rfl

theorem State.lineGroup_withSeq (c : Chan) : (s.withSeq q).lineGroup c = (s.lineGroup c).withSeq q := by
  unfold State.lineGroup
  have ho : (s.withSeq q).oamFix = s.oamFix.withSeq q := rfl
  simp only [State.withSeq_row, ho, ← apply_ite (State.withSeq q), State.moveGroup_withSeq]

theorem advanceChannel_withSeq (m : Mask) (c : Chan) :
    advanceChannel (m, s.withSeq q) c = ((advanceChannel (m, s) c).1, (advanceChannel (m, s) c).2.withSeq q) := by
  unfold advanceChannel
  have h : ({ s.withSeq q with currentChannel := some c } : State) = State.withSeq q { s with currentChannel := some c } := rfl
  simp only [h, State.lineGroup_withSeq, State.updRow_withSeq, State.withSeq_row, State.readLineCountByte_withSeq]
  by_cases hb : hasBit m c
  · simp only [hb, if_true]
    by_cases hz : ((State.updRow c Channel.countLine (State.lineGroup c { s with currentChannel := some c })).row c).lineCount = 0
    · simp only [hz, if_true]
      by_cases hm : (State.readLineCountByte c (State.updRow c Channel.countLine
        (State.lineGroup c { s with currentChannel := some c }))).1 = true
      · simp only [hm, if_true]
      · simp only [hm]
        rfl
    · simp only [hz, if_false]
      rfl
  · simp only [hb]
    rfl

theorem State.advanceHDMALines_withSeq (m : Mask) :
    (s.withSeq q).advanceHDMALines m = ((s.advanceHDMALines m).1, (s.advanceHDMALines m).2.withSeq q) := by
  rw [State.advanceHDMALines_eq, State.advanceHDMALines_eq]
  have hp : (s.withSeq q).advancePrelude m = (s.advancePrelude m).withSeq q := rfl
  have : ∀ (l : List Chan) (p : Mask × State),
      l.foldl advanceChannel (p.1, p.2.withSeq q) =
        ((l.foldl advanceChannel p).1, (l.foldl advanceChannel p).2.withSeq q) := by
    intro l
    induction l with
    | nil => intro p; rfl
    | cons c l ih =>
      intro p
      rw [List.foldl_cons, advanceChannel_withSeq, List.foldl_cons]
      exact ih (advanceChannel p c)
  have := this allChans (m, s.advancePrelude m)
  unfold State.advanceLoop
  rw [hp, this]
  rfl

theorem State.hdmaLine_withSeq : (s.withSeq q).hdmaLine = s.hdmaLine.withSeq q := by
  unfold State.hdmaLine
  have h : (s.withSeq q).hdmaActive = s.hdmaActive := rfl
  simp only [h, State.advanceHDMALines_withSeq, apply_ite (State.withSeq q)]
  rfl

theorem State.deliver_withSeq (d : Due) : (s.withSeq q).deliver d = (s.deliver d).withSeq q := by
  have hn : ∀ (s : State) (lv : Bool), ({ s.withSeq q with env := { (s.withSeq q).env with nmiPending := lv } } : State) =
    State.withSeq q { s with env := { s.env with nmiPending := lv } } := fun _ _ => rfl
  unfold State.deliver
  obtain ⟨i, l, n⟩ := d
  cases n <;> cases i <;> cases l <;>
    simp only [hn, Bool.false_eq_true, if_true, if_false, State.hdmaLine_withSeq, State.initializeHDMALines_withSeq]

theorem State.cycleSink_withSeq (c : Chan) :
    (s.withSeq q).cycleSink c = ((s.cycleSink c).1, (s.cycleSink c).2.withSeq q) := by
  have hn : ∀ s : State, (s.withSeq q).nextDue = (s.nextDue.1, s.nextDue.2.withSeq q) := by
    intro s
    unfold State.nextDue
    simp only [State.withSeq_env]
    cases s.env.script <;> rfl
  unfold State.cycleSink
  simp only [State.addCycles_withSeq, hn, foldl_withSeq q (fun (s : State) (d : Due) => s.deliver d) (fun s d => s.deliver_withSeq q d)]
  rfl

end facade

end Sys2Proof.Machine
end

