-- ==== Sys2Proof/Laws/Order.lean ====
section
/-! SUPPORT. The channel loops of the two HDMA entry points as wholes: the accesses in ascending channel order, the cycles,
and the result of each channel (R221, R228, R261). -/

namespace Sys2Proof.Machine

theorem allChans_ascending : allChans.Pairwise (fun a b => a.toNat < b.toNat) := by decide

/-- The synchronisation of a frame start: cycles where a channel is enabled, nothing else. -/
theorem State.initPrelude_reads (s : State) :
    Reads (if s.hdmaen = 0 then 0 else Config.hdmaSyncCost) [] s s.initPrelude := by
  unfold State.initPrelude
  by_cases h : s.hdmaen = 0
  · rw [if_pos h]
    exact Reads.of_env (by rw [if_pos (show s.enterHDMA.hdmaen = 0 from h)]; rfl)
  · rw [if_neg h]
    refine (State.addCycles_reads { s.enterHDMA with hdmaActive := s.hdmaen, hdmaEnded := 0 } _).congr rfl ?_
    rw [if_neg (show ¬s.enterHDMA.hdmaen = 0 from h)]
    rfl

/-- The synchronisation of a scanline step: cycles, nothing else. -/
theorem State.advancePrelude_reads (mask : Mask) (s : State) :
    Reads Config.hdmaSyncCost [] s (s.advancePrelude mask) :=
  (State.addCycles_reads (s.enterHDMA.recordRan mask) _).congr rfl rfl

/-! ## Frame start -/

/-- The accesses of channel `c` at the frame start from `s`. -/
def State.frameAccesses (s : State) (b lo hi : Chan → Byte) (c : Chan) : List Observed :=
  if hasBit s.hdmaen c then (s.row c).tableAccesses (s.row c).a1t (b c) (lo c) (hi c) else []

/-- The cycle units of channel `c` at the frame start from `s`. -/
def State.frameCycles (s : State) (b : Chan → Byte) (c : Chan) : Nat :=
  if hasBit s.hdmaen c then 8 + (if (s.row c).ind && !(b c == 0) then 16 else 0) else 0

/-- What a frame start from `s` makes of channel `c` between `u` and `t`. -/
structure FrameResult (s u t : State) (c : Chan) (b lo hi : Byte) : Prop where
  idle : hasBit s.hdmaen c = false → t.row c = { s.row c with doTransfer := false } ∧
    hasBit t.hdmaActive c = hasBit u.hdmaActive c ∧ hasBit t.hdmaEnded c = hasBit u.hdmaEnded c
  reads : hasBit s.hdmaen c = true →
    (s.row c).tableKnown (fun x w => s.env.peek x = some w) (s.row c).a1t b lo hi ∧
    (s.row c).loads (s.row c).a1t b lo hi (t.row c) ∧
    hasBit t.hdmaActive c = (hasBit u.hdmaActive c && !(b == 0)) ∧
    hasBit t.hdmaEnded c = (hasBit u.hdmaEnded c || (b == 0))

/-- One channel, in a state `u` whose own row, enable mask and memory are those of `s`. -/
theorem State.initChannel_result {s u : State} {c : Chan} (he : u.hdmaen = s.hdmaen) (hr : u.row c = s.row c)
    (hp : ∀ x, u.env.peek x = s.env.peek x) :
    ∃ b lo hi : Byte, (∀ f g h : Chan → Byte, f c = b → g c = lo → h c = hi →
      Reads (s.frameCycles f c) (s.frameAccesses f g h c) u (u.initChannel c)) ∧
      FrameResult s u (u.initChannel c) c b lo hi := by
  unfold State.frameCycles State.frameAccesses
  by_cases hb : hasBit s.hdmaen c = true
  · obtain ⟨b, lo, hi, k1, k2, k3, k4, k5⟩ := State.initChannel_spec (s := u) (c := c) (by rw [he]; exact hb)
    rw [hr] at k1 k2 k3
    refine ⟨b, lo, hi, fun f g h hf hg hh => ?_, fun h => absurd (hb.symm.trans h) (by decide),
      fun _ => ⟨k3.mono fun x w hw => (hp x).trans hw, k1, k4, k5⟩⟩
    rw [if_pos hb, if_pos hb, hf, hg, hh]
    exact k2
  · have hb' : hasBit s.hdmaen c = false := by simpa using hb
    rw [State.initChannel_idle (s := u) (c := c) (by rw [he]; exact hb')]
    refine ⟨0, 0, 0, fun f g h _ _ _ => ?_, fun _ => ⟨by rw [State.updRow_row_self, hr], rfl, rfl⟩,
      fun h => absurd h hb⟩
    rw [if_neg hb, if_neg hb]
    exact u.updRow_reads c _

/-- The channels `l` of a frame start, from a state `u` whose rows, enable mask and memory are those of `s`. -/
theorem initChannels_spec (s : State) (l : List Chan) (hn : l.Nodup) (u : State) (he : u.hdmaen = s.hdmaen)
    (hr : ∀ c ∈ l, u.row c = s.row c) (hp : ∀ x, u.env.peek x = s.env.peek x) :
    ∃ b lo hi : Chan → Byte,
      Reads (l.map (s.frameCycles b)).sum (l.flatMap (s.frameAccesses b lo hi)) u
        (l.foldl (fun s c => s.initChannel c) u) ∧
      ∀ c ∈ l, FrameResult s u (l.foldl (fun s c => s.initChannel c) u) c (b c) (lo c) (hi c) := by
  induction l generalizing u with
  | nil => exact ⟨fun _ => 0, fun _ => 0, fun _ => 0, Reads.of_env rfl, by simp⟩
  | cons c l ih =>
    obtain ⟨hc, hn'⟩ := List.nodup_cons.1 hn
    have hne : ∀ d ∈ l, d ≠ c := fun d hd e => hc (e ▸ hd)
    have hit := u.initChannel_iteration c
    obtain ⟨b0, lo0, hi0, h1, h2⟩ := State.initChannel_result he (hr c List.mem_cons_self) hp
    have hpk := (h1 (fun _ => b0) (fun _ => lo0) (fun _ => hi0) rfl rfl rfl).peek
    obtain ⟨b, lo, hi, g1, g2⟩ := ih hn' (u.initChannel c) (by rw [hit.rest]; exact he)
      (fun d hd => (hit.others d (hne d hd)).trans (hr d (List.mem_cons_of_mem c hd))) fun x => (hpk x).trans (hp x)
    refine ⟨Function.update b c b0, Function.update lo c lo0, Function.update hi c hi0, ?_, fun d hd => ?_⟩
    · have e1 : l.map (s.frameCycles (Function.update b c b0)) = l.map (s.frameCycles b) :=
        List.map_congr_left fun d hd => by simp only [State.frameCycles, Function.update_of_ne (hne d hd)]
      have e2 : l.flatMap (s.frameAccesses (Function.update b c b0) (Function.update lo c lo0) (Function.update hi c hi0)) =
          l.flatMap (s.frameAccesses b lo hi) :=
        List.flatMap_congr fun d hd => by simp only [State.frameAccesses, Function.update_of_ne (hne d hd)]
      rw [List.map_cons, List.sum_cons, List.flatMap_cons, e1, e2]
      exact (h1 _ _ _ (Function.update_self ..) (Function.update_self ..) (Function.update_self ..)).trans g1
    · rw [List.foldl_cons]
      by_cases e : d = c
      · subst e
        have fin := foldl_keeps (P := fun t : State => t.row d = (u.initChannel d).row d ∧
            hasBit t.hdmaActive d = hasBit (u.initChannel d).hdmaActive d ∧
            hasBit t.hdmaEnded d = hasBit (u.initChannel d).hdmaEnded d) (fun s c => s.initChannel c) l
          (fun t c hc h => by
            have i := t.initChannel_iteration c
            have hcd := Ne.symm (hne c hc)
            exact ⟨(i.others d hcd).trans h.1, (i.active d hcd).trans h.2.1, (i.ended d hcd).trans h.2.2⟩)
          (u.initChannel d) ⟨rfl, rfl, rfl⟩
        obtain ⟨f1, f2, f3⟩ := fin
        simp only [Function.update_self]
        exact ⟨by rw [f1, f2, f3]; exact h2.idle, by rw [f1, f2, f3]; exact h2.reads⟩
      · have h := g2 d ((List.mem_cons.1 hd).resolve_left e)
        simp only [Function.update_of_ne e]
        refine ⟨?_, ?_⟩
        · rw [← hit.active d e, ← hit.ended d e]; exact h.idle
        · rw [← hit.active d e, ← hit.ended d e]; exact h.reads

/-! ## Scanline step -/

/-- The accesses of channel `c` in the scanline step from `s`. -/
def State.scanAccesses (s : State) (v : Chan → Nat → Byte) (b lo hi : Chan → Byte) (c : Chan) : List Observed :=
  if hasBit s.hdmaActive c then (s.row c).lineAccesses (v c) (b c) (lo c) (hi c) else []

/-- The cycle units of channel `c` in the scanline step from `s`. -/
def State.scanCycles (s : State) (b : Chan → Byte) (c : Chan) : Nat :=
  if hasBit s.hdmaActive c then
    (if (s.row c).doTransfer then 8 * len (s.row c).mode else 0) +
    (if (s.row c).lineCount = 1 then 8 + (if (s.row c).ind && !(b c == 0) then 16 else 0) else 8)
  else 0

/-- What a scanline step from `s` makes of channel `c` between `p` and `q`, `known` being the bytes it is sure to read. -/
structure ScanResult (s : State) (p q : Mask × State) (c : Chan) (known : AAddr → Byte → Prop) (v : Nat → Byte)
    (b lo hi : Byte) : Prop where
  idle : hasBit s.hdmaActive c = false →
    q.2.row c = s.row c ∧ hasBit q.1 c = false ∧ hasBit q.2.hdmaEnded c = hasBit p.2.hdmaEnded c
  data : hasBit s.hdmaActive c = true → (s.row c).dir = false → (s.row c).doTransfer = true →
    ∀ i < len (s.row c).mode, ∀ w, known ((s.row c).groupAddr i) w → v i = w
  counts : hasBit s.hdmaActive c = true → (s.row c).lineCount ≠ 1 →
    hasBit q.1 c = true ∧ hasBit q.2.hdmaEnded c = hasBit p.2.hdmaEnded c ∧
    ∃ ptr, q.2.row c = { s.row c with
      das := (s.row c).lineDas, a2a := (s.row c).lineTable
      doTransfer := (s.row c).rep, lineCount := (s.row c).lineCount - 1, ptr := ptr }
  reloads : hasBit s.hdmaActive c = true → (s.row c).lineCount = 1 →
    (s.row c).tableKnown known (s.row c).lineTable b lo hi ∧
    Channel.loads (s.row c).lineTable b lo hi { s.row c with das := (s.row c).lineDas } (q.2.row c) ∧
    hasBit q.1 c = !(b == 0) ∧ hasBit q.2.hdmaEnded c = (hasBit p.2.hdmaEnded c || b == 0)

theorem ScanResult.mono {s : State} {p q : Mask × State} {c : Chan} {k k' : AAddr → Byte → Prop} {v : Nat → Byte}
    {b lo hi : Byte} (h : ScanResult s p q c k v b lo hi) (hk : ∀ x w, k' x w → k x w) :
    ScanResult s p q c k' v b lo hi :=
  ⟨h.idle, fun h1 h2 h3 i hi w hw => h.data h1 h2 h3 i hi w (hk _ _ hw), h.counts,
    fun h1 h2 => ⟨(h.reloads h1 h2).1.mono hk, (h.reloads h1 h2).2⟩⟩

/-- Only the row and the two bits of the channel decide, before and after. -/
theorem ScanResult.congr {s : State} {p p' q q' : Mask × State} {c : Chan} {k : AAddr → Byte → Prop} {v : Nat → Byte}
    {b lo hi : Byte} (h : ScanResult s p q c k v b lo hi) (hp : hasBit p'.2.hdmaEnded c = hasBit p.2.hdmaEnded c)
    (h1 : q'.2.row c = q.2.row c) (h2 : hasBit q'.1 c = hasBit q.1 c)
    (h3 : hasBit q'.2.hdmaEnded c = hasBit q.2.hdmaEnded c) : ScanResult s p' q' c k v b lo hi :=
  ⟨by rw [h1, h2, h3, hp]; exact h.idle, h.data, by rw [h1, h2, h3, hp]; exact h.counts,
    by rw [h1, h2, h3, hp]; exact h.reloads⟩

/-- The bytes memory holds at `p` where no reverse group of a channel of `l` up to `c` stores. -/
def knownUpTo (s p : State) (l : List Chan) (c : Chan) (x : AAddr) (w : Byte) : Prop :=
  p.env.peek x = some w ∧ ∀ d ∈ l, d.toNat ≤ c.toNat → hasBit s.hdmaActive d = true → ¬(s.row d).storesTo x

/-- One channel, in a pair `p` whose own row and mask bit are those of `s`. -/
theorem advanceChannel_result {s : State} {p : Mask × State} {c : Chan} (hr : p.2.row c = s.row c)
    (hm : hasBit p.1 c = hasBit s.hdmaActive c) :
    ∃ (v : Nat → Byte) (b lo hi : Byte),
      (∀ (e : Chan → Nat → Byte) (f g h : Chan → Byte), e c = v → f c = b → g c = lo → h c = hi →
        Tells (s.scanAccesses e f g h c) p.2 (advanceChannel p c).2) ∧
      (∀ f : Chan → Byte, f c = b → (advanceChannel p c).2.env.cycles = p.2.env.cycles + s.scanCycles f c) ∧
      (∀ x, (hasBit s.hdmaActive c = true → ¬(s.row c).storesTo x) →
        (advanceChannel p c).2.env.peek x = p.2.env.peek x) ∧
      ScanResult s p (advanceChannel p c) c
        (fun x w => p.2.env.peek x = some w ∧ ¬(s.row c).storesTo x) v b lo hi := by
  unfold State.scanAccesses State.scanCycles
  by_cases hb : hasBit s.hdmaActive c = true
  · obtain ⟨v, b, lo, hi, L⟩ := advanceChannel_spec p.2 (hm.trans hb)
    obtain ⟨a1, a2, a3, a4, a9, a5, a6, a7, a8⟩ := L
    rw [hr] at a1 a2 a3 a4 a5 a6 a7 a8 a9
    refine ⟨v, b, lo, hi, fun e f g h he hf hg hh => ?_, fun f hf => ?_, fun x hx => a2 x (hx hb),
      fun h => absurd (hb.symm.trans h) (by decide), fun _ h1 h2 i hi w hw => a3 h1 h2 i hi w hw.1,
      fun _ hc => ?_, fun _ hc => ?_⟩
    · rw [if_pos hb, he, hf, hg, hh]; exact a1
    · rw [if_pos hb, hf]; exact a9
    · have z : ((s.row c).lineCount == 1) = false := by simpa using hc
      rw [z] at a5 a6
      exact ⟨a5, by simpa using a6, a7 hc⟩
    · have z : ((s.row c).lineCount == 1) = true := by simpa using hc
      rw [z, Bool.true_and] at a5 a6
      exact ⟨a4 hc, a8 hc, a5, a6⟩
  · have hb' : hasBit s.hdmaActive c = false := by simpa using hb
    rw [show advanceChannel p c = p from advanceChannel_idle p.2 (hm.trans hb')]
    refine ⟨fun _ => 0, 0, 0, 0, fun e f g h _ _ _ _ => ?_, fun f _ => by rw [if_neg hb]; rfl, fun _ _ => rfl,
      fun _ => ⟨hr, hm.trans hb', rfl⟩,
      fun h => absurd h hb, fun h => absurd h hb, fun h => absurd h hb⟩
    rw [if_neg hb]
    exact Tells.of_trace rfl

/-- The channels `l` of a scanline step, ascending, from a pair `p` whose rows and mask are those of `s`: the accesses
channel by channel, the cycles, memory kept where no reverse group stores, and the result of each channel. -/
theorem advanceChannels_spec (s : State) (l : List Chan) (hl : l.Pairwise (fun a b => a.toNat < b.toNat))
    (p : Mask × State) (hp : ∀ c ∈ l, p.2.row c = s.row c ∧ hasBit p.1 c = hasBit s.hdmaActive c) :
    ∃ (v : Chan → Nat → Byte) (b lo hi : Chan → Byte),
      Tells (l.flatMap (s.scanAccesses v b lo hi)) p.2 (l.foldl advanceChannel p).2 ∧
      (l.foldl advanceChannel p).2.env.cycles = p.2.env.cycles + (l.map (s.scanCycles b)).sum ∧
      (∀ x, (∀ d ∈ l, hasBit s.hdmaActive d = true → ¬(s.row d).storesTo x) →
        (l.foldl advanceChannel p).2.env.peek x = p.2.env.peek x) ∧
      ∀ c ∈ l, ScanResult s p (l.foldl advanceChannel p) c (knownUpTo s p.2 l c) (v c) (b c) (lo c) (hi c) := by
  induction l generalizing p with
  | nil => exact ⟨fun _ _ => 0, fun _ => 0, fun _ => 0, fun _ => 0, Tells.of_trace rfl, rfl, fun _ _ => rfl, by simp⟩
  | cons c l ih =>
    obtain ⟨hlt, hl'⟩ := List.pairwise_cons.1 hl
    have hne : ∀ d ∈ l, d ≠ c := fun d hd e => by have := hlt d hd; rw [e] at this; omega
    have hit := advanceChannel_iteration p.1 p.2 c
    have hmask := fun d (hd : d ≠ c) => (advanceChannel_mask p.1 p.2 c d).1 hd
    obtain ⟨hrc, hmc⟩ := hp c List.mem_cons_self
    obtain ⟨v0, b0, lo0, hi0, h1, h4, h2, h3⟩ := advanceChannel_result hrc hmc
    obtain ⟨v, b, lo, hi, g1, g4, g2, g3⟩ := ih hl' (advanceChannel p c) fun d hd =>
      ⟨(hit.others d (hne d hd)).trans (hp d (List.mem_cons_of_mem c hd)).1,
        (hmask d (hne d hd)).trans (hp d (List.mem_cons_of_mem c hd)).2⟩
    refine ⟨Function.update v c v0, Function.update b c b0, Function.update lo c lo0, Function.update hi c hi0, ?_, ?_,
      fun x hx => ?_, fun d hd => ?_⟩
    · have e : l.flatMap (s.scanAccesses (Function.update v c v0) (Function.update b c b0) (Function.update lo c lo0)
          (Function.update hi c hi0)) = l.flatMap (s.scanAccesses v b lo hi) :=
        List.flatMap_congr fun d hd => by simp only [State.scanAccesses, Function.update_of_ne (hne d hd)]
      rw [List.flatMap_cons, e]
      exact (h1 _ _ _ _ (Function.update_self ..) (Function.update_self ..) (Function.update_self ..)
        (Function.update_self ..)).trans g1
    · have e : l.map (s.scanCycles (Function.update b c b0)) = l.map (s.scanCycles b) :=
        List.map_congr_left fun d hd => by simp only [State.scanCycles, Function.update_of_ne (hne d hd)]
      rw [List.foldl_cons, List.map_cons, List.sum_cons, e, g4, h4 _ (Function.update_self ..), Nat.add_assoc]
    · rw [List.foldl_cons, g2 x fun d hd => hx d (List.mem_cons_of_mem c hd)]
      exact h2 x (hx c List.mem_cons_self)
    · rw [List.foldl_cons]
      by_cases e : d = c
      · subst e
        have fin := foldl_keeps (P := fun q : Mask × State => q.2.row d = (advanceChannel p d).2.row d ∧
            hasBit q.1 d = hasBit (advanceChannel p d).1 d ∧
            hasBit q.2.hdmaEnded d = hasBit (advanceChannel p d).2.hdmaEnded d) advanceChannel l
          (fun q c hc h => by
            have i := advanceChannel_iteration q.1 q.2 c
            have hcd := Ne.symm (hne c hc)
            exact ⟨(i.others d hcd).trans h.1, ((advanceChannel_mask q.1 q.2 c d).1 hcd).trans h.2.1,
              (i.ended d hcd).trans h.2.2⟩)
          (advanceChannel p d) ⟨rfl, rfl, rfl⟩
        simp only [Function.update_self]
        by_cases hb : hasBit s.hdmaActive d = true
        · exact (h3.mono fun x w hw => ⟨hw.1, hw.2 d List.mem_cons_self (Nat.le_refl _) hb⟩).congr rfl
            fin.1 fin.2.1 fin.2.2
        · exact ⟨by rw [fin.1, fin.2.1, fin.2.2]; exact h3.idle, fun h => absurd h hb, fun h => absurd h hb,
            fun h => absurd h hb⟩
      · have hd' := (List.mem_cons.1 hd).resolve_left e
        have hcd := hlt d hd'
        simp only [Function.update_of_ne e]
        refine ((g3 d hd').congr (hit.ended d e).symm rfl rfl rfl).mono fun x w hw => ⟨?_, fun c' hc' =>
          hw.2 c' (List.mem_cons_of_mem c hc')⟩
        exact (h2 x (hw.2 c List.mem_cons_self (by omega))).trans hw.1

end Sys2Proof.Machine
end

