-- ==== Sys2Proof/Laws/PerInstr.lean ====
section
/-! SUPPORT. Per-instruction facts about the encoding: the word of every well-formed instruction has the format and the
fixed bits of its row of spec/opcode_table.json. -/

namespace Sys2Proof.Laws.EncodingMatchesRow

/-- The formats of the table. -/
inductive Format where
  | regw
  | regr
  | dmap
  | lcb
  | mask
  | event
  deriving DecidableEq, Repr

/-- The format a word arrives in and its bits as the table numbers them. -/
def wordOf : Raw → Format × Nat
  | .regw addr _ => (.regw, addr.toNat)
  | .regr addr => (.regr, addr.toNat)
  | .dmap _ byte => (.dmap, byte.toNat)
  | .lcb _ byte => (.lcb, byte.toNat)
  | .mdma mask => (.mask, mask.toNat)
  | .hdma mask => (.mask, mask.toNat)
  | .event ev => (.event, ev.toNat)

/-- The row of the table: format, mask, match. -/
def rowOf : Instr → Format × Nat × Nat
  | .wrDmap _ _ => (.regw, 0xFF8F, 0x4300)
  | .wrBbad _ _ => (.regw, 0xFF8F, 0x4301)
  | .wrA1tl _ _ => (.regw, 0xFF8F, 0x4302)
  | .wrA1th _ _ => (.regw, 0xFF8F, 0x4303)
  | .wrA1b _ _ => (.regw, 0xFF8F, 0x4304)
  | .wrDasl _ _ => (.regw, 0xFF8F, 0x4305)
  | .wrDash _ _ => (.regw, 0xFF8F, 0x4306)
  | .wrDasb _ _ => (.regw, 0xFF8F, 0x4307)
  | .wrA2al _ _ => (.regw, 0xFF8F, 0x4308)
  | .wrA2ah _ _ => (.regw, 0xFF8F, 0x4309)
  | .wrNtrl _ _ => (.regw, 0xFF8F, 0x430A)
  | .wrUnimplB _ _ => (.regw, 0xFF8F, 0x430B)
  | .wrUnimplCF _ _ _ => (.regw, 0xFF8C, 0x430C)
  | .wrMdmaen _ => (.regw, 0xFFFF, 0x420B)
  | .wrHdmaen _ => (.regw, 0xFFFF, 0x420C)
  | .rdDmap _ => (.regr, 0xFF8F, 0x4300)
  | .rdBbad _ => (.regr, 0xFF8F, 0x4301)
  | .rdA1tl _ => (.regr, 0xFF8F, 0x4302)
  | .rdA1th _ => (.regr, 0xFF8F, 0x4303)
  | .rdA1b _ => (.regr, 0xFF8F, 0x4304)
  | .rdDasl _ => (.regr, 0xFF8F, 0x4305)
  | .rdDash _ => (.regr, 0xFF8F, 0x4306)
  | .rdDasb _ => (.regr, 0xFF8F, 0x4307)
  | .rdA2al _ => (.regr, 0xFF8F, 0x4308)
  | .rdA2ah _ => (.regr, 0xFF8F, 0x4309)
  | .rdNtrl _ => (.regr, 0xFF8F, 0x430A)
  | .rdUnimplB _ => (.regr, 0xFF8F, 0x430B)
  | .rdUnimplCF _ _ => (.regr, 0xFF8C, 0x430C)
  | .rdMdmaen => (.regr, 0xFFFF, 0x420B)
  | .rdHdmaen => (.regr, 0xFFFF, 0x420C)
  | .xferM0 _ => (.dmap, 0x07, 0x00)
  | .xferM1 _ => (.dmap, 0x07, 0x01)
  | .xferM2 _ => (.dmap, 0x07, 0x02)
  | .xferM3 _ => (.dmap, 0x07, 0x03)
  | .xferM4 _ => (.dmap, 0x07, 0x04)
  | .xferM5 _ => (.dmap, 0x07, 0x05)
  | .xferM6 _ => (.dmap, 0x07, 0x06)
  | .xferM7 _ => (.dmap, 0x07, 0x07)
  | .dirA2B _ => (.dmap, 0x80, 0x00)
  | .dirB2A _ => (.dmap, 0x80, 0x80)
  | .stepInc _ => (.dmap, 0x18, 0x00)
  | .stepDec _ => (.dmap, 0x18, 0x10)
  | .stepFix _ => (.dmap, 0x08, 0x08)
  | .haddrDirect _ => (.dmap, 0x40, 0x00)
  | .haddrIndirect _ => (.dmap, 0x40, 0x40)
  | .lcEnd _ => (.lcb, 0xFF, 0x00)
  | .lcRep128 _ => (.lcb, 0xFF, 0x80)
  | .lcSingle _ _ => (.lcb, 0x80, 0x00)
  | .lcRepeat _ _ => (.lcb, 0x80, 0x80)
  | .dmaExec0 => (.mask, 0x01, 0x01)
  | .dmaExec1 => (.mask, 0x02, 0x02)
  | .dmaExec2 => (.mask, 0x04, 0x04)
  | .dmaExec3 => (.mask, 0x08, 0x08)
  | .dmaExec4 => (.mask, 0x10, 0x10)
  | .dmaExec5 => (.mask, 0x20, 0x20)
  | .dmaExec6 => (.mask, 0x40, 0x40)
  | .dmaExec7 => (.mask, 0x80, 0x80)
  | .hdmaEn0 => (.mask, 0x01, 0x01)
  | .hdmaEn1 => (.mask, 0x02, 0x02)
  | .hdmaEn2 => (.mask, 0x04, 0x04)
  | .hdmaEn3 => (.mask, 0x08, 0x08)
  | .hdmaEn4 => (.mask, 0x10, 0x10)
  | .hdmaEn5 => (.mask, 0x20, 0x20)
  | .hdmaEn6 => (.mask, 0x40, 0x40)
  | .hdmaEn7 => (.mask, 0x80, 0x80)
  | .evReset => (.event, 0x04, 0x04)
  | .evHdmaInit => (.event, 0x02, 0x02)
  | .evHdmaLine => (.event, 0x01, 0x01)

/-- The fixed bits of the row, in the row's format. -/
def fits (r : Format × Nat × Nat) (w : Format × Nat) : Bool := decide (w.1 = r.1) && decide (w.2 &&& r.2.1 = r.2.2)

/-- The word of a well-formed instruction is one of its row. -/
def Statement (i : Instr) : Prop := i.wellFormed = true → fits (rowOf i) (wordOf (encode i)) = true

/-- A word of a channel register's row, whatever the channel. -/
theorem channel_fits : ∀ (r : BitVec 4) (c : Chan),
    fits (.regw, 0xFF8F, 0x4300 + r.toNat) (.regw, (channelAddr c r).toNat) = true ∧
    fits (.regr, 0xFF8F, 0x4300 + r.toNat) (.regr, (channelAddr c r).toNat) = true := by decide

theorem unimplemented_fits : ∀ (r : BitVec 2) (c : Chan),
    fits (.regw, 0xFF8C, 0x430C) (.regw, (channelAddr c (3#2 ++ r)).toNat) = true ∧
    fits (.regr, 0xFF8C, 0x430C) (.regr, (channelAddr c (3#2 ++ r)).toNat) = true := by decide

theorem count_fits : ∀ n : BitVec 7,
    fits (.lcb, 0x80, 0x00) (.lcb, (0#1 ++ n).toNat) = true ∧
    fits (.lcb, 0x80, 0x80) (.lcb, (1#1 ++ n).toNat) = true := by decide

theorem wrDmap (c : Chan) (v : Byte) : Statement (.wrDmap c v) := fun _ => (channel_fits 0 c).1
theorem wrBbad (c : Chan) (v : Byte) : Statement (.wrBbad c v) := fun _ => (channel_fits 1 c).1
theorem wrA1tl (c : Chan) (v : Byte) : Statement (.wrA1tl c v) := fun _ => (channel_fits 2 c).1
theorem wrA1th (c : Chan) (v : Byte) : Statement (.wrA1th c v) := fun _ => (channel_fits 3 c).1
theorem wrA1b (c : Chan) (v : Byte) : Statement (.wrA1b c v) := fun _ => (channel_fits 4 c).1
theorem wrDasl (c : Chan) (v : Byte) : Statement (.wrDasl c v) := fun _ => (channel_fits 5 c).1
theorem wrDash (c : Chan) (v : Byte) : Statement (.wrDash c v) := fun _ => (channel_fits 6 c).1
theorem wrDasb (c : Chan) (v : Byte) : Statement (.wrDasb c v) := fun _ => (channel_fits 7 c).1
theorem wrA2al (c : Chan) (v : Byte) : Statement (.wrA2al c v) := fun _ => (channel_fits 8 c).1
theorem wrA2ah (c : Chan) (v : Byte) : Statement (.wrA2ah c v) := fun _ => (channel_fits 9 c).1
theorem wrNtrl (c : Chan) (v : Byte) : Statement (.wrNtrl c v) := fun _ => (channel_fits 10 c).1
theorem wrUnimplB (c : Chan) (v : Byte) : Statement (.wrUnimplB c v) := fun _ => (channel_fits 11 c).1
theorem wrUnimplCF (c : Chan) (r : BitVec 2) (v : Byte) : Statement (.wrUnimplCF c r v) := fun _ => (unimplemented_fits r c).1
theorem wrMdmaen (v : Byte) : Statement (.wrMdmaen v) := by
  intro _; dsimp only [rowOf, encode, wordOf]; decide
theorem wrHdmaen (v : Byte) : Statement (.wrHdmaen v) := by
  intro _; dsimp only [rowOf, encode, wordOf]; decide
theorem rdDmap (c : Chan) : Statement (.rdDmap c) := fun _ => (channel_fits 0 c).2
theorem rdBbad (c : Chan) : Statement (.rdBbad c) := fun _ => (channel_fits 1 c).2
theorem rdA1tl (c : Chan) : Statement (.rdA1tl c) := fun _ => (channel_fits 2 c).2
theorem rdA1th (c : Chan) : Statement (.rdA1th c) := fun _ => (channel_fits 3 c).2
theorem rdA1b (c : Chan) : Statement (.rdA1b c) := fun _ => (channel_fits 4 c).2
theorem rdDasl (c : Chan) : Statement (.rdDasl c) := fun _ => (channel_fits 5 c).2
theorem rdDash (c : Chan) : Statement (.rdDash c) := fun _ => (channel_fits 6 c).2
theorem rdDasb (c : Chan) : Statement (.rdDasb c) := fun _ => (channel_fits 7 c).2
theorem rdA2al (c : Chan) : Statement (.rdA2al c) := fun _ => (channel_fits 8 c).2
theorem rdA2ah (c : Chan) : Statement (.rdA2ah c) := fun _ => (channel_fits 9 c).2
theorem rdNtrl (c : Chan) : Statement (.rdNtrl c) := fun _ => (channel_fits 10 c).2
theorem rdUnimplB (c : Chan) : Statement (.rdUnimplB c) := fun _ => (channel_fits 11 c).2
theorem rdUnimplCF (c : Chan) (r : BitVec 2) : Statement (.rdUnimplCF c r) := fun _ => (unimplemented_fits r c).2
theorem rdMdmaen : Statement .rdMdmaen := by
  intro _; dsimp only [rowOf, encode, wordOf]; decide
theorem rdHdmaen : Statement .rdHdmaen := by
  intro _; dsimp only [rowOf, encode, wordOf]; decide
theorem xferM0 (c : Chan) : Statement (.xferM0 c) := by
  intro _; dsimp only [rowOf, encode, wordOf]; decide
theorem xferM1 (c : Chan) : Statement (.xferM1 c) := by
  intro _; dsimp only [rowOf, encode, wordOf]; decide
theorem xferM2 (c : Chan) : Statement (.xferM2 c) := by
  intro _; dsimp only [rowOf, encode, wordOf]; decide
theorem xferM3 (c : Chan) : Statement (.xferM3 c) := by
  intro _; dsimp only [rowOf, encode, wordOf]; decide
theorem xferM4 (c : Chan) : Statement (.xferM4 c) := by
  intro _; dsimp only [rowOf, encode, wordOf]; decide
theorem xferM5 (c : Chan) : Statement (.xferM5 c) := by
  intro _; dsimp only [rowOf, encode, wordOf]; decide
theorem xferM6 (c : Chan) : Statement (.xferM6 c) := by
  intro _; dsimp only [rowOf, encode, wordOf]; decide
theorem xferM7 (c : Chan) : Statement (.xferM7 c) := by
  intro _; dsimp only [rowOf, encode, wordOf]; decide
theorem dirA2B (c : Chan) : Statement (.dirA2B c) := by
  intro _; dsimp only [rowOf, encode, wordOf]; decide
theorem dirB2A (c : Chan) : Statement (.dirB2A c) := by
  intro _; dsimp only [rowOf, encode, wordOf]; decide
theorem stepInc (c : Chan) : Statement (.stepInc c) := by
  intro _; dsimp only [rowOf, encode, wordOf]; decide
theorem stepDec (c : Chan) : Statement (.stepDec c) := by
  intro _; dsimp only [rowOf, encode, wordOf]; decide
theorem stepFix (c : Chan) : Statement (.stepFix c) := by
  intro _; dsimp only [rowOf, encode, wordOf]; decide
theorem haddrDirect (c : Chan) : Statement (.haddrDirect c) := by
  intro _; dsimp only [rowOf, encode, wordOf]; decide
theorem haddrIndirect (c : Chan) : Statement (.haddrIndirect c) := by
  intro _; dsimp only [rowOf, encode, wordOf]; decide
theorem lcEnd (c : Chan) : Statement (.lcEnd c) := by
  intro _; dsimp only [rowOf, encode, wordOf]; decide
theorem lcRep128 (c : Chan) : Statement (.lcRep128 c) := by
  intro _; dsimp only [rowOf, encode, wordOf]; decide
theorem lcSingle (c : Chan) (n : BitVec 7) : Statement (.lcSingle c n) := fun _ => (count_fits n).1
theorem lcRepeat (c : Chan) (n : BitVec 7) : Statement (.lcRepeat c n) := fun _ => (count_fits n).2
theorem dmaExec0 : Statement .dmaExec0 := by
  intro _; dsimp only [rowOf, encode, wordOf]; decide
theorem dmaExec1 : Statement .dmaExec1 := by
  intro _; dsimp only [rowOf, encode, wordOf]; decide
theorem dmaExec2 : Statement .dmaExec2 := by
  intro _; dsimp only [rowOf, encode, wordOf]; decide
theorem dmaExec3 : Statement .dmaExec3 := by
  intro _; dsimp only [rowOf, encode, wordOf]; decide
theorem dmaExec4 : Statement .dmaExec4 := by
  intro _; dsimp only [rowOf, encode, wordOf]; decide
theorem dmaExec5 : Statement .dmaExec5 := by
  intro _; dsimp only [rowOf, encode, wordOf]; decide
theorem dmaExec6 : Statement .dmaExec6 := by
  intro _; dsimp only [rowOf, encode, wordOf]; decide
theorem dmaExec7 : Statement .dmaExec7 := by
  intro _; dsimp only [rowOf, encode, wordOf]; decide
theorem hdmaEn0 : Statement .hdmaEn0 := by
  intro _; dsimp only [rowOf, encode, wordOf]; decide
theorem hdmaEn1 : Statement .hdmaEn1 := by
  intro _; dsimp only [rowOf, encode, wordOf]; decide
theorem hdmaEn2 : Statement .hdmaEn2 := by
  intro _; dsimp only [rowOf, encode, wordOf]; decide
theorem hdmaEn3 : Statement .hdmaEn3 := by
  intro _; dsimp only [rowOf, encode, wordOf]; decide
theorem hdmaEn4 : Statement .hdmaEn4 := by
  intro _; dsimp only [rowOf, encode, wordOf]; decide
theorem hdmaEn5 : Statement .hdmaEn5 := by
  intro _; dsimp only [rowOf, encode, wordOf]; decide
theorem hdmaEn6 : Statement .hdmaEn6 := by
  intro _; dsimp only [rowOf, encode, wordOf]; decide
theorem hdmaEn7 : Statement .hdmaEn7 := by
  intro _; dsimp only [rowOf, encode, wordOf]; decide
theorem evReset : Statement .evReset := by
  intro _; dsimp only [rowOf, encode, wordOf]; decide
theorem evHdmaInit : Statement .evHdmaInit := by
  intro _; dsimp only [rowOf, encode, wordOf]; decide
theorem evHdmaLine : Statement .evHdmaLine := by
  intro _; dsimp only [rowOf, encode, wordOf]; decide

end Sys2Proof.Laws.EncodingMatchesRow
end

