-- ==== Sys2Proof/Laws/Pointer.lean ====
section
/-! SUPPORT. The invariant of R235: every operation a step runs keeps each cached pointer at its current source byte. -/

namespace Sys2Proof.Machine

/-! ## One row -/

theorem Channel.ptrOk_none {r : Channel} (h : r.ptr = none) : r.ptrOk := by
  intro p hp; rw [h] at hp; cases hp

/-- The resolver answers its own argument, or nothing (R82). -/
theorem Env.directPointer_eq {e : Env} {a p : AAddr} (h : e.directPointer a = some p) : p = a := by
  unfold Env.directPointer at h
  split at h
  · exact (Option.some.inj h).symm
  · cases h

/-- A DMA byte's count keeps the pointer right: dropped where `DAS` is the source address, else untouched (log 22). -/
theorem Channel.ptrOk_countDas {r : Channel} (h : r.ptrOk) : r.countDas.ptrOk := by
  unfold Channel.countDas
  cases hi : r.ind with
  | true => exact Channel.ptrOk_none rfl
  | false =>
    intro p hp
    have := h p hp
    simpa [Channel.sourceAddr, Channel.sourceBank, Channel.sourceBase, hi] using this

/-- Inside a 64 KB block, `G` added to the address is `G` added to its low half. -/
theorem aAddr_add {bank : Byte} {base : Half} {g : Nat} (h : crossesBlock base g = false) :
    aAddr bank base + BitVec.ofNat 24 g = aAddr bank (base + BitVec.ofNat 16 g) := by
  have hx : base.toNat + g < 65536 := Nat.lt_of_not_le (of_decide_eq_false h)
  have hb := bank.isLt
  have e : ∀ x : Half, (aAddr bank x).toNat = bank.toNat * 65536 + x.toNat := fun x => by
    have hx := x.isLt
    rw [aAddr, BitVec.toNat_append, ← Nat.shiftLeft_add_eq_or_of_lt hx, Nat.shiftLeft_eq]
  have hs : (base + BitVec.ofNat 16 g).toNat = base.toNat + g := by
    simp only [BitVec.toNat_add, BitVec.toNat_ofNat]; omega
  apply BitVec.eq_of_toNat_eq
  rw [BitVec.toNat_add, e, e, hs, BitVec.toNat_ofNat]
  omega

/-- The pointer after a group designates the advanced source address. -/
theorem Channel.ptrOk_group {r : Channel} (g : Nat) (h : r.ptrOk) :
    Channel.ptrOk { r.advanceSource r.ind g with ptr := r.ptrAfterGroup r.ind g } := by
  intro p hp
  simp only [Channel.ptrAfterGroup] at hp
  split at hp
  · cases hp
  · next hc =>
    obtain ⟨q, hq, rfl⟩ := Option.map_eq_some_iff.1 hp
    have hx : crossesBlock (r.sourceBase r.ind) g = false := by
      cases hv : crossesBlock (r.sourceBase r.ind) g
      · rfl
      · exact absurd (by simp [hv]) hc
    rw [h q hq, Channel.sourceAddr, aAddr_add hx]
    cases hi : r.ind <;> simp [Channel.sourceAddr, Channel.sourceBank, Channel.sourceBase, Channel.advanceSource, hi]

/-! ## Operations on one channel -/

/-- Every cached pointer right before, every cached pointer right after. -/
def PointersKept (s t : State) : Prop := s.pointersAgree → t.pointersAgree

theorem PointersKept.trans {s t u : State} (h : PointersKept s t) (h' : PointersKept t u) : PointersKept s u :=
  fun x => h' (h x)

/-- The rows alone decide. -/
theorem PointersKept.of_ch {s t : State} (h : t.ch = s.ch) : PointersKept s t := fun x c => by
  rw [State.row_congr h c]; exact x c

/-- One row changed, right in the end. -/
theorem PointersKept.of_row {s t : State} (c : Chan) (ho : ∀ d, d ≠ c → t.row d = s.row d)
    (hc : (s.row c).ptrOk → (t.row c).ptrOk) : PointersKept s t := fun x d => by
  by_cases hd : d = c
  · subst hd; exact hc (x d)
  · rw [ho d hd]; exact x d

theorem Quiet.pointers {s t : State} (h : Quiet s t) : PointersKept s t := PointersKept.of_ch h.ch

theorem State.updRow_pointers (s : State) (c : Chan) (f : Channel → Channel)
    (h : (s.row c).ptrOk → (f (s.row c)).ptrOk) : PointersKept s (s.updRow c f) :=
  PointersKept.of_row c (fun _ hd => s.updRow_row_ne f hd) (by simpa using h)

theorem State.resolvePtr_ok (s : State) (c : Chan) (ind : Bool) (hi : (s.row c).ind = ind) :
    ((s.resolvePtr c ind).row c).ptrOk := by
  rw [s.resolvePtr_row]
  intro p hp
  rw [Env.directPointer_eq hp, ← hi]
  rfl

theorem State.groupPointer_ok (s : State) (c : Chan) (ind : Bool) (hi : (s.row c).ind = ind) (h : (s.row c).ptrOk) :
    ((s.groupPointer c ind).row c).ptrOk := by
  unfold State.groupPointer
  split
  · exact s.resolvePtr_ok c ind hi
  · exact h

/-- The row a group leaves, over the row it moved with. -/
theorem State.moveGroup_row_eq (s : State) (c : Chan) (ind : Bool) (r : Channel)
    (hr : (s.groupPointer c ind).row c = r) :
    (s.moveGroup c ind).row c = { r.advanceSource ind (len r.mode) with ptr := r.ptrAfterGroup ind (len r.mode) } := by
  subst hr
  unfold State.moveGroup
  rw [State.updRow_row_self, (State.moveGroupBytes_quiet _ _ _ _).row c]

/-- A group of the form the channel's control byte asks for (R229, R235). -/
theorem State.moveGroup_pointers (s : State) (c : Chan) (ind : Bool) (hi : (s.row c).ind = ind) :
    PointersKept s (s.moveGroup c ind) := by
  refine PointersKept.of_row c (State.moveGroup_onChannel s c ind fun h => hi.trans h).others fun h => ?_
  have hk := s.groupPointer_ok c ind hi h
  obtain ⟨p, hp⟩ := s.groupPointer_row c ind
  rw [State.moveGroup_row_eq s c ind _ hp]
  rw [hp] at hk
  have := Channel.ptrOk_group (len (s.row c).mode) hk
  subst hi
  exact this

/-- The address fetch of an indirect channel resolves the new `DAS` (R222 line 15). -/
theorem State.fetchIndirect_ok (s : State) (c : Chan) (hi : (s.row c).ind = true) :
    ((s.fetchIndirect c).row c).ptrOk := by
  have q := ((s.aRead_quiet (s.row c).tableAddr).trans
    (State.aRead_quiet _ (aAddr (s.row c).a1b ((s.row c).a2a + 1)))).trans
    (State.addCycles_quiet _ (2 * Config.byteCost))
  unfold State.fetchIndirect
  refine State.resolvePtr_ok _ c true ?_
  rw [State.updRow_row_self]
  exact (congrArg Channel.ind (q.row c)).trans hi

/-- After any line-count byte the pointer of the channel is right, whatever it was (R222). -/
theorem State.lineByte_ok (s : State) (c : Chan) (line : Byte) : ((s.lineByte c line).row c).ptrOk := by
  have ho : ∀ rep count, ((s.openEntry c rep count).row c).ptrOk := fun rep count => by
    unfold State.openEntry
    simp only
    split
    · next hi => exact State.fetchIndirect_ok _ c hi
    · next hi => exact State.resolvePtr_ok _ c false (by simpa using hi)
  unfold State.lineByte
  split
  · exact Channel.ptrOk_none (by simp [State.lineEnd])
  · split
    · exact ho _ _
    · split <;> exact ho _ _

theorem State.readLineCountByte_pointers (s : State) (c : Chan) : PointersKept s (s.readLineCountByte c).2 :=
  PointersKept.of_row c (s.readLineCountByte_onChannel c).others fun _ => State.lineByte_ok _ c _

/-! ## The HDMA entry points and the cycle sink -/

theorem State.initChannel_pointers (s : State) (c : Chan) : PointersKept s (s.initChannel c) := by
  refine PointersKept.of_row c (s.initChannel_iteration c).others fun h => ?_
  unfold State.initChannel
  split
  · simp only
    split <;> exact State.lineByte_ok _ c _
  · rw [State.updRow_row_self]; exact h

theorem State.lineGroup_pointers (s : State) (c : Chan) : PointersKept s (s.lineGroup c) := by
  unfold State.lineGroup
  simp only
  split
  · split
    · exact s.oamFix_quiet.pointers.trans (State.moveGroup_pointers s.oamFix c _ rfl)
    · exact s.moveGroup_pointers c _ rfl
  · exact id

theorem advanceChannel_pointers (m : Mask) (s : State) (c : Chan) : PointersKept s (advanceChannel (m, s) c).2 := by
  unfold advanceChannel
  simp only
  split
  · have h : PointersKept s
        (State.updRow c Channel.countLine (State.lineGroup c { s with currentChannel := some c })) :=
      (PointersKept.trans (t := { s with currentChannel := some c }) (PointersKept.of_ch rfl)
        (State.lineGroup_pointers _ c)).trans (State.updRow_pointers _ c _ id)
    split
    · have h' := h.trans (State.readLineCountByte_pointers _ c)
      split
      · exact h'
      · exact h'.trans (PointersKept.of_ch rfl)
    · exact h.trans (State.addCycles_quiet _ _).pointers
  · exact id

theorem State.initializeHDMALines_pointers (s : State) : PointersKept s s.initializeHDMALines := by
  intro h
  rw [State.initializeHDMALines_eq]
  exact PointersKept.of_ch (s := s.initLoop) rfl (foldl_keeps (P := State.pointersAgree) _ allChans
    (fun s c _ => s.initChannel_pointers c) _ (fun c => by simpa using h c))

theorem State.advanceHDMALines_pointers (mask : Mask) (s : State) : PointersKept s (s.advanceHDMALines mask).2 := by
  intro h
  rw [State.advanceHDMALines_eq]
  exact PointersKept.of_ch (s := (s.advanceLoop mask).2) rfl
    (foldl_keeps (P := fun p : Mask × State => p.2.pointersAgree) advanceChannel allChans
      (fun p c _ => advanceChannel_pointers p.1 p.2 c) (mask, s.advancePrelude mask) h)

theorem State.hdmaLine_pointers (s : State) : PointersKept s s.hdmaLine := by
  unfold State.hdmaLine
  split
  · exact id
  · exact (s.advanceHDMALines_pointers _).trans (PointersKept.of_ch rfl)

theorem State.deliver_pointers (s : State) (d : Due) : PointersKept s (s.deliver d) := by
  have line : ∀ {u}, PointersKept s u → PointersKept s (if d.hdmaLine then u.hdmaLine else u) := fun {u} h => by
    split
    · exact h.trans u.hdmaLine_pointers
    · exact h
  have init : ∀ {u}, PointersKept s u → PointersKept s (if d.hdmaInit then u.initializeHDMALines else u) := fun {u} h => by
    split
    · exact h.trans u.initializeHDMALines_pointers
    · exact h
  unfold State.deliver
  refine line (init ?_)
  split
  · exact PointersKept.of_ch rfl
  · exact id

theorem State.cycleSink_pointers (s : State) (c : Chan) : PointersKept s (s.cycleSink c).2 := by
  have hd : (s.addCycles Config.byteCost).nextDue.2.ch = s.ch := by
    unfold State.nextDue; split <;> rfl
  intro h
  exact PointersKept.of_ch rfl (foldl_keeps (P := State.pointersAgree) (fun s d => s.deliver d) _
    (fun s d _ => s.deliver_pointers d) _ (PointersKept.of_ch hd h))

/-! ## One step of a DMA -/

theorem ByteStep.pointers {c : Chan} {s t : State} (h : ByteStep c s t) : PointersKept s t :=
  PointersKept.of_row c h.others fun x => by
    obtain ⟨a, ha⟩ := h.row
    rw [ha]; exact x

theorem State.countByte_pointers (s : State) (c : Chan) : PointersKept s (s.countByte c) :=
  (s.updRow_pointers c Channel.countDas Channel.ptrOk_countDas).trans (PointersKept.of_ch rfl)

theorem State.closeByte_pointers (s : State) (c : Chan) : PointersKept s (s.closeByte c) := by
  have h := (s.countByte_pointers c).trans (State.cycleSink_pointers _ c)
  unfold State.closeByte
  simp only
  split
  · exact h
  · exact h.trans (PointersKept.of_ch rfl)

/-- A step of `ExecuteDMA(c)` keeps R235's invariant. -/
theorem State.dmaStep_pointers {c : Chan} {s t : State} (h : s.dmaStep c = .next t) : PointersKept s t := by
  rw [State.dmaStep_eq] at h
  cases h
  split
  · refine PointersKept.of_ch ?_
    unfold State.completeDMA State.rescheduleNmi
    split <;> rfl
  · split
    · exact s.closeByte_pointers c
    · exact (s.byteBody_byteStep c).pointers.trans (State.closeByte_pointers _ c)

/-! ## The port -/

/-- A register write of the row drops the pointer (R160). -/
theorem State.writeRow_pointers {c : Chan} {f : Channel → Channel} {s t : State} (h : s.writeRow c f = .next t) :
    PointersKept s t := by
  unfold State.writeRow State.viaPort at h
  split at h
  · cases h
  · cases h
    exact s.updRow_pointers c _ fun _ => Channel.ptrOk_none rfl

end Sys2Proof.Machine
end

