-- ==== Sys2Proof/Laws/Preempt.lean ====
section
/-! SUPPORT. What is observed during an HDMA call is observed with `InHDMA = 1` (R85, R285). -/

namespace Sys2Proof.Machine

/-- `t` comes after `s` within one HDMA call: `InHDMA` as it was, and each observation added made with it. -/
def Within (s t : State) : Prop :=
  t.inHDMA = s.inHDMA ∧ ∃ new, t.env.trace = new ++ s.env.trace ∧ ∀ x ∈ new, x.ctx.inHDMA = s.inHDMA

theorem Within.refl (s : State) : Within s s := ⟨rfl, [], rfl, by simp⟩

theorem Within.trans {s t u : State} (h : Within s t) (h' : Within t u) : Within s u := by
  obtain ⟨hi, n, ht, hc⟩ := h
  obtain ⟨hi', n', ht', hc'⟩ := h'
  refine ⟨hi'.trans hi, n' ++ n, by rw [ht', ht, List.append_assoc], fun x hx => ?_⟩
  rcases List.mem_append.1 hx with hx | hx
  · exact (hc' x hx).trans hi
  · exact hc x hx

theorem Within.foldl {α : Type} (f : State → α → State) (hf : ∀ s a, Within s (f s a)) (l : List α) (s : State) :
    Within s (l.foldl f s) := by
  induction l generalizing s with
  | nil => exact Within.refl s
  | cons a l ih => exact (hf s a).trans (ih _)

/-- Nothing observed, `InHDMA` as it was. -/
theorem Within.of_eq {s t : State} (hi : t.inHDMA = s.inHDMA) (ht : t.env.trace = s.env.trace) : Within s t :=
  ⟨hi, [], by simpa using ht, by simp⟩

theorem State.observe_within (s : State) (w : Observed) : Within s (s.observe w) :=
  ⟨rfl, [⟨w, s.context⟩], rfl, by intro x hx; rw [List.mem_singleton.1 hx]; rfl⟩

theorem State.addCycles_within (s : State) (n : Nat) : Within s (s.addCycles n) :=
  ⟨rfl, [⟨.addCycles n, s.context⟩], rfl, by intro x hx; rw [List.mem_singleton.1 hx]; rfl⟩

theorem State.updRow_within (s : State) (c : Chan) (f : Channel → Channel) : Within s (s.updRow c f) :=
  Within.of_eq rfl rfl

theorem Env.draw_trace (e : Env) : e.draw.2.trace = e.trace := by
  unfold Env.draw
  split <;> rfl

theorem Env.readByte_trace (e : Env) (a : AAddr) : (e.readByte a).2.trace = e.trace := by
  unfold Env.readByte
  split
  · rfl
  · exact e.draw_trace

theorem State.aRead_within (s : State) (a : AAddr) : Within s (s.aRead a).2 :=
  (Within.of_eq (s := s) (t := { s with env := (s.env.readByte a).2 }) rfl (s.env.readByte_trace a)).trans (observe_within _ _)

theorem State.bRead_within (s : State) (off : Byte) : Within s (s.bRead off).2 :=
  (Within.of_eq (s := s) (t := { s with env := s.env.draw.2 }) rfl s.env.draw_trace).trans (observe_within _ _)

theorem State.aWrite_within (s : State) (a : AAddr) (v : Byte) : Within s (s.aWrite a v) := by
  refine (Within.of_eq (s := s) (t := { s with env := s.env.store a v }) rfl ?_).trans (observe_within _ _)
  show (s.env.store a v).trace = _
  unfold Env.store
  split <;> rfl

theorem State.moveByte_within (s : State) (dir : Bool) (off : Byte) (a : AAddr) : Within s (s.moveByte dir off a) := by
  unfold State.moveByte
  split
  · exact (s.bRead_within off).trans (aWrite_within _ _ _)
  · exact (s.aRead_within a).trans (observe_within _ _)

theorem State.resolvePtr_within (s : State) (c : Chan) (ind : Bool) : Within s (s.resolvePtr c ind) :=
  (s.observe_within _).trans (updRow_within _ _ _)

theorem State.groupPointer_within (s : State) (c : Chan) (ind : Bool) : Within s (s.groupPointer c ind) := by
  unfold State.groupPointer
  split
  · exact s.resolvePtr_within c ind
  · exact Within.refl s

theorem State.moveGroup_within (s : State) (c : Chan) (ind : Bool) : Within s (s.moveGroup c ind) :=
  ((s.groupPointer_within c ind).trans (Within.foldl _ (fun t _ =>
    (t.moveByte_within _ _ _).trans (addCycles_within _ _)) _ _)).trans (updRow_within _ _ _)

theorem State.fetchIndirect_within (s : State) (c : Chan) : Within s (s.fetchIndirect c) :=
  ((((s.aRead_within _).trans (aRead_within _ _)).trans (addCycles_within _ _)).trans (updRow_within _ _ _)).trans
    (resolvePtr_within _ _ _)

theorem State.openEntry_within (s : State) (c : Chan) (rep : Bool) (count : Byte) :
    Within s (s.openEntry c rep count) := by
  unfold State.openEntry
  simp only
  split
  · exact (s.updRow_within _ _).trans (fetchIndirect_within _ _)
  · exact (s.updRow_within _ _).trans (resolvePtr_within _ _ _)

theorem State.lineByte_within (s : State) (c : Chan) (line : Byte) : Within s (s.lineByte c line) := by
  unfold State.lineByte
  split
  · exact s.updRow_within _ _
  · split
    · exact s.openEntry_within _ _ _
    · split
      · exact s.openEntry_within _ _ _
      · exact s.openEntry_within _ _ _

theorem State.readLineCountByte_within (s : State) (c : Chan) : Within s (s.readLineCountByte c).2 :=
  ((s.aRead_within _).trans (addCycles_within _ _)).trans (lineByte_within _ _ _)

theorem State.lineGroup_within (s : State) (c : Chan) : Within s (s.lineGroup c) := by
  unfold State.lineGroup
  simp only
  split
  · split
    · exact (s.observe_within _).trans (moveGroup_within _ _ _)
    · exact s.moveGroup_within _ _
  · exact Within.refl s

theorem State.initChannel_within (s : State) (c : Chan) : Within s (s.initChannel c) := by
  unfold State.initChannel
  split
  · have h : Within s (State.readLineCountByte c (State.updRow c (fun r => { r with a2a := r.a1t })
        { s with currentChannel := some c })).2 :=
      ((Within.of_eq (s := s) (t := { s with currentChannel := some c }) rfl rfl).trans (updRow_within _ _ _)).trans
        (readLineCountByte_within _ _)
    simp only
    split
    · exact h
    · exact h.trans (Within.of_eq rfl rfl)
  · exact s.updRow_within _ _

theorem advanceChannel_within (m : Mask) (s : State) (c : Chan) : Within s (advanceChannel (m, s) c).2 := by
  unfold advanceChannel
  simp only
  split
  · have h : Within s (State.updRow c Channel.countLine (State.lineGroup c { s with currentChannel := some c })) :=
      ((Within.of_eq (s := s) (t := { s with currentChannel := some c }) rfl rfl).trans (State.lineGroup_within _ _)).trans
        (State.updRow_within _ _ _)
    split
    · split
      · exact h.trans (State.readLineCountByte_within _ _)
      · exact (h.trans (State.readLineCountByte_within _ _)).trans (Within.of_eq rfl rfl)
    · exact h.trans (State.addCycles_within _ _)
  · exact Within.refl s

/-- The channels of one scanline, any mask. -/
theorem advanceChannels_within (l : List Chan) (p : Mask × State) : Within p.2 (l.foldl advanceChannel p).2 := by
  induction l generalizing p with
  | nil => exact Within.refl _
  | cons c l ih => exact (advanceChannel_within p.1 p.2 c).trans (ih _)

/-- An HDMA call of frame start observes with `InHDMA = 1` only. -/
theorem State.initializeHDMALines_inHDMA (s : State) :
    ∃ new, s.initializeHDMALines.env.trace = new ++ s.env.trace ∧ ∀ x ∈ new, x.ctx.inHDMA = true := by
  have h : Within { s.enterHDMA with hdmaActive := s.hdmaen, hdmaEnded := 0 } s.initLoop := by
    unfold State.initLoop
    refine Within.trans ?_ (Within.foldl _ (fun t c => t.initChannel_within c) _ _)
    unfold State.initPrelude
    simp only
    split
    · exact Within.of_eq rfl rfl
    · exact State.addCycles_within _ _
  obtain ⟨-, new, ht, hc⟩ := h
  refine ⟨new, ?_, hc⟩
  rw [s.initializeHDMALines_eq]
  unfold State.recordRan
  exact ht

/-- An HDMA call of a scanline observes with `InHDMA = 1` only. -/
theorem State.advanceHDMALines_inHDMA (mask : Mask) (s : State) :
    ∃ new, (s.advanceHDMALines mask).2.env.trace = new ++ s.env.trace ∧ ∀ x ∈ new, x.ctx.inHDMA = true := by
  have h : Within (s.enterHDMA.recordRan mask) (s.advanceLoop mask).2 :=
    (State.addCycles_within _ _).trans (advanceChannels_within _ _)
  obtain ⟨-, new, ht, hc⟩ := h
  exact ⟨new, by rw [s.advanceHDMALines_eq]; exact ht, hc⟩

end Sys2Proof.Machine
end

