-- ==== Sys2Proof/Tests/Slice0.lean ====
section
/-! SUPPORT. Tests: ill-formed terms refused, words written out from 30_encoding.md, one step per instruction with the
results of 95_test_vectors.md (or worked by hand from the rule named), and a witness for every statement's hypotheses. -/

namespace Sys2Proof.Tests

open Sys2Proof.Machine

/-! ## Helpers -/

/-- The reset state in an environment whose open parameters are known: RAM everywhere, the cells `mem` listed. -/
def lab (mem : List Host.Cell) : State :=
  { State.reset with
    env :=
      { cycles := 0, nmiPending := false, sdd1Present := true, sdd1Buf := [], aMap := [⟨0, 0x1000000, .ram⟩]
        aMem := mem, trace := [], inbox := [], script := [], answers := [], drawn := 0 } }

/-- `lab` with the row of one channel replaced. -/
def labRow (c : Chan) (r : Channel) (mem : List Host.Cell) : State := (lab mem).setRow c r

/-- A forward row: `DMAP` all clear, `BBAD`, source `A1B:A1T` and count. -/
def fwd (bbad a1b : Byte) (a1t das : Half) : Channel :=
  { Channel.reset with
    dir := false, ind := false, u5 := false, dec := false, fix := false, mode := 0
    bbad := bbad, a1b := a1b, a1t := a1t, das := das }

/-- A byte of `ExecuteDMA(c)` in flight with `n` bytes left. -/
def busy (c : Chan) (n : Nat) (s : State) : State :=
  { s.enterDMA c with seq := { Seq.idle with busy := some c, remaining := n } }

/-- What an answer leaves, where it is a next state. -/
def seen {α : Type} (r : Result) (f : State → α) : Option α :=
  match r with
  | .next t => some (f t)
  | .fault _ => none
  | .refused _ => none

/-- What has been observed, oldest first, cycles left out. -/
def told (t : State) : List Observed := accesses t.env.trace

/-- The byte a register read drives. -/
def driven (t : State) : Option Observed := t.env.trace.head?.map fun x => x.what

/-! ## Well-formedness (R102): a count of 0 belongs to other classes -/

theorem test_lcSingle_zero_refused : (Instr.lcSingle 3 0).wellFormed = false := by decide
theorem test_lcRepeat_zero_refused : (Instr.lcRepeat 0 0).wellFormed = false := by decide
theorem test_lc_counts_accepted :
    (Instr.lcSingle 3 1).wellFormed = true ∧ (Instr.lcRepeat 7 127).wellFormed = true := by decide

/-! ## Decoding: words written out from R100 to R103 and R115 -/

/-- R100: `0100 0011 0ccc rrrr`; the register number is `addr[3:0]`, the channel `addr[6:4]`. -/
theorem test_decode_reg_writes :
    decodeRegW 0b0100001100000000#16 0xA5 = .ok (.wrDmap 0 0xA5) ∧
    decodeRegW 0b0100001100010001#16 0xA5 = .ok (.wrBbad 1 0xA5) ∧
    decodeRegW 0b0100001100100010#16 0xA5 = .ok (.wrA1tl 2 0xA5) ∧
    decodeRegW 0b0100001100110011#16 0xA5 = .ok (.wrA1th 3 0xA5) ∧
    decodeRegW 0b0100001101000100#16 0xA5 = .ok (.wrA1b 4 0xA5) ∧
    decodeRegW 0b0100001101010101#16 0xA5 = .ok (.wrDasl 5 0xA5) ∧
    decodeRegW 0b0100001101100110#16 0xA5 = .ok (.wrDash 6 0xA5) ∧
    decodeRegW 0b0100001101110111#16 0xA5 = .ok (.wrDasb 7 0xA5) ∧
    decodeRegW 0b0100001100001000#16 0xA5 = .ok (.wrA2al 0 0xA5) ∧
    decodeRegW 0b0100001100011001#16 0xA5 = .ok (.wrA2ah 1 0xA5) ∧
    decodeRegW 0b0100001100101010#16 0xA5 = .ok (.wrNtrl 2 0xA5) ∧
    decodeRegW 0b0100001100111011#16 0xA5 = .ok (.wrUnimplB 3 0xA5) ∧
    decodeRegW 0b0100001101001100#16 0xA5 = .ok (.wrUnimplCF 4 0 0xA5) ∧
    decodeRegW 0b0100001101111111#16 0xA5 = .ok (.wrUnimplCF 7 3 0xA5) ∧
    decodeRegW 0b0100001000001011#16 0xA5 = .ok (.wrMdmaen 0xA5) ∧
    decodeRegW 0b0100001000001100#16 0xA5 = .ok (.wrHdmaen 0xA5) := ⟨rfl, rfl, rfl, rfl, rfl, rfl, rfl, rfl, rfl, rfl,
  rfl, rfl, rfl, rfl, rfl, rfl⟩

/-- R100, reads. -/
theorem test_decode_reg_reads :
    decodeRegR 0b0100001100000000#16 = .ok (.rdDmap 0) ∧ decodeRegR 0b0100001100010001#16 = .ok (.rdBbad 1) ∧
    decodeRegR 0b0100001100100010#16 = .ok (.rdA1tl 2) ∧ decodeRegR 0b0100001100110011#16 = .ok (.rdA1th 3) ∧
    decodeRegR 0b0100001101000100#16 = .ok (.rdA1b 4) ∧ decodeRegR 0b0100001101010101#16 = .ok (.rdDasl 5) ∧
    decodeRegR 0b0100001101100110#16 = .ok (.rdDash 6) ∧ decodeRegR 0b0100001101110111#16 = .ok (.rdDasb 7) ∧
    decodeRegR 0b0100001100001000#16 = .ok (.rdA2al 0) ∧ decodeRegR 0b0100001100011001#16 = .ok (.rdA2ah 1) ∧
    decodeRegR 0b0100001100101010#16 = .ok (.rdNtrl 2) ∧ decodeRegR 0b0100001100111011#16 = .ok (.rdUnimplB 3) ∧
    decodeRegR 0b0100001101001110#16 = .ok (.rdUnimplCF 4 2) ∧ decodeRegR 0b0100001000001011#16 = .ok .rdMdmaen ∧
    decodeRegR 0b0100001000001100#16 = .ok .rdHdmaen := ⟨rfl, rfl, rfl, rfl, rfl, rfl, rfl, rfl, rfl, rfl, rfl, rfl,
  rfl, rfl, rfl⟩

/-- R159: addresses beside the block's. -/
theorem test_decode_other_addresses :
    decodeRegW 0x42FF 0 = .error (.notTheBlocks 0x42FF) ∧ decodeRegW 0x4380 0 = .error (.notTheBlocks 0x4380) ∧
    decodeRegW 0x420A 0 = .error (.notTheBlocks 0x420A) ∧ decodeRegR 0x420D = .error (.notTheBlocks 0x420D) :=
  ⟨rfl, rfl, rfl, rfl⟩

/-- R101: `MODE` is bits 2:0, whatever the other bits. -/
theorem test_decode_xfer :
    (decodeDmap 5 0b11111000#8).xfer = .xferM0 5 ∧ (decodeDmap 5 0b00000001#8).xfer = .xferM1 5 ∧
    (decodeDmap 5 0b10101010#8).xfer = .xferM2 5 ∧ (decodeDmap 5 0b01010011#8).xfer = .xferM3 5 ∧
    (decodeDmap 5 0b00001100#8).xfer = .xferM4 5 ∧ (decodeDmap 5 0b11000101#8).xfer = .xferM5 5 ∧
    (decodeDmap 5 0b00110110#8).xfer = .xferM6 5 ∧ (decodeDmap 5 0b11111111#8).xfer = .xferM7 5 := by decide

/-- R101: `DIR` is bit 7, `IND` bit 6, `DEC` bit 4, `FIX` bit 3; `FIX` wins over `DEC`. -/
theorem test_decode_dir_step_haddr :
    (decodeDmap 6 0b01111111#8).dir = .dirA2B 6 ∧ (decodeDmap 6 0b10000000#8).dir = .dirB2A 6 ∧
    (decodeDmap 6 0b11100111#8).step = .stepInc 6 ∧ (decodeDmap 6 0b11110111#8).step = .stepDec 6 ∧
    (decodeDmap 6 0b00001000#8).step = .stepFix 6 ∧ (decodeDmap 6 0b00011000#8).step = .stepFix 6 ∧
    (decodeDmap 6 0b10111111#8).haddr = .haddrDirect 6 ∧ (decodeDmap 6 0b01000000#8).haddr = .haddrIndirect 6 := by
  decide

/-- R102: the four classes, at their edges. -/
theorem test_decode_line_count_bytes :
    decodeLcb 1 0b00000000#8 = .lcEnd 1 ∧ decodeLcb 1 0b10000000#8 = .lcRep128 1 ∧
    decodeLcb 1 0b00000001#8 = .lcSingle 1 1 ∧ decodeLcb 1 0b01111111#8 = .lcSingle 1 127 ∧
    decodeLcb 1 0b10000001#8 = .lcRepeat 1 1 ∧ decodeLcb 1 0b11111111#8 = .lcRepeat 1 127 := by decide

/-- R103: one instruction for each set bit, ascending. -/
theorem test_decode_masks :
    decodeMdma 0b11111111#8 = [.dmaExec0, .dmaExec1, .dmaExec2, .dmaExec3, .dmaExec4, .dmaExec5, .dmaExec6, .dmaExec7] ∧
    decodeMdma 0b10010000#8 = [.dmaExec4, .dmaExec7] ∧ decodeMdma 0#8 = [] ∧
    decodeHdma 0b11111111#8 = [.hdmaEn0, .hdmaEn1, .hdmaEn2, .hdmaEn3, .hdmaEn4, .hdmaEn5, .hdmaEn6, .hdmaEn7] ∧
    decodeHdma 0b01000010#8 = [.hdmaEn1, .hdmaEn6] := by decide

/-- R115: `RESET` is bit 2, `HDMA_INIT` bit 1, `HDMA_LINE` bit 0, taken in this order. -/
theorem test_decode_events :
    decodeEvent 0b100#3 = [.evReset] ∧ decodeEvent 0b010#3 = [.evHdmaInit] ∧ decodeEvent 0b001#3 = [.evHdmaLine] ∧
    decodeEvent 0b111#3 = [.evReset, .evHdmaInit, .evHdmaLine] ∧ decodeEvent 0#3 = [] := by decide

/-- A word of the table runs as the first instruction after reset: `WR.HDMAEN` with data 0x81, and mode 4. -/
theorem test_fetch_word :
    decodeTableWord 24 0x81420C = some (.wrHdmaen 0x81) ∧
    seen (step (State.reset.withFetchWord 24 0x81420C)) (fun t => t.hdmaen) = some 0x81 ∧
    decodeTableWord 8 0x04 = some (.xferM4 0) ∧
    seen (step (State.reset.withFetchWord 8 0x04)) (fun t => t.patternStep) = some 1 := ⟨rfl, rfl, rfl, rfl⟩

/-! ## Register writes -/

/-- REG-4: 0xA5 is `DIR=1 IND=0 U5=1 DEC=0 FIX=0 MODE=5`. -/
theorem test_wrDmap : seen (exec (.wrDmap 1 0xA5) (lab []))
    (fun t => ((t.row 1).dir, (t.row 1).ind, (t.row 1).u5, (t.row 1).dec, (t.row 1).fix, (t.row 1).mode)) =
    some (true, false, true, false, false, 5) := by decide
/-- REG-15: channel 7 only. -/
theorem test_wrBbad : seen (exec (.wrBbad 7 0x18) (lab [])) (fun t => ((t.row 7).bbad, (t.row 0).bbad)) =
    some (0x18, 0xFF) := by decide
/-- R132: the high half stays. -/
theorem test_wrA1tl : seen (exec (.wrA1tl 0 0x34) (lab [])) (fun t => (t.row 0).a1t) = some 0xFF34 := by decide
/-- R133: the low half stays. -/
theorem test_wrA1th : seen (exec (.wrA1th 0 0x12) (lab [])) (fun t => (t.row 0).a1t) = some 0x12FF := by decide
/-- R134: not `DASB`. -/
theorem test_wrA1b : seen (exec (.wrA1b 2 0x7E) (lab [])) (fun t => ((t.row 2).a1b, (t.row 2).dasb)) =
    some (0x7E, 0xFF) := by decide
/-- REG-6. -/
theorem test_wrDasl : seen (exec (.wrDasl 2 0xCD) (lab [])) (fun t => (t.row 2).das) = some 0xFFCD := by decide
/-- R136. -/
theorem test_wrDash : seen (exec (.wrDash 2 0x01) (lab [])) (fun t => (t.row 2).das) = some 0x01FF := by decide
/-- R137: not `A1B`. -/
theorem test_wrDasb : seen (exec (.wrDasb 3 0x7F) (lab [])) (fun t => ((t.row 3).dasb, (t.row 3).a1b)) =
    some (0x7F, 0xFF) := by decide
/-- R138. -/
theorem test_wrA2al : seen (exec (.wrA2al 0 0x00) (lab [])) (fun t => (t.row 0).a2a) = some 0xFF00 := by decide
/-- R139. -/
theorem test_wrA2ah : seen (exec (.wrA2ah 0 0x11) (lab [])) (fun t => (t.row 0).a2a) = some 0x11FF := by decide
/-- REG-8: 0x00 is `Repeat=0 LineCount=128`, `DoTransfer` unchanged. -/
theorem test_wrNtrl_zero : seen (exec (.wrNtrl 0 0x00) (lab []))
    (fun t => ((t.row 0).rep, (t.row 0).lineCount, (t.row 0).doTransfer)) = some (false, 128, false) := by decide
/-- REG-7: 0x83 is `Repeat=1 LineCount=3`. -/
theorem test_wrNtrl : seen (exec (.wrNtrl 0 0x83) (lab [])) (fun t => ((t.row 0).rep, (t.row 0).lineCount)) =
    some (true, 3) := by decide
/-- REG-10. -/
theorem test_wrUnimpl : exec (.wrUnimplCF 0 3 0x55) (lab []) = .next (lab []) ∧
    exec (.wrUnimplB 0 0x55) (lab []) = .next (lab []) := ⟨rfl, rfl⟩
/-- REG-13: 0x00 accounts nothing. -/
theorem test_wrMdmaen_zero : exec (.wrMdmaen 0) (lab []) = .next (lab []) := rfl
/-- CTL-1: both requests stand after the write. -/
theorem test_wrMdmaen : seen (exec (.wrMdmaen 0x05) (lab [])) (fun t => t.mdmaen) = some 0x05 := by decide
/-- CTL-5: an ended channel is not revived. -/
theorem test_wrHdmaen_ended : seen (exec (.wrHdmaen 0x04) { lab [] with hdmaEnded := 0x04 })
    (fun t => (t.hdmaen, t.hdmaActive)) = some (0x04, 0) := by decide
/-- REG-12. -/
theorem test_wrHdmaen : seen (exec (.wrHdmaen 0x81) (lab [])) (fun t => (t.hdmaen, t.hdmaActive)) =
    some (0x81, 0x81) := by decide

/-! ## Register reads: a row whose registers are all different, read with the values put there -/

/-- `DMAP` 0x9B: `DIR=1 IND=0 U5=0 DEC=1 FIX=1 MODE=3`; `NTRL` 0x80: `Repeat=1 LineCount=128` (REG-9). -/
def mixed : Channel where
  dir := true
  ind := false
  u5 := false
  dec := true
  fix := true
  mode := 3
  bbad := 0x18
  a1t := 0x1234
  a1b := 0x7E
  das := 0x5678
  dasb := 0x7F
  a2a := 0x9ABC
  rep := true
  lineCount := 128
  doTransfer := true
  ptr := none

theorem test_rdDmap : seen (exec (.rdDmap 4) (labRow 4 mixed [])) driven = some (some (.readBack 0x9B)) := by decide
theorem test_rdBbad : seen (exec (.rdBbad 4) (labRow 4 mixed [])) driven = some (some (.readBack 0x18)) := by decide
theorem test_rdA1tl : seen (exec (.rdA1tl 4) (labRow 4 mixed [])) driven = some (some (.readBack 0x34)) := by decide
theorem test_rdA1th : seen (exec (.rdA1th 4) (labRow 4 mixed [])) driven = some (some (.readBack 0x12)) := by decide
theorem test_rdA1b : seen (exec (.rdA1b 4) (labRow 4 mixed [])) driven = some (some (.readBack 0x7E)) := by decide
theorem test_rdDasl : seen (exec (.rdDasl 4) (labRow 4 mixed [])) driven = some (some (.readBack 0x78)) := by decide
theorem test_rdDash : seen (exec (.rdDash 4) (labRow 4 mixed [])) driven = some (some (.readBack 0x56)) := by decide
theorem test_rdDasb : seen (exec (.rdDasb 4) (labRow 4 mixed [])) driven = some (some (.readBack 0x7F)) := by decide
theorem test_rdA2al : seen (exec (.rdA2al 4) (labRow 4 mixed [])) driven = some (some (.readBack 0xBC)) := by decide
theorem test_rdA2ah : seen (exec (.rdA2ah 4) (labRow 4 mixed [])) driven = some (some (.readBack 0x9A)) := by decide
theorem test_rdNtrl : seen (exec (.rdNtrl 4) (labRow 4 mixed [])) driven = some (some (.readBack 0x80)) := by decide
/-- REG-1: the reset row reads 0x7F at `NTRL`. -/
theorem test_rdNtrl_reset : seen (exec (.rdNtrl 0) (lab [])) driven = some (some (.readBack 0x7F)) := by decide
/-- R155: the byte is the outside's. -/
theorem test_rdUnimpl :
    seen (exec (.rdUnimplB 0) { lab [] with env := { (lab []).env with answers := [0x3C] } }) driven =
      some (some (.readBack 0x3C)) ∧
    seen (exec (.rdUnimplCF 0 1) { lab [] with env := { (lab []).env with answers := [0xC3] } }) driven =
      some (some (.readBack 0xC3)) := by decide
theorem test_rdMdmaen : seen (exec .rdMdmaen { lab [] with mdmaen := 0x10 }) driven = some (some (.readBack 0x10)) := by
  decide
/-- R157: `HDMAEN`, not `HDMA_ACTIVE`. -/
theorem test_rdHdmaen : seen (exec .rdHdmaen { lab [] with hdmaen := 0x0F, hdmaActive := 0x03 }) driven =
    some (some (.readBack 0x0F)) := by decide

/-! ## The fields of a DMA byte -/

/-- DV1: the offset of the byte after `k` others, from `BBAD` 0x10. -/
def offsetAfter (i : Instr) (k : BitVec 2) : Option (Byte × BitVec 2) :=
  seen (exec i { labRow 0 (fwd 0x10 0 0 9) [] with patternStep := k }) (fun t => (t.seq.bOff, t.patternStep))

theorem test_xferM0 : offsetAfter (.xferM0 0) 0 = some (0x10, 0) := by decide
theorem test_xferM1 : offsetAfter (.xferM1 0) 1 = some (0x11, 0) := by decide
theorem test_xferM2 : offsetAfter (.xferM2 0) 1 = some (0x10, 0) := by decide
theorem test_xferM3 : offsetAfter (.xferM3 0) 2 = some (0x11, 3) := by decide
theorem test_xferM3_second : offsetAfter (.xferM3 0) 1 = some (0x10, 2) := by decide
theorem test_xferM4 : offsetAfter (.xferM4 0) 3 = some (0x13, 0) := by decide
theorem test_xferM5 : offsetAfter (.xferM5 0) 2 = some (0x10, 3) := by decide
theorem test_xferM6 : offsetAfter (.xferM6 0) 0 = some (0x10, 1) := by decide
theorem test_xferM7 : offsetAfter (.xferM7 0) 3 = some (0x11, 0) := by decide
/-- DV6: `BBAD` wraps at 8 bits. -/
theorem test_xferM4_wrap :
    seen (exec (.xferM4 0) { labRow 0 (fwd 0xFE 1 0 6) [] with patternStep := 2 }) (fun t => t.seq.bOff) = some 0x00 := by
  decide

/-- DV2: `AR 00:1000=01; BW 22<-01`. -/
theorem test_dirA2B :
    seen (exec (.dirA2B 0) { labRow 0 (fwd 0x22 0 0x1000 2) [(0x1000, 0x01)] with
      seq := { Seq.idle with bOff := 0x22 } }) told =
    some [.readByte 0x001000 0x01, .writeRegister 0x2122 0x01] := by decide
/-- DV13: the byte is the buffer's, no `AR`. -/
theorem test_dirA2B_sdd1 :
    seen (exec (.dirA2B 0) { labRow 0 (fwd 0x18 0xC0 0 3) [(0xC00000, 0x77)] with
      seq := { Seq.idle with bOff := 0x18, sdd1On := true, sdd1Index := 1 }
      env := { (lab []).env with sdd1Buf := [0xD0, 0xD1, 0xD2] } }) told =
    some [.writeRegister 0x2118 0xD1] := by decide
/-- DV5: `BR 39=5A; AW 7F:0000<-5A`. -/
theorem test_dirB2A :
    seen (exec (.dirB2A 0) { labRow 0 (fwd 0x39 0x7F 0 2) [] with
      seq := { Seq.idle with bOff := 0x39 }, env := { (lab []).env with answers := [0x5A] } })
      (fun t => (told t, t.env.peek 0x7F0000)) =
    some ([.readRegister 0x2139 0x5A, .writeByte 0x7F0000 0x5A], some 0x5A) := by decide
/-- DV6: `FFFF` steps to `0000`, the bank stays. -/
theorem test_stepInc : seen (exec (.stepInc 0) (labRow 0 (fwd 0xFE 1 0xFFFF 6) []))
    (fun t => ((t.row 0).a1b, (t.row 0).a1t)) = some (0x01, 0x0000) := by decide
/-- DV3: `0000` steps to `FFFF`, the bank stays. -/
theorem test_stepDec : seen (exec (.stepDec 7) (labRow 7 (fwd 4 2 0 3) []))
    (fun t => ((t.row 7).a1b, (t.row 7).a1t)) = some (0x02, 0xFFFF) := by decide
/-- DV4. -/
theorem test_stepFix : seen (exec (.stepFix 0) (labRow 0 (fwd 0x22 0 0x8000 4) [])) (fun t => (t.row 0).a1t) =
    some 0x8000 := by decide

/-! ## HDMA -/

/-- HV2: a direct group across the in-bank wrap. -/
theorem test_haddrDirect :
    seen (exec (.haddrDirect 0) (labRow 0 { fwd 0x0D 0 0xFFFE 0 with mode := 1, a2a := 0xFFFF }
      [(0x0000, 0xCD), (0xFFFF, 0xAB)])) (fun t => (told t, (t.row 0).a2a)) =
    some ([.readByte 0x00FFFF 0xAB, .writeRegister 0x210D 0xAB, .readByte 0x000000 0xCD, .writeRegister 0x210E 0xCD],
      0x0001) := by decide
/-- HV3: `AR 80:1234=EE; BW 21<-EE`, `DAS` 1235. -/
theorem test_haddrIndirect :
    seen (exec (.haddrIndirect 0) (labRow 0 { fwd 0x21 0 0xFFFE 0x1234 with ind := true, dasb := 0x80 }
      [(0x801234, 0xEE)])) (fun t => (told t, (t.row 0).das)) =
    some ([.readByte 0x801234 0xEE, .writeRegister 0x2121 0xEE], 0x1235) := by decide

/-- HV1's columns after the byte: `Repeat`, `LineCount`, `DoTransfer`, `A2A`. -/
def lineFields (t : State) : Bool × Byte × Bool × Half :=
  ((t.row 2).rep, (t.row 2).lineCount, (t.row 2).doTransfer, (t.row 2).a2a)

/-- HV1, 0x00. -/
theorem test_lcEnd : seen (exec (.lcEnd 2) (labRow 2 { fwd 0x21 0 0 0 with a2a := 0x2000, doTransfer := true } []))
    lineFields = some (false, 128, false, 0x2001) := by decide
/-- HV1, 0x80. -/
theorem test_lcRep128 : seen (exec (.lcRep128 2) (labRow 2 { fwd 0x21 0 0 0 with a2a := 0x2000 } [])) lineFields =
    some (true, 128, true, 0x2001) := by decide
/-- HV1, 0x45. -/
theorem test_lcSingle : seen (exec (.lcSingle 2 0x45) (labRow 2 { fwd 0x21 0 0 0 with a2a := 0x2000 } [])) lineFields =
    some (false, 0x45, true, 0x2001) := by decide
/-- HV1, 0xC5. -/
theorem test_lcRepeat : seen (exec (.lcRepeat 2 0x45) (labRow 2 { fwd 0x21 0 0 0 with a2a := 0x2000 } [])) lineFields =
    some (true, 0x45, true, 0x2001) := by decide
/-- HV3, the byte 0x81 at `00:FFFE` of an indirect channel: `AR 00:FFFF=34; AR 00:0000=12`. -/
theorem test_lcRepeat_indirect :
    seen (exec (.lcRepeat 2 1) (labRow 2 { fwd 0x21 0 0xFFFE 0 with ind := true, dasb := 0x80, a2a := 0xFFFE }
      [(0x0000, 0x12), (0xFFFF, 0x34)])) (fun t => (told t, (t.row 2).das, (t.row 2).a2a)) =
    some ([.readByte 0x00FFFF 0x34, .readByte 0x000000 0x12], 0x1234, 0x0001) := by decide

/-! ## Control -/

/-- P5: the count 0xFFFF is taken literally; 8 cycle units. -/
theorem test_dmaExec5 : seen (exec .dmaExec5 (lab [])) (fun t => (t.seq.remaining, t.env.cycles, t.currentChannel)) =
    some (0xFFFF, 8, some 5) := by decide
/-- S1: a count of 0 is 0x10000. -/
theorem test_dmaExec0 : seen (exec .dmaExec0 (labRow 0 (fwd 0x22 0 0x8000 0) [])) (fun t => t.seq.remaining) =
    some 0x10000 := by decide
/-- DV8: an invalid transfer is recognised at entry. -/
theorem test_dmaExec1 : seen (exec .dmaExec1 (labRow 1 (fwd 0x80 0x7E 0x1234 4) [])) (fun t => t.seq.invalid) =
    some true := by decide
theorem test_dmaExec2 : seen (exec .dmaExec2 (lab [])) (fun t => (t.seq.busy, t.inDMA)) = some (some 2, true) := by decide
theorem test_dmaExec3 : seen (exec .dmaExec3 (lab [])) (fun t => (t.seq.busy, t.inEither)) = some (some 3, true) := by
  decide
theorem test_dmaExec4 : seen (exec .dmaExec4 (lab [])) (fun t => t.currentChannel) = some (some 4) := by decide
theorem test_dmaExec6 : seen (exec .dmaExec6 (lab [])) (fun t => t.currentChannel) = some (some 6) := by decide
/-- DV3. -/
theorem test_dmaExec7 : seen (exec .dmaExec7 (labRow 7 (fwd 4 2 1 3) [])) (fun t => (t.seq.busy, t.seq.remaining)) =
    some (some 7, 3) := by decide

/-- The two masks after an enable bit, channel 1 having ended this frame (R265). -/
def enabled (i : Instr) : Option (Mask × Mask) :=
  seen (exec i { lab [] with hdmaEnded := 0x02 }) fun t => (t.hdmaen, t.hdmaActive)

theorem test_hdmaEn0 : enabled .hdmaEn0 = some (0x01, 0x01) := by decide
theorem test_hdmaEn1 : enabled .hdmaEn1 = some (0x02, 0x00) := by decide
theorem test_hdmaEn2 : enabled .hdmaEn2 = some (0x04, 0x04) := by decide
theorem test_hdmaEn3 : enabled .hdmaEn3 = some (0x08, 0x08) := by decide
theorem test_hdmaEn4 : enabled .hdmaEn4 = some (0x10, 0x10) := by decide
theorem test_hdmaEn5 : enabled .hdmaEn5 = some (0x20, 0x20) := by decide
theorem test_hdmaEn6 : enabled .hdmaEn6 = some (0x40, 0x40) := by decide
theorem test_hdmaEn7 : enabled .hdmaEn7 = some (0x80, 0x80) := by decide

/-- CTL-6. -/
theorem test_evReset : exec .evReset { labRow 4 mixed [] with hdmaen := 0x0F, hdmaActive := 0x03, mdmaen := 0x10 } =
    .next (lab []) := rfl
/-- HV7's tables and channels 0 and 1, channel 0's pointer at `a2a`, channel 1's 0x100 above it. -/
def twoChannels (a2a : Half) : State :=
  let row := fun n : Half =>
    { fwd 0x21 0 (0x2000 + n) 0xFFFF with a2a := a2a + n, rep := true, lineCount := 1, doTransfer := true }
  (labRow 0 (row 0) [(0x2000, 0x81), (0x2001, 0x01), (0x2002, 0x00), (0x2100, 0x81), (0x2101, 0x02),
    (0x2102, 0x00)]).setRow 1 (row 0x100)
/-- P2 at `HDMA_INIT`: `AR 00:2000=02`, `A2A` 2001, count 2, a group due. -/
theorem test_evHdmaInit :
    seen (exec .evHdmaInit { labRow 2 (fwd 0x21 0 0x2000 0xFFFF) [(0x2000, 0x02)] with hdmaen := 0x04 })
      (fun t => (told t, lineFields t, t.hdmaActive)) =
    some ([.readByte 0x002000 0x02], (false, 2, true, 0x2001), 0x04) := by decide
/-- HV7 at `HDMA_INIT`: both line-count bytes, channel 0's first. -/
theorem test_evHdmaInit_order : seen (exec .evHdmaInit { twoChannels 0x2000 with hdmaen := 0x03 }) told =
    some [.readByte 0x002000 0x81, .readByte 0x002100 0x81] := by decide
/-- HV7 at the line: channel 0's group and terminator, then channel 1's, which writes register 0x21 last. -/
theorem test_evHdmaLine :
    seen (exec .evHdmaLine { twoChannels 0x2001 with hdmaen := 0x03, hdmaActive := 0x03 })
      (fun t => (told t, (t.row 1).a2a, t.hdmaActive, t.hdmaEnded)) =
    some ([.readByte 0x002001 0x01, .writeRegister 0x2121 0x01, .readByte 0x002002 0x00,
      .readByte 0x002101 0x02, .writeRegister 0x2121 0x02, .readByte 0x002102 0x00], 0x2103, 0x00, 0x03) := by decide
/-- HV4: the OAM fix comes before the group's first byte. -/
theorem test_evHdmaLine_oam :
    seen (exec .evHdmaLine { labRow 2 { fwd 0x04 0 0x2000 0xFFFF with
        a2a := 0x2001, lineCount := 1, doTransfer := true } [(0x2001, 0x9A), (0x2002, 0x00)] with
      hdmaen := 0x04, hdmaActive := 0x04 }) told =
    some [.oamFix, .readByte 0x002001 0x9A, .writeRegister 0x2104 0x9A, .readByte 0x002002 0x00] := by decide

/-! ## Steps around `exec` -/

/-- DV14: the step that ends a call issues the pulse. -/
theorem test_step_completes :
    seen (step { busy 0 0 (lab []) with env := { (lab []).env with nmiPending := true } })
      (fun t => (t.env.trace.map fun x => x.what, t.inEither)) =
    some ([.dmaResult 0 true, .nmiReschedule Config.nmiDmaDelay], false) := by rfl
/-- P3 in the sink of byte 4: the line event handles channel 1 and the DMA on it stops. -/
theorem test_step_collides :
    seen (step { busy 1 7 (labRow 1 { fwd 0x22 0x7E 0x3003 7 with
        a2a := 0x4001, rep := true, lineCount := 2, doTransfer := true } [(0x7E3003, 0x13), (0x7E4001, 0x55)]) with
      hdmaen := 0x02, hdmaActive := 0x02
      env := { (lab [(0x7E3003, 0x13), (0x7E4001, 0x55)]).env with script := [[⟨false, true, none⟩]] } })
      (fun t => ((t.row 1).das, (t.row 1).a1t, (t.row 1).a2a, t.inDMA, t.seq.busy)) =
    some (0x0006, 0x3004, 0x4002, false, none) := by decide

/-! ## Witnesses: states and operands that meet the hypotheses of the statements of Obligations.lean -/

/-- WriteDmapSetsTheControlFields, WriteByteRegisters, WriteHalfRegisters, WriteNtrlSetsRepeatAndLineCount,
WriteUnimplementedChangesNothing, ChannelRegisterReads, EnableRegisterReads (with its last clause),
WriteMdmaenRequestsTheChannels, WriteHdmaenSetsTheActiveMask, HdmaEnableBit, WriteHdmaenRunsItsEnableBits,
DmaExecEntersTheTransfer, NtrlReadsTheByteLoaded, DmaStepsComputeExecuteDMA, ArbiterStepsComputeTheRequestedTransfers:
the port is open. -/
theorem test_witness_port_open :
    (lab []).inEither = false ∧ (lab []).seq.busy = none ∧ (lab []).portReady := ⟨rfl, rfl, rfl, rfl⟩
/-- ChannelWriteDropsTheCachedPointer, ChannelRegistersReadBackAsWritten: the first and the last register, with a cached
pointer to drop. -/
theorem test_witness_channel_registers :
    (0 : BitVec 4).toNat ≤ 0xA ∧ (10 : BitVec 4).toNat ≤ 0xA ∧
    (labRow 0 { mixed with ptr := some 0x7E1234 } []).inEither = false ∧
    ((labRow 0 { mixed with ptr := some 0x7E1234 } []).row 0).ptr = some 0x7E1234 := by decide
/-- ResetEventAndCallReset. -/
theorem test_witness_reset :
    (labRow 4 mixed []).inEither = false ∧
    ({ labRow 4 mixed [] with env := { (lab []).env with inbox := [.callResetAllChannels] } } : State).portReady :=
  ⟨rfl, rfl, rfl⟩
/-- UnimplementedReadIsADraw: its clause on a waiting answer. -/
theorem test_witness_answer :
    ({ lab [] with env := { (lab []).env with answers := [0x3C] } } : State).env.answers = [0x3C] := rfl
/-- ExcludedHostMovesAreRefused: a write, a read, a call and a reset while a DMA runs, an event inside an HDMA call. -/
theorem test_witness_excluded :
    (busy 0 4 (lab [])).inEither = true ∧ decodeRegW 0x4300 1 = .ok (.wrDmap 0 1) ∧ decodeRegR 0x420C = .ok .rdHdmaen ∧
    ((lab []).enterHDMA).inHDMA = true := ⟨rfl, rfl, rfl, rfl⟩
/-- TransactionsElsewhereAreNotTheBlocks: the addresses just outside, as a write and as a read. -/
theorem test_witness_elsewhere :
    (∀ a ∈ ([0x42FF, 0x4380, 0x420A, 0x420D] : List Half),
      ¬((0x4300 ≤ a.toNat ∧ a.toNat ≤ 0x437F) ∨ a = 0x420B ∨ a = 0x420C)) ∧
    (∀ m ∈ [Move.regWrite 0x4380 0x12, .regRead 0x42FF],
      let s : State := { lab [] with env := { (lab []).env with inbox := [m] } }
      s.seq.busy = none ∧ s.mdmaen = 0 ∧ s.env.inbox = m :: []) := by
  constructor
  · simp
  · decide
/-- PatternCyclesOverTheBytes: at entry. -/
theorem test_witness_pattern : (lab []).patternStep = 0 := rfl
/-- ForwardByteReadsThenWrites, with a source byte that memory knows. -/
theorem test_witness_forward :
    (labRow 0 (fwd 0x22 0 0x1000 2) [(0x1000, 0x01)]).seq.sdd1On = false ∧
    (labRow 0 (fwd 0x22 0 0x1000 2) [(0x1000, 0x01)]).env.peek 0x001000 = some 0x01 := by decide
/-- ReverseByteReadsThenWrites, MemoryReadsTheByteStored: an address in RAM, one in ROM and one that is not memory. -/
theorem test_witness_memory :
    (lab []).env.kindAt (0xFFFFFF : AAddr).toNat = some .ram ∧
    ({ (lab []).env with aMap := [⟨0x8000, 0x8000, .rom⟩] } : Env).kindAt (0x008000 : AAddr).toNat = some .rom ∧
    ({ (lab []).env with aMap := [⟨0x8000, 0x8000, .rom⟩] } : Env).kindAt (0x007FFF : AAddr).toNat = none := by decide
/-- Sdd1BytesComeFromTheBuffer: inside the buffer (its last byte), and at its end. -/
theorem test_witness_sdd1_byte :
    ({ Seq.idle with sdd1On := true, sdd1Index := 2 } : Seq).sdd1On = true ∧
    ([0xD0, 0xD1, 0xD2] : List Byte)[2]? = some 0xD2 ∧ ([0xD0, 0xD1, 0xD2] : List Byte)[3]? = none := by decide
/-- Sdd1HookAtEntry: DV13's state takes the hook, the same row with `FIX = 0` does not. -/
theorem test_witness_sdd1_hook :
    ({ labRow 0 { fwd 0x18 0xC0 0 3 with fix := true } [] with sdd1Flag := true } : State).inEither = false ∧
    seen (exec (dmaExecOf 0) { labRow 0 { fwd 0x18 0xC0 0 3 with fix := true } [] with sdd1Flag := true })
      (fun t => (t.seq.sdd1On, t.sdd1Flag)) = some (true, false) ∧
    seen (exec (dmaExecOf 0) { labRow 0 (fwd 0x18 0xC0 0 3) [] with sdd1Flag := true })
      (fun t => (t.seq.sdd1On, t.sdd1Flag)) = some (false, true) := by decide
/-- StepRunsOneDmaByte, NmiIsRescheduledOnCompletionOnly (second clause), CpuIsStalledWhileTransferring: one byte left. -/
theorem test_witness_byte_in_flight :
    (busy 3 1 (lab [])).seq.busy = some 3 ∧ (busy 3 1 (lab [])).seq.remaining ≠ 0 ∧
    (busy 3 1 (lab [])).seq.invalid = false := by decide
/-- NmiIsRescheduledOnCompletionOnly (first clause). -/
theorem test_witness_complete :
    (busy 3 0 (lab [])).seq.busy = some 3 ∧ (busy 3 0 (lab [])).seq.remaining = 0 := by decide
/-- InvalidByteMovesNothing. -/
theorem test_witness_invalid_byte :
    let s : State := { busy 0 4 (labRow 0 (fwd 0x80 0x7E 0x1234 4) []) with
      seq := { Seq.idle with busy := some 0, remaining := 4, invalid := true }
      env := { (lab []).env with script := [[]] } }
    s.seq.busy = some 0 ∧ s.seq.remaining ≠ 0 ∧ s.seq.invalid = true ∧ s.hdmaRanInDMA = 0 ∧
    s.env.script = [] :: [] := by decide
/-- UndisturbedTransferMovesNBytes: the count 1 with step -1, and the count 0 (0x10000 bytes) with step +1. -/
theorem test_witness_undisturbed :
    (let s : State := { labRow 0 { fwd 0x22 0 0 1 with dec := true } [] with env := { (lab []).env with script := [[]] } }
     s.inEither = false ∧ s.hdmaRanInDMA = 0 ∧ (s.row 0).isInvalid = false ∧ s.sdd1Hook (s.row 0) = false ∧
     (s.row 0).das.toNat = 1 ∧ s.env.script = List.replicate 1 [] ++ []) ∧
    ∃ script : List (List Due), script = List.replicate 0x10000 [] ++ [] ∧
      let s : State := { labRow 0 (fwd 0x22 0x7E 0xFFFF 0) [] with env := { (lab []).env with script := script } }
      s.inEither = false ∧ s.hdmaRanInDMA = 0 ∧ (s.row 0).isInvalid = false ∧ s.sdd1Hook (s.row 0) = false ∧
      (s.row 0).das = 0 ∧ s.env.script = script :=
  ⟨by decide, _, rfl, rfl, rfl, rfl, rfl, rfl, rfl⟩
/-- CollisionAbortsAfterExactlyKBytes: at the first byte of two, and at the last (DV10). -/
theorem test_witness_collision : ∀ k ∈ [1, 2],
    let s : State := { labRow 0 (fwd 0x22 0 0x1000 2) [] with
      hdmaActive := 0x01
      env := { (lab []).env with script := List.replicate (k - 1) [] ++ [⟨false, true, none⟩] :: [] } }
    s.inEither = false ∧ s.inHDMA = false ∧ s.hdmaRanInDMA = 0 ∧ (s.row 0).isInvalid = false ∧
    s.sdd1Hook (s.row 0) = false ∧ (s.row 0).ind = false ∧ 1 ≤ k ∧ k ≤ (s.row 0).das.toNat ∧
    hasBit s.hdmaActive 0 = true := by decide
/-- HdmaGroupMovesOnePattern: its clauses on a forward and on a reverse row, direct and indirect, at the end of a bank. -/
theorem test_witness_group :
    (labRow 0 { fwd 0x0D 0 0 0 with a2a := 0xFFFF } [(0xFFFF, 0xAB)]).env.peek 0x00FFFF = some 0xAB ∧
    ((labRow 0 { fwd 0x0D 0 0 0xFFFF with dir := true, ind := true } []).row 0).dir = true ∧
    (lab []).env.kindAt (0xFFFFFF : AAddr).toNat = some .ram := by decide
/-- LineCountByteResults: the least and the greatest count. -/
theorem test_witness_line_counts : (1 : BitVec 7) ≠ 0 ∧ (127 : BitVec 7) ≠ 0 := by decide
/-- IndirectAddressFetch: an indirect row whose address bytes lie across the end of the bank, and a direct row. -/
theorem test_witness_fetch :
    let s := labRow 2 { fwd 0x21 0 0 0 with ind := true, a2a := 0xFFFE } [(0x0000, 0x12), (0xFFFF, 0x34)]
    (s.row 2).ind = true ∧ s.env.peek ((s.row 2).a1b ++ ((s.row 2).a2a + 1)) = some 0x34 ∧
    s.env.peek ((s.row 2).a1b ++ ((s.row 2).a2a + 2)) = some 0x12 ∧ ((labRow 2 (fwd 0x21 0 0 0) []).row 2).ind = false := by
  decide
/-- ReadLineCountByteDecodesTheByte: a table byte of each class. -/
theorem test_witness_table_byte : ∀ b ∈ ([0x00, 0x80, 0x01, 0x7F, 0x81, 0xFF] : List Byte),
    let s := labRow 2 { fwd 0x21 0 0 0 with a2a := 0x2000 } [(0x2000, b)]
    s.env.peek ((s.row 2).a1b ++ (s.row 2).a2a) = some b := by decide
/-- FrameStart, HdmaLeavesConfigurationAndDmaState: no channel enabled, and three enabled beside five that are not: a
direct one, an indirect one whose table starts with an entry, and an indirect one whose table starts with a 0. -/
theorem test_witness_frame_start :
    let s : State := { ((labRow 2 (fwd 0x21 0 0x2000 0xFFFF) [(0x0000, 0x34), (0x0001, 0x12), (0x2000, 0x02),
        (0x3000, 0x00), (0xFFFF, 0x81)]).setRow 3 { fwd 0x22 0 0xFFFF 0 with ind := true }).setRow 4
          { fwd 0x23 0 0x3000 0x5678 with ind := true } with hdmaen := 0x1C }
    s.inHDMA = false ∧ hasBit s.hdmaen 2 = true ∧ hasBit s.hdmaen 1 = false ∧ (s.row 2).ind = false ∧
    s.env.peek ((s.row 2).a1b ++ (s.row 2).a1t) = some 0x02 ∧
    hasBit s.hdmaen 3 = true ∧ (s.row 3).ind = true ∧ s.env.peek ((s.row 3).a1b ++ (s.row 3).a1t) = some 0x81 ∧
    s.env.peek ((s.row 3).a1b ++ ((s.row 3).a1t + 1)) = some 0x34 ∧
    s.env.peek ((s.row 3).a1b ++ ((s.row 3).a1t + 2)) = some 0x12 ∧
    hasBit s.hdmaen 4 = true ∧ (s.row 4).ind = true ∧ s.env.peek ((s.row 4).a1b ++ (s.row 4).a1t) = some 0x00 ∧
    (lab []).hdmaen = 0 := by decide
/-- A line of four active channels and four that are not: channel 1 stores a reverse group at `00:4000`, channel 2 moves
a forward group and reloads a 0, channel 3 is indirect and reloads an entry, channel 4 counts (of 128 lines the first). -/
def fourChannels : State :=
  { ((((lab [(0x2000, 0x55), (0x2001, 0x00), (0x2FFE, 0x81), (0x2FFF, 0x34), (0x3000, 0x12)]).setRow 1
      { fwd 0x20 0 0 0 with dir := true, a2a := 0x4000, lineCount := 2, doTransfer := true }).setRow 2
      { fwd 0x21 0 0 0 with a2a := 0x2000, lineCount := 1, doTransfer := true }).setRow 3
      { fwd 0x22 0 0 0xFFFF with ind := true, dasb := 1, a2a := 0x2FFE, lineCount := 1, doTransfer := true }).setRow 4
      { fwd 0x23 0 0 0 with lineCount := 128, rep := true, doTransfer := true } with hdmaActive := 0x1E }
/-- LineEventRunsTheActiveChannels, ScanlineStepOfEveryChannel, ScanlineStepCycleUnits: the channels of `fourChannels`
meet every clause on a channel. -/
theorem test_witness_scanline :
    fourChannels.inHDMA = false ∧ fourChannels.hdmaActive ≠ 0 ∧ hasBit fourChannels.hdmaActive 5 = false ∧
    (∀ d ∈ [1, 2, 3, 4], hasBit fourChannels.hdmaActive d = true) ∧
    (fourChannels.row 2).dir = false ∧ (fourChannels.row 2).doTransfer = true ∧ 0 < len (fourChannels.row 2).mode ∧
    (fourChannels.row 2).lineCount = 1 ∧ (fourChannels.row 3).lineCount = 1 ∧ (fourChannels.row 3).ind = true ∧
    (fourChannels.row 4).lineCount ≠ 1 ∧ (lab []).hdmaActive = 0 := by decide
/-- ScanlineStepOfEveryChannel, its bytes: known beside the reverse group, in a forward group, in a table that ends and in
a table that goes on; and an address at which no group stores. -/
theorem test_witness_line_knows :
    fourChannels.lineKnows 2 ((fourChannels.row 2).groupAddr 0) 0x55 ∧
    fourChannels.lineKnows 2 ((fourChannels.row 2).a1b ++ (fourChannels.row 2).lineTable) 0x00 ∧
    fourChannels.lineKnows 3 ((fourChannels.row 3).a1b ++ (fourChannels.row 3).lineTable) 0x81 ∧
    fourChannels.lineKnows 3 ((fourChannels.row 3).a1b ++ ((fourChannels.row 3).lineTable + 1)) 0x34 ∧
    fourChannels.lineKnows 3 ((fourChannels.row 3).a1b ++ ((fourChannels.row 3).lineTable + 2)) 0x12 ∧
    ∀ d, hasBit fourChannels.hdmaActive d = true → ¬(fourChannels.row d).storesTo 0x004001 := by
  unfold State.lineKnows Channel.storesTo
  refine ⟨?_, ?_, ?_, ?_, ?_, ?_⟩ <;> decide
/-- DirectAdvanceAnswersASubset. -/
theorem test_witness_direct_advance :
    let s : State := { lab [] with env := { (lab []).env with inbox := [.callAdvanceHDMALines 0x81] } }
    s.portReady ∧ s.inHDMA = false := ⟨⟨rfl, rfl⟩, rfl⟩
/-- OamFixOncePerGroup: channel 6 alone is active, its group due, `BBAD = 0x04`. -/
theorem test_witness_oam :
    let s : State := { labRow 6 { fwd 0x04 0 0x2000 0 with doTransfer := true } [] with hdmaActive := 0x40 }
    s.inHDMA = false ∧ (∀ d : Chan, hasBit s.hdmaActive d = (d == 6)) ∧
    ((s.row 6).doTransfer && (s.row 6).bbad == 0x04) = true := by decide
/-- HdmaInsideADmaStopsItsOwnChannel: a sink with a line event, one with a frame start, and the same outside a DMA. -/
theorem test_witness_inside :
    let s := fun d : Due => ({ busy 1 4 (lab []) with
      hdmaActive := 0x02, env := { (lab []).env with script := [[d]] } } : State)
    (s ⟨false, true, none⟩).inDMA = true ∧ (s ⟨false, true, none⟩).env.script = [⟨false, true, none⟩] :: [] ∧
    (s ⟨false, true, none⟩).hdmaActive ≠ 0 ∧ (s ⟨true, false, none⟩).env.script = [⟨true, false, none⟩] :: [] ∧
    (lab []).inHDMA = false ∧ (lab []).inDMA = false ∧ ({ lab [] with hdmaActive := 0x02 } : State).hdmaActive ≠ 0 := by
  decide
/-- ResolversAnswerInsideRegionsOnly: a base pointer is answered for the last bank. -/
theorem test_witness_base_pointer : ((lab []).resolveBase 0xFF).seq.basePtr = some 0xFF0000 := by decide
/-- StepRunsTheDecodedInstruction: each of its four moves waiting at an open port. -/
theorem test_witness_step_decoded :
    (∀ m ∈ [Move.regWrite 0x4311 0x18, .regRead 0x437A, .event 3, .callExecuteDMA 5],
      let s : State := { lab [] with env := { (lab []).env with inbox := [m] } }
      s.seq.busy = none ∧ s.mdmaen = 0 ∧ s.env.inbox = m :: []) ∧
    decodeRegW 0x4311 0x18 = .ok (.wrBbad 1 0x18) ∧ decodeRegR 0x437A = .ok (.rdNtrl 7) :=
  ⟨by decide, rfl, rfl⟩
/-- ArbiterStartsTheLowestRequestedChannel, CpuIsStalledWhileTransferring (with `MDMAEN`): the lowest of two requests, and
channel 7 alone. -/
theorem test_witness_arbiter :
    (lab []).seq.busy = none ∧ hasBit 0x05 0 = true ∧ hasBit 0x80 7 = true ∧
    (∀ d : Chan, d.toNat < 7 → hasBit 0x80 d = false) ∧ ({ lab [] with mdmaen := 0x05 } : State).mdmaen ≠ 0 := by decide
/-- CpuIsStalledWhileTransferring, StepsOnlyAddObservations, RegisterAccessesStayOnTheBBus,
OnlyTheHostChangesConfiguration: a step of a transfer answers a next state and serves no host move. -/
theorem test_witness_step :
    (∃ t, step (busy 3 1 (lab [])) = .next t) ∧ ¬(busy 3 1 (lab [])).servesConfiguration :=
  ⟨⟨_, rfl⟩, fun h => by cases h.1.1⟩
/-- StepKeepsTheInvariant, InvariantStatesNeverStop: a transfer in flight, memory listed. -/
theorem test_witness_invariant : (busy 3 2 (labRow 3 mixed [(0x1000, 1), (0x7E0000, 2)])).Inv ∧
    ∃ t, step (busy 3 2 (labRow 3 mixed [(0x1000, 1), (0x7E0000, 2)])) = .next t :=
  ⟨⟨⟨rfl, rfl, rfl, rfl⟩, by unfold Channel.lineCountOk; decide, rfl, by decide, by decide⟩, _, rfl⟩
/-- A byte of a DMA in flight on channel 3, whose row caches the pointer of its direct or indirect source. -/
def cached (ind : Bool) : State :=
  { busy 3 2 (labRow 3 { mixed with ind := ind, ptr := some (if ind then 0x7F5678 else 0x7E9ABC) } []) with
    env := { (lab []).env with script := [[]] } }
/-- A DMA byte keeps the pointer of a direct channel, and drops that of an indirect one, whose `DAS` it counts (R235). -/
theorem test_dma_byte_pointer :
    seen (step (cached false)) (fun t => ((t.row 3).das, (t.row 3).ptr)) = some (0x5677, some 0x7E9ABC) ∧
    seen (step (cached true)) (fun t => ((t.row 3).das, (t.row 3).ptr)) = some (0x5677, none) := by decide
/-- StepKeepsTheInvariant, second clause: a pointer cached at a direct and at an indirect source; a step goes on. -/
theorem test_witness_pointers : (∀ ind, (cached ind).pointersAgree) ∧ ∀ ind, ∃ t, step (cached ind) = .next t := by
  have h : ∀ ind : Bool, ∀ c : Chan, ((cached ind).row c).ptr = none ∨
      ((cached ind).row c).ptr = some (((cached ind).row c).sourceAddr ((cached ind).row c).ind) := by decide
  refine ⟨fun ind c p hp => ?_, fun ind => ?_⟩
  · rcases h ind c with e | e
    · rw [e] at hp; cases hp
    · rw [e] at hp; exact (Option.some.inj hp).symm
  · cases ind <;> exact ⟨_, rfl⟩
/-- StepKeepsTheMasksDisjoint: a channel active, one ended, and a move that is no direct call waiting. -/
theorem test_witness_masks :
    let s : State := { lab [] with
      hdmaen := 0x06, hdmaActive := 0x02, hdmaEnded := 0x04, env := { (lab []).env with inbox := [.event 1] } }
    s.schedulerOnly ∧ s.masksAgree ∧ ∃ t, step s = .next t := by
  refine ⟨fun m hm mask => ?_, by unfold State.masksAgree; decide, _, rfl⟩
  simp only [List.mem_cons, List.not_mem_nil, or_false] at hm
  subst hm
  exact fun h => by cases h
/-- DecodeOfEncodeIsTheInstruction: a count at each end of its range. -/
theorem test_witness_well_formed :
    (Instr.lcSingle 7 1).wellFormed = true ∧ (Instr.lcRepeat 0 127).wellFormed = true ∧
    (Instr.wrUnimplCF 7 3 0xFF).wellFormed = true := by decide

end Sys2Proof.Tests
end

section
/-! PROOFS. Family 00_scope: what a step that takes a host move can do, and from it R8, R11, R266 and R292: no step takes
an observation back, and no state of the invariant stops. -/

namespace Sys2Proof.Machine

/-! ## The guards of R293, read backwards -/

theorem State.viaPort_eq_next {s t : State} {f : State → State} (h : s.viaPort f = .next t) : t = f s := by
  unfold State.viaPort at h
  split at h
  · cases h
  · exact (Host.Outcome.next.inj h).symm

theorem State.outsideHDMA_eq_next {s t : State} {f : State → State} (h : s.outsideHDMA f = .next t) : t = f s := by
  unfold State.outsideHDMA at h
  split at h
  · cases h
  · exact (Host.Outcome.next.inj h).symm

theorem State.startDMA_eq_next {s t : State} {c : Chan} (h : s.startDMA c = .next t) : t = s.beginDMA c := by
  unfold State.startDMA at h
  split at h
  · cases h
  · exact (Host.Outcome.next.inj h).symm

/-! ## Register accesses -/

/-- The instruction is a register access: it runs through the port (R158), and where it is served it adds observations
only, with the cycles they account. -/
def IsPortAccess (i : Instr) : Prop :=
  ∃ f : State → State, (∀ s, exec i s = s.viaPort f) ∧ ∀ s : State, s.env.Grows (f s).env

theorem IsPortAccess.next {i : Instr} (h : IsPortAccess i) {s : State} (hs : s.inEither = false) :
    ∃ t, exec i s = .next t := by
  obtain ⟨f, hf, -⟩ := h
  exact ⟨f s, (hf s).trans (State.viaPort_next hs f)⟩

theorem IsPortAccess.grows {i : Instr} (h : IsPortAccess i) {s t : State} (ht : exec i s = .next t) :
    s.env.Grows t.env := by
  obtain ⟨f, hf, hg⟩ := h
  rw [hf s] at ht
  rw [State.viaPort_eq_next ht]
  exact hg s

theorem IsPortAccess.of_writeRow {i : Instr} {c : Chan} {f : Channel → Channel} (h : ∀ s, exec i s = s.writeRow c f) :
    IsPortAccess i := ⟨_, h, fun s => Env.Grows.refl s.env⟩

theorem State.readBack_grows (s : State) (v : Byte) : s.env.Grows (s.readBack v).env :=
  s.observe_grows (.readBack v) rfl rfl

theorem IsPortAccess.of_readBack {i : Instr} {g : State → Byte}
    (h : ∀ s, exec i s = s.viaPort fun s => s.readBack (g s)) : IsPortAccess i :=
  ⟨_, h, fun s => s.readBack_grows (g s)⟩

theorem IsPortAccess.of_readUnimplemented {i : Instr} (h : ∀ s, exec i s = s.readUnimplemented) : IsPortAccess i :=
  ⟨_, h, fun s => (EnvStep.draw s.env).growsEnv.trans (State.readBack_grows { s with env := s.env.draw.2 } _)⟩

/-- A write of `MDMAEN` accounts `DMA_SYNC_COST` where the mask is not 0 (R142). -/
theorem isPortAccess_wrMdmaen (v : Byte) : IsPortAccess (.wrMdmaen v) := by
  refine ⟨_, fun _ => rfl, fun s => ?_⟩
  simp only
  split
  · exact Env.Grows.refl s.env
  · exact (State.addCycles_quiet { s with mdmaen := v } Config.dmaSyncCost).env.growsEnv

theorem isPortAccess_wrHdmaen (v : Byte) : IsPortAccess (.wrHdmaen v) := ⟨_, fun _ => rfl, fun s => Env.Grows.refl s.env⟩

theorem isPortAccess_channelWrite (c : Chan) (r : BitVec 4) (v : Byte) : IsPortAccess (channelWrite c r v) := by
  unfold channelWrite
  split
  case h_12 | h_13 => exact ⟨_, fun _ => rfl, fun s => Env.Grows.refl s.env⟩
  all_goals exact IsPortAccess.of_writeRow fun _ => rfl

theorem isPortAccess_channelRead (c : Chan) (r : BitVec 4) : IsPortAccess (channelRead c r) := by
  unfold channelRead
  split
  case h_12 | h_13 => exact IsPortAccess.of_readUnimplemented fun _ => rfl
  all_goals exact IsPortAccess.of_readBack fun _ => rfl

/-- Whatever address of the block a register write goes to, it is a register access (R100). -/
theorem decodeRegW_isPortAccess {addr : Half} {data : Byte} {i : Instr} (h : decodeRegW addr data = .ok i) :
    IsPortAccess i := by
  unfold decodeRegW at h
  split at h
  · cases h; exact isPortAccess_wrMdmaen data
  · split at h
    · cases h; exact isPortAccess_wrHdmaen data
    · split at h
      · cases h; exact isPortAccess_channelWrite _ _ data
      · cases h

/-- Whatever address of the block a register read goes to, it is a register access (R100). -/
theorem decodeRegR_isPortAccess {addr : Half} {i : Instr} (h : decodeRegR addr = .ok i) : IsPortAccess i := by
  unfold decodeRegR at h
  split at h
  · cases h; exact IsPortAccess.of_readBack fun _ => rfl
  · split at h
    · cases h; exact IsPortAccess.of_readBack fun _ => rfl
    · split at h
      · cases h; exact isPortAccess_channelRead _ _
      · cases h

/-! ## Deliveries on the event input -/

/-- The instructions of one delivery are among the three events (R115). -/
theorem mem_decodeEvent {ev : BitVec 3} {i : Instr} (h : i ∈ decodeEvent ev) :
    i = .evReset ∨ i = .evHdmaInit ∨ i = .evHdmaLine := by
  have mem_ite : ∀ (b : Bool) (j : Instr), i ∈ (if b then [j] else []) → i = j := by
    intro b j hi
    cases b <;> simp_all
  simp only [decodeEvent, List.mem_append] at h
  obtain (h | h) | h := h
  · exact .inl (mem_ite _ _ h)
  · exact .inr (.inl (mem_ite _ _ h))
  · exact .inr (.inr (mem_ite _ _ h))

theorem exec_event_grows {i : Instr} (hi : i = .evReset ∨ i = .evHdmaInit ∨ i = .evHdmaLine) {s t : State}
    (h : exec i s = .next t) : s.env.Grows t.env := by
  obtain rfl | rfl | rfl := hi
  · change execEvReset s = .next t at h
    unfold execEvReset at h
    split at h
    · cases h
    · cases h; exact Env.Grows.refl s.env
  · rw [State.outsideHDMA_eq_next (f := State.initializeHDMALines) h]
    exact s.initializeHDMALines_sink.env.growsEnv
  · rw [State.outsideHDMA_eq_next (f := State.hdmaLine) h]
    exact s.hdmaLine_sink.env.growsEnv

/-- A sequence of instructions that each only add observations only adds observations. -/
theorem execSeq_grows {l : List Instr} (hl : ∀ i ∈ l, ∀ s t, exec i s = .next t → s.env.Grows t.env) {s t : State}
    (h : execSeq l s = .next t) : s.env.Grows t.env := by
  induction l generalizing s with
  | nil => cases h; exact Env.Grows.refl _
  | cons i l ih =>
    unfold execSeq at h
    split at h
    · next u hu =>
      exact (hl i List.mem_cons_self s u hu).trans (ih (fun j hj => hl j (List.mem_cons_of_mem i hj)) h)
    · cases h
    · cases h

/-- A sequence of instructions that each answer a next state in which `P` holds again answers a next state. -/
theorem execSeq_next {P : State → Prop} {l : List Instr} (hl : ∀ i ∈ l, ∀ s, P s → ∃ t, exec i s = .next t ∧ P t)
    {s : State} (hs : P s) : ∃ t, execSeq l s = .next t ∧ P t := by
  induction l generalizing s with
  | nil => exact ⟨s, rfl, hs⟩
  | cons i l ih =>
    obtain ⟨u, hu, hP⟩ := hl i List.mem_cons_self s hs
    rw [execSeq_cons_next hu]
    exact ih (fun j hj => hl j (List.mem_cons_of_mem i hj)) hP

/-- No transfer runs: the flags with which R293 refuses none of the host's moves. -/
structure State.AtRest (s : State) : Prop where
  inDMA : s.inDMA = false
  inHDMA : s.inHDMA = false
  inEither : s.inEither = false

/-- The flags agree with the call in flight, so where none is they are at rest. -/
theorem State.flagsAgree.atRest {s : State} (h : s.flagsAgree) (hb : s.seq.busy = none) : s.AtRest := by
  obtain ⟨hi, he, hd, -⟩ := h
  have hd' : s.inDMA = false := by rw [hd, hb]; rfl
  exact ⟨hd', hi, he.trans hd'⟩

theorem HdmaCall.atRest {s t : State} (h : HdmaCall s t) (hs : s.AtRest) : t.AtRest :=
  ⟨h.keeps.inDMA.trans hs.inDMA, h.inHDMA, h.inEither.trans hs.inDMA⟩

/-- At rest an event is served and leaves the machine at rest, so that the next of its delivery is served too. -/
theorem exec_event_next {i : Instr} (hi : i = .evReset ∨ i = .evHdmaInit ∨ i = .evHdmaLine) {s : State}
    (hs : s.AtRest) : ∃ t, exec i s = .next t ∧ t.AtRest := by
  obtain rfl | rfl | rfl := hi
  · refine ⟨s.resetAllChannels.resetGlobals, ?_, rfl, rfl, rfl⟩
    change execEvReset s = _
    unfold execEvReset
    rw [hs.inEither]
    rfl
  · exact ⟨_, State.outsideHDMA_next hs.inHDMA State.initializeHDMALines, s.initializeHDMALines_call.atRest hs⟩
  · have he : s.inEither = s.inDMA := hs.inEither.trans hs.inDMA.symm
    exact ⟨_, State.outsideHDMA_next hs.inHDMA State.hdmaLine, (s.hdmaLine_call hs.inHDMA he).atRest hs⟩

/-! ## The step as a whole -/

theorem exec_dmaExecOf_grows {c : Chan} {s t : State} (h : exec (dmaExecOf c) s = .next t) : s.env.Grows t.env := by
  rw [exec_dmaExecOf] at h
  obtain ⟨_, _, _, _, _, hb, he⟩ := s.beginDMA_shape c
  rw [State.startDMA_eq_next h, hb]
  exact he.growsEnv

theorem callAdvance_grows {mask : Mask} {s t : State} (h : callAdvance mask s = .next t) : s.env.Grows t.env := by
  rw [State.outsideHDMA_eq_next h]
  exact (s.advanceHDMALines_call mask).keeps.env.growsEnv.trans
    (State.observe_grows (s.advanceHDMALines mask).2 (.remainingMask (s.advanceHDMALines mask).1) rfl rfl)

/-- Serving a host move only adds observations, with the cycles they account. -/
theorem serve_grows {m : Move} {s t : State} (h : serve m s = .next t) : s.env.Grows t.env := by
  cases m <;> simp only [serve] at h
  case regWrite addr data =>
    split at h
    · next hi => exact (decodeRegW_isPortAccess hi).grows h
    · cases h; exact Env.Grows.refl s.env
  case regRead addr =>
    split at h
    · next hi => exact (decodeRegR_isPortAccess hi).grows h
    · cases h; exact Env.Grows.refl s.env
  case event ev => exact execSeq_grows (fun i hi _ _ => exec_event_grows (mem_decodeEvent hi)) h
  case callExecuteDMA c => exact exec_dmaExecOf_grows h
  case callInitializeHDMALines => exact exec_event_grows (.inr (.inl rfl)) h
  case callAdvanceHDMALines mask => exact callAdvance_grows h
  case callResetAllChannels => cases h; exact Env.Grows.refl s.env
  case setNmi level => cases h; exact Env.Grows.refl s.env
  case loadSdd1 buf => cases h; split <;> exact Env.Grows.refl s.env
  case cpuStore addr v => cases h; exact (EnvStep.store s.env addr v).growsEnv

/-- At rest every host move is served (R292, R293). -/
theorem serve_next (m : Move) {s : State} (hs : s.AtRest) : ∃ t, serve m s = .next t := by
  cases m <;> simp only [serve]
  case regWrite addr data =>
    split
    · next hi => exact (decodeRegW_isPortAccess hi).next hs.inEither
    · exact ⟨s, rfl⟩
  case regRead addr =>
    split
    · next hi => exact (decodeRegR_isPortAccess hi).next hs.inEither
    · exact ⟨s, rfl⟩
  case event ev =>
    obtain ⟨t, ht, -⟩ := execSeq_next (fun i hi _ => exec_event_next (mem_decodeEvent (ev := ev) hi)) hs
    exact ⟨t, ht⟩
  case callExecuteDMA c => exact ⟨_, (exec_dmaExecOf c s).trans (State.startDMA_next hs.inEither c)⟩
  case callInitializeHDMALines => exact ⟨_, State.outsideHDMA_next hs.inHDMA State.initializeHDMALines⟩
  case callAdvanceHDMALines mask => exact ⟨_, State.outsideHDMA_next hs.inHDMA _⟩
  all_goals exact ⟨_, rfl⟩

/-- A step between transfers, its three cases: the arbiter's request, no move waiting, the next host move. -/
theorem State.idleStep_cases (s : State) :
    (∃ c, s.idleStep = exec (dmaExecOf c) s) ∨ s.idleStep = .next s ∨
    ∃ m rest, s.env.inbox = m :: rest ∧ s.idleStep = serve m { s with env := { s.env with inbox := rest } } := by
  unfold State.idleStep
  split
  · next c _ => exact .inl ⟨c, rfl⟩
  · split
    · exact .inr (.inl rfl)
    · next m rest hm => exact .inr (.inr ⟨m, rest, hm, rfl⟩)

theorem State.idleStep_grows {s t : State} (h : s.idleStep = .next t) : s.env.Grows t.env := by
  obtain ⟨c, hc⟩ | hn | ⟨m, rest, -, hm⟩ := s.idleStep_cases
  · exact exec_dmaExecOf_grows (hc.symm.trans h)
  · cases hn.symm.trans h; exact Env.Grows.refl s.env
  · exact serve_grows (s := { s with env := { s.env with inbox := rest } }) (hm.symm.trans h)

/-- Every step only adds observations, with the cycles they account, on the B-bus window (R11, R71, R266). -/
theorem step_grows {s t : State} (h : step s = .next t) : s.env.Grows t.env := by
  cases hb : s.seq.busy with
  | some c => rw [step_busy hb] at h; exact State.dmaStep_grows h
  | none => rw [step_idle hb] at h; exact State.idleStep_grows h

theorem State.idleStep_next {s : State} (hs : s.AtRest) : ∃ t, s.idleStep = .next t := by
  obtain ⟨c, hc⟩ | hn | ⟨m, rest, -, hm⟩ := s.idleStep_cases
  · exact ⟨_, hc.trans ((exec_dmaExecOf c s).trans (State.startDMA_next hs.inEither c))⟩
  · exact ⟨s, hn⟩
  · rw [hm]
    exact serve_next m ⟨hs.inDMA, hs.inHDMA, hs.inEither⟩

/-- Settles O58: a step of a transfer in flight always goes on; between transfers the flags are at rest, where R293
refuses nothing. -/
theorem invariantStatesNeverStop : Obligations.InvariantStatesNeverStop := by
  intro s hs
  cases hb : s.seq.busy with
  | some c =>
    obtain ⟨t, ht, -⟩ := s.dmaStep_keeps c
    exact ⟨t, (step_busy hb).trans ht⟩
  | none =>
    rw [step_idle hb]
    exact State.idleStep_next (hs.flags.atRest hb)

/-- Settles O52: `step_grows` without its window clause. -/
theorem stepsOnlyAddObservations : Obligations.StepsOnlyAddObservations := by
  intro s t h
  obtain ⟨new, htrace, hcycles, -⟩ := step_grows h
  exact ⟨new, htrace, hcycles⟩

end Sys2Proof.Machine
end

section
/-! PROOFS. Family 10_state: what a step between transfers is made of, said once (`HostOp`, `step_cases`), and from it the
invariants of R39, R43, R57, R70, R192 and R235; the reset values (R55) and the registers' read after write (R119). -/

namespace Sys2Proof.Machine

/-! ## The operations of a step between transfers -/

/-- One operation of a step taken from `s₀` that serves the host, from `u` to the third argument (R269, R294). The
configuration of a channel changes where the step serves a host move that writes it, and `AdvanceHDMALines` is called
directly where a waiting move calls it. -/
inductive HostOp (s₀ u : State) : State → Prop where
  /-- Inputs, observations and the two globals they come with; no move is added to those waiting. -/
  | outside (mdmaen : Mask) (sdd1Flag : Bool) (e : Env) (inbox : ∀ m ∈ e.inbox, m ∈ u.env.inbox)
      (memory : Memory.wf u.env.aMem = true → Memory.wf e.aMem = true) :
      HostOp s₀ u { u with mdmaen := mdmaen, sdd1Flag := sdd1Flag, env := e }
  /-- A write to a register 0x0 to 0xA, which drops the cached pointer (R160). -/
  | writeRow (h : s₀.servesConfiguration) (c : Chan) (f : Channel → Channel)
      (count : ∀ r : Channel, r.lineCountOk → (f r).lineCountOk) :
      HostOp s₀ u (u.updRow c fun r => { f r with ptr := none })
  /-- A write of `HDMAEN` (R143). -/
  | writeHdmaen (v : Mask) : HostOp s₀ u { u with hdmaen := v, hdmaActive := v &&& ~~~u.hdmaEnded }
  /-- `InitializeHDMALines` (R221, R262). -/
  | frameStart : HostOp s₀ u u.initializeHDMALines
  /-- The scheduler's scanline step (R263). -/
  | scanline : HostOp s₀ u u.hdmaLine
  /-- A direct call of `AdvanceHDMALines` (R228). -/
  | advance (mask : Mask) (h : .callAdvanceHDMALines mask ∈ s₀.env.inbox) : HostOp s₀ u (u.advanceHDMALines mask).2
  /-- `ResetAllChannels` (R310). -/
  | resetChannels (h : s₀.servesConfiguration) : HostOp s₀ u u.resetAllChannels
  /-- The reset of the global state (R311). -/
  | resetGlobals : HostOp s₀ u u.resetGlobals

/-- Several operations of one step. -/
abbrev HostOps (s₀ : State) : State → State → Prop := Relation.ReflTransGen (HostOp s₀)

/-- What every operation keeps, several of them keep. -/
theorem HostOps.keeps {P : State → Prop} {s₀ u v : State} (h : HostOps s₀ u v)
    (hP : ∀ u v, HostOp s₀ u v → P u → P v) (hu : P u) : P v := by
  induction h with
  | refl => exact hu
  | tail _ hop ih => exact hP _ _ hop ih

/-- A change of the environment alone. -/
theorem HostOps.withEnv {s₀ : State} (u : State) (e : Env) (hi : e.inbox = u.env.inbox)
    (hm : Memory.wf u.env.aMem = true → Memory.wf e.aMem = true) : HostOps s₀ u { u with env := e } :=
  .single (.outside u.mdmaen u.sdd1Flag e (fun m hm => by rwa [← hi]) hm)

theorem Quiet.hostOps {s₀ u v : State} (h : Quiet u v) : HostOps s₀ u v := by
  rw [h.rest]
  exact HostOps.withEnv u v.env h.env.inbox h.env.memory

theorem HostOps.observe {s₀ : State} (u : State) (w : Observed) : HostOps s₀ u (u.observe w) :=
  HostOps.withEnv u _ rfl id

/-! ## Register accesses as operations -/

/-- An access through the port does what stands behind the port (R158). -/
theorem hostOps_of_viaPort {i : Instr} {f : State → State} {s₀ u v : State} (hf : ∀ s, exec i s = s.viaPort f)
    (h : exec i u = .next v) (hops : HostOps s₀ u (f u)) : HostOps s₀ u v := by
  rw [hf u] at h
  rwa [State.viaPort_eq_next h]

theorem hostOps_of_writeRow {i : Instr} {c : Chan} {f : Channel → Channel} {s₀ u v : State}
    (hf : ∀ s, exec i s = s.writeRow c f) (hc : s₀.servesConfiguration) (h : exec i u = .next v)
    (count : ∀ r : Channel, r.lineCountOk → (f r).lineCountOk) : HostOps s₀ u v :=
  hostOps_of_viaPort hf h (.single (.writeRow hc c f count))

theorem hostOps_of_readBack {i : Instr} {g : State → Byte} {s₀ u v : State}
    (hf : ∀ s, exec i s = s.viaPort fun s => s.readBack (g s)) (h : exec i u = .next v) : HostOps s₀ u v :=
  hostOps_of_viaPort hf h (HostOps.observe u _)

theorem hostOps_of_readUnimplemented {i : Instr} {s₀ u v : State} (hf : ∀ s, exec i s = s.readUnimplemented)
    (h : exec i u = .next v) : HostOps s₀ u v :=
  hostOps_of_viaPort hf h
    ((u.withEnv_quiet _ (EnvStep.draw u.env)).hostOps.trans (HostOps.observe { u with env := u.env.draw.2 } _))

theorem Channel.withNtrlByte_count (v : Byte) (r : Channel) : (r.withNtrlByte v).lineCountOk := lineCountOf_range _

theorem hostOps_of_channelWrite {c : Chan} {r : BitVec 4} {b : Byte} {s₀ u v : State} (hc : s₀.servesConfiguration)
    (h : exec (channelWrite c r b) u = .next v) : HostOps s₀ u v := by
  unfold channelWrite at h
  split at h
  case h_11 => exact hostOps_of_writeRow (fun _ => rfl) hc h fun r _ => r.withNtrlByte_count b
  case h_12 | h_13 => exact hostOps_of_viaPort (fun _ => rfl) h .refl
  all_goals
    refine hostOps_of_writeRow (fun _ => rfl) hc h ?_
    exact fun _ hr => hr

theorem hostOps_of_channelRead {c : Chan} {r : BitVec 4} {s₀ u v : State} (h : exec (channelRead c r) u = .next v) :
    HostOps s₀ u v := by
  unfold channelRead at h
  split at h
  case h_12 | h_13 => exact hostOps_of_readUnimplemented (fun _ => rfl) h
  all_goals exact hostOps_of_readBack (fun _ => rfl) h

theorem hostOps_of_wrMdmaen {b : Byte} {s₀ u v : State} (h : exec (.wrMdmaen b) u = .next v) : HostOps s₀ u v := by
  refine hostOps_of_viaPort (fun _ => rfl) h ?_
  have store : HostOps s₀ u { u with mdmaen := b } := .single (.outside b u.sdd1Flag u.env (fun _ => id) id)
  simp only
  split
  · exact store
  · exact store.trans (State.addCycles_quiet _ _).hostOps

/-- A register write is made of operations (R130 to R143). -/
theorem decodeRegW_hostOps {s₀ u v : State} {addr : Half} {data : Byte} {i : Instr} (hc : s₀.servesConfiguration)
    (hi : decodeRegW addr data = .ok i) (h : exec i u = .next v) : HostOps s₀ u v := by
  unfold decodeRegW at hi
  split at hi
  · cases hi; exact hostOps_of_wrMdmaen h
  · split at hi
    · cases hi; exact hostOps_of_viaPort (fun _ => rfl) h (.single (.writeHdmaen data))
    · split at hi
      · cases hi; exact hostOps_of_channelWrite hc h
      · cases hi

/-- A register read is made of operations (R144 to R157). -/
theorem decodeRegR_hostOps {s₀ u v : State} {addr : Half} {i : Instr} (hi : decodeRegR addr = .ok i)
    (h : exec i u = .next v) : HostOps s₀ u v := by
  unfold decodeRegR at hi
  split at hi
  · cases hi; exact hostOps_of_readBack (fun _ => rfl) h
  · split at hi
    · cases hi; exact hostOps_of_readBack (fun _ => rfl) h
    · split at hi
      · cases hi; exact hostOps_of_channelRead h
      · cases hi

/-! ## The other moves as operations -/

theorem hostOps_of_evReset {s₀ u v : State} (hc : s₀.servesConfiguration) (h : exec .evReset u = .next v) :
    HostOps s₀ u v := by
  change execEvReset u = .next v at h
  unfold execEvReset at h
  split at h
  · cases h
  · cases h
    exact .tail (.single (.resetChannels hc)) .resetGlobals

/-- The reset is served where bit 2 of the delivery asks for it (R115). -/
theorem evReset_mem_decodeEvent : ∀ ev : BitVec 3, .evReset ∈ decodeEvent ev → ev.getLsbD 2 = true := by decide

/-- An instruction of a delivery is made of operations. -/
theorem decodeEvent_hostOps {s₀ u v : State} {ev : BitVec 3} {i : Instr}
    (hc : ev.getLsbD 2 = true → s₀.servesConfiguration) (hi : i ∈ decodeEvent ev) (h : exec i u = .next v) :
    HostOps s₀ u v := by
  obtain rfl | rfl | rfl := mem_decodeEvent hi
  · exact hostOps_of_evReset (hc (evReset_mem_decodeEvent ev hi)) h
  · rw [State.outsideHDMA_eq_next (f := State.initializeHDMALines) h]
    exact .single .frameStart
  · rw [State.outsideHDMA_eq_next (f := State.hdmaLine) h]
    exact .single .scanline

theorem execSeq_hostOps {s₀ : State} {l : List Instr} (hl : ∀ i ∈ l, ∀ u v, exec i u = .next v → HostOps s₀ u v)
    {u v : State} (h : execSeq l u = .next v) : HostOps s₀ u v := by
  induction l generalizing u with
  | nil => cases h; exact .refl
  | cons i l ih =>
    unfold execSeq at h
    split at h
    · next w hw =>
      exact (hl i List.mem_cons_self u w hw).trans (ih (fun j hj => hl j (List.mem_cons_of_mem i hj)) h)
    · cases h
    · cases h

/-- A host move is served by operations, or starts an `ExecuteDMA` (R294). -/
theorem serve_cases {s₀ u v : State} {m : Move} (hc : m.configures = true → s₀.servesConfiguration)
    (hm : m ∈ s₀.env.inbox) (h : serve m u = .next v) : HostOps s₀ u v ∨ ∃ c, v = u.beginDMA c := by
  cases m <;> simp only [serve] at h
  case callExecuteDMA c =>
    rw [exec_dmaExecOf] at h
    exact .inr ⟨c, State.startDMA_eq_next h⟩
  all_goals refine .inl ?_
  case regWrite addr data =>
    split at h
    · next hi => exact decodeRegW_hostOps (hc rfl) hi h
    · cases h; exact .refl
  case regRead addr =>
    split at h
    · next hi => exact decodeRegR_hostOps hi h
    · cases h; exact .refl
  case event ev => exact execSeq_hostOps (fun i hi _ _ => decodeEvent_hostOps hc hi) h
  case callInitializeHDMALines =>
    rw [State.outsideHDMA_eq_next (f := State.initializeHDMALines) h]
    exact .single .frameStart
  case callAdvanceHDMALines mask =>
    rw [State.outsideHDMA_eq_next h]
    exact .trans (.single (.advance mask hm)) (HostOps.observe _ _)
  case callResetAllChannels => cases h; exact .single (.resetChannels (hc rfl))
  case setNmi level => cases h; exact HostOps.withEnv u _ rfl id
  case loadSdd1 buf =>
    cases h
    split
    · exact .single (.outside u.mdmaen true _ (fun _ => id) id)
    · exact .refl
  case cpuStore addr a =>
    cases h
    exact (u.withEnv_quiet _ (EnvStep.store u.env addr a)).hostOps

/-- What a step is: one of the `ExecuteDMA` in flight, or, with none in flight, operations that serve the host, the start
of an `ExecuteDMA` after them if one is requested or called (R7, R260, R269). -/
theorem step_cases {s t : State} (h : step s = .next t) :
    (∃ c, s.dmaStep c = .next t) ∨
    s.seq.busy = none ∧ ∃ u, HostOps s s u ∧ (t = u ∨ ∃ c, t = u.beginDMA c) := by
  cases hb : s.seq.busy with
  | some c => exact .inl ⟨c, (step_busy hb).symm.trans h⟩
  | none =>
    refine .inr ⟨rfl, ?_⟩
    by_cases hm : s.mdmaen = 0
    · rw [State.portReady.idleStep ⟨hb, hm⟩] at h
      split at h
      · cases h; exact ⟨s, .refl, .inl rfl⟩
      · next m rest hin =>
        have taken : HostOps s s { s with env := { s.env with inbox := rest } } :=
          .single (.outside s.mdmaen s.sdd1Flag _ (fun m' hm' => by rw [hin]; exact List.mem_cons_of_mem m hm') id)
        obtain hops | hstart := serve_cases (fun hc => ⟨⟨hb, hm⟩, m, rest, hin, hc⟩)
          (by rw [hin]; exact List.mem_cons_self) h
        · exact ⟨t, taken.trans hops, .inl rfl⟩
        · exact ⟨_, taken, .inr hstart⟩
    · obtain ⟨c, hc, -⟩ := lowestChan_some hm
      rw [step_idle hb] at h
      unfold State.idleStep at h
      rw [hc] at h
      exact ⟨s, .refl, .inr ⟨c, State.startDMA_eq_next ((exec_dmaExecOf c s).symm.trans h)⟩⟩

theorem dmaStepKeeps_of_next {c : Chan} {s t : State} (h : s.dmaStep c = .next t) : DmaStepKeeps s t := by
  obtain ⟨t', ht', hk⟩ := s.dmaStep_keeps c
  cases ht'.symm.trans h
  exact hk

/-! ## Configuration (R20, R70) -/

/-- The configuration of every channel is as before. -/
def State.sameConfig (s t : State) : Prop := ∀ c, (s.row c).sameConfig (t.row c)

theorem State.sameConfig.of_ch {s u v : State} (hs : s.sameConfig u) (h : v.ch = u.ch) : s.sameConfig v := fun c => by
  rw [State.row_congr h c]; exact hs c

theorem State.sameConfig.of_rows {s u v : State} (hs : s.sameConfig u) (h : ∀ c, RowKeeps (u.row c) (v.row c)) :
    s.sameConfig v := fun c => (hs c).trans (h c).config

theorem State.beginDMA_ch (s : State) (c : Chan) : (s.beginDMA c).ch = s.ch := by
  obtain ⟨_, _, _, _, _, hb, -⟩ := s.beginDMA_shape c
  rw [hb]

theorem HostOp.sameConfig {s u v : State} (hn : ¬s.servesConfiguration) (h : HostOp s u v) (hs : s.sameConfig u) :
    s.sameConfig v := by
  cases h with
  | outside | writeHdmaen | resetGlobals => exact hs.of_ch rfl
  | writeRow h | resetChannels h => exact absurd h hn
  | frameStart => exact hs.of_rows u.initializeHDMALines_sink.rows
  | scanline => exact hs.of_rows u.hdmaLine_sink.rows
  | advance mask => exact hs.of_rows (u.advanceHDMALines_call mask).keeps.rows

/-- Settles O54: a byte of a DMA keeps every configuration field, and so does each operation of a step that serves no
configuring move. -/
theorem onlyTheHostChangesConfiguration : Obligations.OnlyTheHostChangesConfiguration := by
  intro s t h hn
  obtain ⟨c, hc⟩ | ⟨-, u, hops, hu⟩ := step_cases h
  · exact (dmaStepKeeps_of_next hc).config
  · have hsame : s.sameConfig u := hops.keeps (fun _ _ hop => hop.sameConfig hn) fun c => Channel.sameConfig.refl _
    obtain rfl | ⟨c, rfl⟩ := hu
    · exact hsame
    · exact hsame.of_ch (u.beginDMA_ch c)

/-! ## The cached pointers (R235) -/

theorem State.resetAllChannels_row (s : State) (c : Chan) : s.resetAllChannels.row c = Channel.reset :=
  State.reset_row c

theorem HostOp.pointers {s u v : State} (h : HostOp s u v) : PointersKept u v := by
  cases h with
  | outside | writeHdmaen | resetGlobals => exact PointersKept.of_ch rfl
  | writeRow _ c f => exact u.updRow_pointers c _ fun _ => Channel.ptrOk_none rfl
  | frameStart => exact u.initializeHDMALines_pointers
  | scanline => exact u.hdmaLine_pointers
  | advance mask => exact u.advanceHDMALines_pointers mask
  | resetChannels => exact fun _ c => Channel.ptrOk_none (by rw [u.resetAllChannels_row c]; rfl)

theorem step_pointers {s t : State} (h : step s = .next t) : PointersKept s t := by
  intro hs
  obtain ⟨c, hc⟩ | ⟨-, u, hops, hu⟩ := step_cases h
  · exact State.dmaStep_pointers hc hs
  · have hp : u.pointersAgree := hops.keeps (fun _ _ hop => hop.pointers) hs
    obtain rfl | ⟨c, rfl⟩ := hu
    · exact hp
    · exact PointersKept.of_ch (u.beginDMA_ch c) hp

/-! ## The invariant of the state (R39, R57, R192) -/

theorem HdmaCall.flagsAgree {s t : State} (h : HdmaCall s t) (hs : s.flagsAgree) : t.flagsAgree := by
  obtain ⟨-, -, hd, hc⟩ := hs
  refine ⟨h.inHDMA, h.inEither.trans h.keeps.inDMA.symm, ?_, ?_⟩
  · rw [h.keeps.inDMA, h.keeps.seq, hd]
  · rw [h.current, h.keeps.seq, hc]

/-- An HDMA call outside a DMA keeps the invariant, given what it does to the line counts and to `HDMARanInDMA`. -/
theorem HdmaCall.inv {s t : State} (h : HdmaCall s t) (hs : s.Inv) (counts : ∀ c, (t.row c).lineCountOk)
    (ran : t.hdmaRanInDMA = 0) : t.Inv where
  flags := h.flagsAgree hs.flags
  lineCounts := counts
  ran := ran
  memory := h.keeps.env.memory hs.memory
  count := by rw [h.keeps.seq]; exact hs.count

/-- Outside a DMA the scanline step leaves `HDMARanInDMA` clear (R237). -/
theorem State.hdmaLine_ran {s : State} (hd : s.inDMA = false) (hr : s.hdmaRanInDMA = 0) : s.hdmaLine.hdmaRanInDMA = 0 := by
  unfold State.hdmaLine
  split
  · exact hr
  · exact (s.advanceHDMALines_ran s.hdmaActive).trans (by rw [hd]; rfl)

/-- Between transfers: the invariant, with no `ExecuteDMA` in flight. -/
structure State.IdleInv (s : State) : Prop where
  inv : s.Inv
  idle : s.seq.busy = none

theorem State.IdleInv.inDMA {s : State} (h : s.IdleInv) : s.inDMA = false := (h.inv.flags.atRest h.idle).inDMA

theorem HdmaCall.idleInv {s t : State} (h : HdmaCall s t) (hs : s.IdleInv) (counts : ∀ c, (t.row c).lineCountOk)
    (ran : t.hdmaRanInDMA = 0) : t.IdleInv :=
  ⟨h.inv hs.inv counts ran, by rw [h.keeps.seq]; exact hs.idle⟩

theorem Channel.reset_lineCountOk : Channel.reset.lineCountOk := by
  unfold Channel.lineCountOk
  decide

theorem HostOp.idleInv {s u v : State} (h : HostOp s u v) (hu : u.IdleInv) : v.IdleInv := by
  have ⟨⟨hf, hl, hr, hm, hn⟩, hb⟩ := hu
  cases h with
  | outside _ _ e _ memory => exact ⟨⟨hf, hl, hr, memory hm, hn⟩, hb⟩
  | writeHdmaen => exact ⟨⟨hf, hl, hr, hm, hn⟩, hb⟩
  | writeRow _ c f count =>
    refine ⟨⟨hf, fun d => ?_, hr, hm, hn⟩, hb⟩
    rw [u.updRow_row]
    split
    · exact count (u.row c) (hl c)
    · exact hl d
  | frameStart =>
    exact u.initializeHDMALines_call.idleInv hu (u.initializeHDMALines_counts hl)
      (u.initializeHDMALines_ran.trans (by rw [hu.inDMA]; rfl))
  | scanline =>
    exact (u.hdmaLine_call hf.1 hf.2.1).idleInv hu (u.hdmaLine_counts hl) (State.hdmaLine_ran hu.inDMA hr)
  | advance mask =>
    exact (u.advanceHDMALines_call mask).idleInv hu (u.advanceHDMALines_counts mask hl)
      ((u.advanceHDMALines_ran mask).trans (by rw [hu.inDMA]; rfl))
  | resetChannels =>
    exact ⟨⟨hf, fun c => by rw [u.resetAllChannels_row c]; exact Channel.reset_lineCountOk, hr, hm, hn⟩, hb⟩
  | resetGlobals => exact ⟨⟨⟨rfl, rfl, rfl, rfl⟩, hl, rfl, hm, Nat.zero_le _⟩, rfl⟩

theorem State.beginDMA_inv {s : State} (hs : s.Inv) (c : Chan) : (s.beginDMA c).Inv := by
  obtain ⟨_, _, _, _, _, hb, he⟩ := s.beginDMA_shape c
  rw [hb]
  exact ⟨⟨hs.flags.1, rfl, rfl, rfl⟩, hs.lineCounts, hs.ran, he.memory hs.memory, dmaCount_le _⟩

theorem DmaStepKeeps.inv {s t : State} (h : DmaStepKeeps s t) (hs : s.Inv) : t.Inv :=
  ⟨h.flags hs.flags, h.counts hs.lineCounts, h.ran hs.ran, h.memory hs.memory, h.remaining.trans hs.count⟩

theorem step_inv {s t : State} (hs : s.Inv) (h : step s = .next t) : t.Inv := by
  obtain ⟨c, hc⟩ | ⟨hb, u, hops, hu⟩ := step_cases h
  · exact (dmaStepKeeps_of_next hc).inv hs
  · have hi : u.IdleInv := hops.keeps (fun _ _ hop => hop.idleInv) ⟨hs, hb⟩
    obtain rfl | ⟨c, rfl⟩ := hu
    · exact hi.inv
    · exact State.beginDMA_inv hi.inv c

/-- Settles O56: each case of `step_cases` keeps `Inv`, and each keeps R235's invariant on its own. -/
theorem stepKeepsTheInvariant : Obligations.StepKeepsTheInvariant :=
  ⟨fun _ _ => step_inv, fun _ _ hs h => step_pointers h hs⟩

/-! ## The masks (R43, R57) -/

/-- The masks agree and the scheduler alone calls `AdvanceHDMALines`. -/
structure State.Scheduled (s : State) : Prop where
  masks : s.masksAgree
  scheduler : s.schedulerOnly

theorem State.schedulerOnly.of_inbox {s t : State} (hs : s.schedulerOnly) (h : t.env.inbox = s.env.inbox) :
    t.schedulerOnly := by
  unfold State.schedulerOnly
  rw [h]
  exact hs

theorem hasBit_and_not (m n : Mask) (c : Chan) : hasBit (m &&& ~~~n) c = (hasBit m c && !hasBit n c) := by
  have hc : c.toNat < 8 := c.isLt
  simp [hasBit, hc]

theorem HostOp.scheduled {s u v : State} (hs : s.schedulerOnly) (h : HostOp s u v) (hu : u.Scheduled) : v.Scheduled := by
  obtain ⟨hm, ho⟩ := hu
  cases h with
  | outside _ _ e inbox _ => exact ⟨hm, fun m hmem => ho m (inbox m hmem)⟩
  | writeRow | resetChannels => exact ⟨hm, ho⟩
  | writeHdmaen =>
    refine ⟨fun c hc => ?_, ho⟩
    rw [hasBit_and_not, Bool.and_eq_true, Bool.not_eq_true'] at hc
    exact ⟨hc.2, hc.1⟩
  | frameStart =>
    exact ⟨u.initializeHDMALines_masks, ho.of_inbox u.initializeHDMALines_sink.env.inbox⟩
  | scanline => exact ⟨u.hdmaLine_masks hm, ho.of_inbox u.hdmaLine_sink.env.inbox⟩
  | advance mask h => exact absurd rfl (hs _ h mask)
  | resetGlobals => exact ⟨fun c hc => absurd hc (by simp [State.resetGlobals, hasBit]), ho⟩

/-- Settles O57: each case of `step_cases` keeps the masks, the direct call of `AdvanceHDMALines` aside, which R57's
proviso excludes. -/
theorem stepKeepsTheMasksDisjoint : Obligations.StepKeepsTheMasksDisjoint := by
  intro s t hs hm h
  obtain ⟨c, hc⟩ | ⟨-, u, hops, hu⟩ := step_cases h
  · exact ⟨(dmaStepKeeps_of_next hc).masks hm, hs.of_inbox (dmaStepKeeps_of_next hc).inbox⟩
  · obtain ⟨hmu, hsu⟩ : u.Scheduled := hops.keeps (fun _ _ hop => hop.scheduled hs) ⟨hm, hs⟩
    obtain rfl | ⟨c, rfl⟩ := hu
    · exact ⟨hmu, hsu⟩
    · obtain ⟨_, _, _, _, _, hb, he⟩ := u.beginDMA_shape c
      rw [hb]
      exact ⟨hmu, hsu.of_inbox he.inbox⟩

/-! ## Reset (R55) -/

/-- Settles O1: every row is `Channel.reset`, and the globals are the fields of `State.reset`. -/
theorem resetStateIsTheSpecs : Obligations.ResetStateIsTheSpecs := by
  refine ⟨fun c => ?_, by decide⟩
  rw [State.reset_row]
  decide

/-- Settles O55: no call in flight, no cell of memory listed, every count 0x7F, no pointer cached, no channel active. -/
theorem resetMeetsTheInvariant : Obligations.ResetMeetsTheInvariant := by
  refine ⟨⟨⟨rfl, rfl, rfl, rfl⟩, fun c => ?_, rfl, rfl, Nat.zero_le _⟩, fun c hc => ?_, fun c => ?_⟩
  · rw [State.reset_row]
    exact Channel.reset_lineCountOk
  · exact absurd hc (by rw [show State.reset.hdmaActive = 0 from rfl, hasBit_zero]; decide)
  · exact Channel.ptrOk_none (by rw [State.reset_row]; rfl)

/-! ## Registers read back as written (R119) -/

/-- The fields of the address of register `r` of channel `c` (R100). -/
theorem regAddr_fields : ∀ (c : Chan) (r : BitVec 4), regAddr c r.toNat ≠ Config.mdmaenAddr ∧
    regAddr c r.toNat ≠ Config.hdmaenAddr ∧ isChannelAddr (regAddr c r.toNat) = true ∧
    chanOf (regAddr c r.toNat) = c ∧ regOf (regAddr c r.toNat) = r := by decide

theorem decodeRegW_regAddr (c : Chan) (r : BitVec 4) (v : Byte) :
    decodeRegW (regAddr c r.toNat) v = .ok (channelWrite c r v) := by
  obtain ⟨hm, hh, ha, hc, hr⟩ := regAddr_fields c r
  rw [decodeRegW, if_neg hm, if_neg hh, if_pos ha, hc, hr]

theorem decodeRegR_regAddr (c : Chan) (r : BitVec 4) : decodeRegR (regAddr c r.toNat) = .ok (channelRead c r) := by
  obtain ⟨hm, hh, ha, hc, hr⟩ := regAddr_fields c r
  rw [decodeRegR, if_neg hm, if_neg hh, if_pos ha, hc, hr]

theorem controlByte_withControlByte (v : Byte) (r : Channel) : (r.withControlByte v).controlByte = v := by
  change BitVec.ofBool (v.getLsbD 7) ++ BitVec.ofBool (v.getLsbD 6) ++ BitVec.ofBool (v.getLsbD 5) ++
    BitVec.ofBool (v.getLsbD 4) ++ BitVec.ofBool (v.getLsbD 3) ++ v.extractLsb' 0 3 = v
  revert v
  decide

/-- `NTRL` reads back as written, the count 0 too, which stands for 128 (R119). -/
theorem ntrlByte_withNtrlByte (v : Byte) (r : Channel) : (r.withNtrlByte v).ntrlByte = v := by
  change BitVec.ofBool (v.getLsbD 7) ++ (lineCountOf (v.extractLsb' 0 7)).extractLsb' 0 7 = v
  revert v
  decide

theorem lowByte_setLowByte (h : Half) (v : Byte) : lowByte (setLowByte h v) = v :=
  BitVec.extractLsb'_append_eq_right

theorem highByte_setHighByte (h : Half) (v : Byte) : highByte (setHighByte h v) = v :=
  BitVec.extractLsb'_append_eq_left

/-- The write of a register 0x0 to 0xA and its read, whatever the row: what the read makes of the row written is the byte
written (R130 to R140, R144 to R154). -/
theorem channelWrite_channelRead (c : Chan) (r : BitVec 4) (v : Byte) (hr : r.toNat ≤ 0xA) :
    ∃ (f : Channel → Channel) (g : Channel → Byte), (∀ s, exec (channelWrite c r v) s = s.writeRow c f) ∧
      (∀ s, exec (channelRead c r) s = s.readRow c g) ∧ ∀ row, g { f row with ptr := none } = v := by
  have h : r = 0 ∨ r = 1 ∨ r = 2 ∨ r = 3 ∨ r = 4 ∨ r = 5 ∨ r = 6 ∨ r = 7 ∨ r = 8 ∨ r = 9 ∨ r = 10 := by
    revert r; decide
  obtain rfl | rfl | rfl | rfl | rfl | rfl | rfl | rfl | rfl | rfl | rfl := h
  · exact ⟨_, _, fun _ => rfl, fun _ => rfl, controlByte_withControlByte v⟩
  · exact ⟨_, _, fun _ => rfl, fun _ => rfl, fun _ => rfl⟩
  · exact ⟨_, fun r => lowByte r.a1t, fun _ => rfl, fun _ => rfl, fun row => lowByte_setLowByte row.a1t v⟩
  · exact ⟨_, fun r => highByte r.a1t, fun _ => rfl, fun _ => rfl, fun row => highByte_setHighByte row.a1t v⟩
  · exact ⟨_, _, fun _ => rfl, fun _ => rfl, fun _ => rfl⟩
  · exact ⟨_, fun r => lowByte r.das, fun _ => rfl, fun _ => rfl, fun row => lowByte_setLowByte row.das v⟩
  · exact ⟨_, fun r => highByte r.das, fun _ => rfl, fun _ => rfl, fun row => highByte_setHighByte row.das v⟩
  · exact ⟨_, _, fun _ => rfl, fun _ => rfl, fun _ => rfl⟩
  · exact ⟨_, fun r => lowByte r.a2a, fun _ => rfl, fun _ => rfl, fun row => lowByte_setLowByte row.a2a v⟩
  · exact ⟨_, fun r => highByte r.a2a, fun _ => rfl, fun _ => rfl, fun row => highByte_setHighByte row.a2a v⟩
  · exact ⟨_, _, fun _ => rfl, fun _ => rfl, ntrlByte_withNtrlByte v⟩

theorem State.readRow_next {s : State} (h : s.inEither = false) (c : Chan) (g : Channel → Byte) :
    s.readRow c g = .next (s.readBack (g (s.row c))) := State.viaPort_next h _

theorem writeRow_then_readRow {c : Chan} {f : Channel → Channel} {g : Channel → Byte} {v : Byte} {s : State}
    (hs : s.inEither = false) (hg : ∀ row, g { f row with ptr := none } = v) :
    ∃ t, s.writeRow c f = .next t ∧ t.readRow c g = .next (t.readBack v) := by
  refine ⟨_, State.viaPort_next hs _, (State.readRow_next ?_ c g).trans ?_⟩
  · exact hs
  · rw [State.updRow_row_self, hg]

/-- Settles O9: the row written reads as the byte, and the port stays open in between. -/
theorem channelRegistersReadBackAsWritten : Obligations.ChannelRegistersReadBackAsWritten := by
  intro c r v s hr hs
  obtain ⟨f, g, hw, hd, hg⟩ := channelWrite_channelRead c r v hr
  obtain ⟨t, ht, hb⟩ := writeRow_then_readRow (c := c) hs hg
  exact ⟨_, _, t, decodeRegW_regAddr c r v, decodeRegR_regAddr c r, (hw s).trans ht, (hd t).trans hb⟩

end Sys2Proof.Machine
end

section
/-! PROOFS. Family 20_memory: A-bus memory answers the byte stored last (R70, R80), the resolvers answer pointers inside
RAM and ROM regions only (R82, R83), and register accesses stay on the B-bus window (R71). -/

namespace Sys2Proof.Machine

/-! ## Stores and reads (R70, R80) -/

/-- ROM and unmapped addresses ignore a store, so every address answers as before (log 9, log 11). -/
theorem Env.peek_store_of_not_ram {e : Env} {a : AAddr} (h : e.kindAt a.toNat ≠ some .ram) (v : Byte) (b : AAddr) :
    (e.store a v).peek b = e.peek b := by
  rw [Env.store_eq, if_neg h]

theorem State.aWrite_peek_of_not_ram {s : State} {a : AAddr} (h : s.env.kindAt a.toNat ≠ some .ram) (v : Byte)
    (b : AAddr) : (s.aWrite a v).env.peek b = s.env.peek b := Env.peek_store_of_not_ram h v b

/-- Settles O47: the store and the read act on memory as `Env.store` and `Env.peek` say. -/
theorem memoryReadsTheByteStored : Obligations.MemoryReadsTheByteStored := fun s a v =>
  ⟨fun hram => State.aRead_known (s.aWrite_peek_self a v hram), fun hother => State.aWrite_peek_of_not_ram hother v,
    fun _ hne => s.aWrite_peek_ne v hne, s.aRead_peek a⟩

/-! ## The resolvers (R82, R83) -/

theorem Env.directPointer_eq_ite (e : Env) (a : AAddr) :
    e.directPointer a = if (e.kindAt a.toNat).isSome then some a else none := by
  unfold Env.directPointer
  cases e.kindAt a.toNat <;> rfl

/-- An address one of the regions holds is backed, by that region or by one before it (log 9). -/
theorem Env.kindAt_isSome_of_mem {e : Env} {r : Region} {a : Nat} (hr : r ∈ e.aMap) (ha : r.has a = true) :
    (e.kindAt a).isSome = true := by
  rw [Env.kindAt, Option.isSome_map, List.find?_isSome]
  exact ⟨r, hr, ha⟩

/-- A base pointer is the base it was asked for, of a 64 KB block inside one region (log 23). -/
theorem Env.exists_region_of_blockPointer {e : Env} {base p : AAddr} (h : e.blockPointer base = some p) :
    p = base ∧ ∃ r ∈ e.aMap, ∀ i < Config.blockSize, r.has (base.toNat + i) = true := by
  unfold Env.blockPointer at h
  split at h
  case isFalse => cases h
  case isTrue hany =>
    obtain ⟨r, hr, hcovers⟩ := List.any_eq_true.mp hany
    simp only [Bool.and_eq_true, decide_eq_true_eq] at hcovers
    refine ⟨(Option.some.inj h).symm, r, hr, fun i hi => ?_⟩
    simp only [Region.has, Bool.and_eq_true, decide_eq_true_eq]
    omega

/-- Byte `x` of a bank lies `x` above the bank's base (R70). -/
theorem aAddr_toNat (bank : Byte) (x : Half) : (aAddr bank x).toNat = (aAddr bank 0).toNat + x.toNat := by
  simp only [aAddr, BitVec.toNat_append, ← Nat.shiftLeft_add_eq_or_of_lt (BitVec.isLt _)]
  rfl

theorem State.resolveBase_basePtr (s : State) (bank : Byte) :
    (s.resolveBase bank).seq.basePtr = s.env.blockPointer (aAddr bank 0) := rfl

/-- Settles O48: the region behind a base pointer holds every byte of the bank. -/
theorem resolversAnswerInsideRegionsOnly : Obligations.ResolversAnswerInsideRegionsOnly := by
  intro s a
  refine ⟨s.env.directPointer_eq_ite a, fun bank p x hp => ?_⟩
  rw [State.resolveBase_basePtr] at hp
  obtain ⟨rfl, r, hr, hblock⟩ := Env.exists_region_of_blockPointer hp
  refine ⟨rfl, Env.kindAt_isSome_of_mem hr ?_⟩
  change r.has (aAddr bank x).toNat = true
  rw [aAddr_toNat]
  exact hblock x.toNat x.isLt

/-! ## The B-bus window (R71) -/

/-- Settles O53: `step_grows` without its count of cycles. -/
theorem registerAccessesStayOnTheBBus : Obligations.RegisterAccessesStayOnTheBBus := by
  intro s t h
  obtain ⟨new, htrace, -, hwindow⟩ := step_grows h
  exact ⟨new, htrace, hwindow⟩

end Sys2Proof.Machine
end

section
/-! PROOFS. Family 30_encoding: an encoded instruction decodes to itself (R118), the addresses of the block and the
moves of its port (R100, R159, R294), the enable bits of HDMA (R265), the pattern of a transfer mode (R106), the address
step (R111), an undisturbed `ExecuteDMA` byte by byte (R170, R200), the line-count byte (R102, R119) and one HDMA group
(R229). -/

namespace Sys2Proof.Machine

/-! ## Decoding of encoded words (R100 to R103, R115, R118) -/

/-- What is said of an instruction's word: it decodes to the instruction, alone unless the word is a control byte. -/
def DecodesBack (i : Instr) : Prop :=
  ∃ l, decode (encode i) = .ok l ∧ i ∈ l ∧ ((∀ c b, encode i ≠ .dmap c b) → l = [i])

theorem DecodesBack.alone {i : Instr} (h : decode (encode i) = .ok [i]) : DecodesBack i :=
  ⟨[i], h, List.mem_cons_self, fun _ => rfl⟩

/-- A field of a control byte decodes as one of the byte's four. -/
theorem DecodesBack.field {i : Instr} {c : Chan} {b : Byte} (h : encode i = .dmap c b)
    (hi : i ∈ [(decodeDmap c b).xfer, (decodeDmap c b).dir, (decodeDmap c b).step, (decodeDmap c b).haddr]) :
    DecodesBack i :=
  ⟨_, by rw [h]; rfl, hi, fun hn => absurd h (hn c b)⟩

theorem channelAddr_eq_regAddr : ∀ (c : Chan) (r : BitVec 4), channelAddr c r = regAddr c r.toNat := by decide

/-- The encoder's word of a channel register's write is read as that row (R100). -/
theorem DecodesBack.write {i : Instr} {c : Chan} {r : BitVec 4} {v : Byte} (h : encode i = .regw (channelAddr c r) v)
    (hi : channelWrite c r v = i) : DecodesBack i := by
  refine .alone ?_
  rw [h, decode, channelAddr_eq_regAddr, decodeRegW_regAddr, hi]
  rfl

/-- The encoder's word of a channel register's read is read as that row (R100). -/
theorem DecodesBack.read {i : Instr} {c : Chan} {r : BitVec 4} (h : encode i = .regr (channelAddr c r))
    (hi : channelRead c r = i) : DecodesBack i := by
  refine .alone ?_
  rw [h, decode, channelAddr_eq_regAddr, decodeRegR_regAddr, hi]
  rfl

/-- Offsets 0xC to 0xF stand for the same row, their low two bits its operand (R100, R141, R155). -/
theorem channelWrite_unimplemented (c : Chan) (r : BitVec 2) (v : Byte) :
    channelWrite c (3#2 ++ r) v = .wrUnimplCF c r v := by
  have h : r = 0 ∨ r = 1 ∨ r = 2 ∨ r = 3 := by revert r; decide
  obtain rfl | rfl | rfl | rfl := h <;> rfl

theorem channelRead_unimplemented (c : Chan) (r : BitVec 2) : channelRead c (3#2 ++ r) = .rdUnimplCF c r := by
  have h : r = 0 ∨ r = 1 ∨ r = 2 ∨ r = 3 := by revert r; decide
  obtain rfl | rfl | rfl | rfl := h <;> rfl

/-- A line-count byte with a count that is not 0: neither of the two special bytes, its class in bit 7 (R102). -/
theorem countByte_fields : ∀ (b : Bool) (n : BitVec 7), n ≠ 0 → BitVec.ofBool b ++ n ≠ (0x00 : Byte) ∧
    BitVec.ofBool b ++ n ≠ (0x80 : Byte) ∧ (BitVec.ofBool b ++ n).getLsbD 7 = b ∧
    (BitVec.ofBool b ++ n).extractLsb' 0 7 = n := by decide

theorem decodeLcb_countByte (c : Chan) (b : Bool) {n : BitVec 7} (hn : n ≠ 0) :
    decodeLcb c (BitVec.ofBool b ++ n) = if b then .lcRepeat c n else .lcSingle c n := by
  obtain ⟨h0, h80, h7, hcount⟩ := countByte_fields b n hn
  rw [decodeLcb, if_neg h0, if_neg h80, h7, hcount]

theorem DecodesBack.line {i : Instr} {c : Chan} {b : Byte} (h : encode i = .lcb c b) (hi : decodeLcb c b = i) :
    DecodesBack i := .alone (by rw [h, decode, hi])

theorem decodeMdma_oneHot : ∀ c : Chan, decodeMdma (oneHot c) = [dmaExecOf c] := by decide

theorem decodeHdma_oneHot : ∀ c : Chan, decodeHdma (oneHot c) = [hdmaEnOf c] := by decide

theorem DecodesBack.dmaExec {i : Instr} {c : Chan} (h : encode i = .mdma (oneHot c)) (hi : dmaExecOf c = i) :
    DecodesBack i := .alone (by rw [h, decode, decodeMdma_oneHot, hi])

theorem DecodesBack.hdmaEn {i : Instr} {c : Chan} (h : encode i = .hdma (oneHot c)) (hi : hdmaEnOf c = i) :
    DecodesBack i := .alone (by rw [h, decode, decodeHdma_oneHot, hi])

/-- Settles O59: format by format, from the encoder's word of each row. -/
theorem decodeOfEncodeIsTheInstruction : Obligations.DecodeOfEncodeIsTheInstruction := by
  intro i hwf
  change DecodesBack i
  cases i
  case wrUnimplCF c r v => exact .write rfl (channelWrite_unimplemented c r v)
  case rdUnimplCF c r => exact .read rfl (channelRead_unimplemented c r)
  case wrMdmaen | wrHdmaen | rdMdmaen | rdHdmaen => exact .alone rfl
  case wrDmap | wrBbad | wrA1tl | wrA1th | wrA1b | wrDasl | wrDash | wrDasb | wrA2al | wrA2ah | wrNtrl | wrUnimplB =>
    exact .write rfl rfl
  case rdDmap | rdBbad | rdA1tl | rdA1th | rdA1b | rdDasl | rdDash | rdDasb | rdA2al | rdA2ah | rdNtrl | rdUnimplB =>
    exact .read rfl rfl
  case xferM0 | xferM1 | xferM2 | xferM3 | xferM4 | xferM5 | xferM6 | xferM7 =>
    exact .field rfl List.mem_cons_self
  case dirA2B | dirB2A => exact .field rfl (.tail _ (.head _))
  case stepInc | stepDec | stepFix => exact .field rfl (.tail _ (.tail _ (.head _)))
  case haddrDirect | haddrIndirect => exact .field rfl (.tail _ (.tail _ (.tail _ (.head _))))
  case lcEnd | lcRep128 => exact .line rfl rfl
  case lcSingle c n => exact .line rfl (decodeLcb_countByte c false (bne_iff_ne.1 hwf))
  case lcRepeat c n => exact .line rfl (decodeLcb_countByte c true (bne_iff_ne.1 hwf))
  case dmaExec0 | dmaExec1 | dmaExec2 | dmaExec3 | dmaExec4 | dmaExec5 | dmaExec6 | dmaExec7 =>
    exact .dmaExec rfl rfl
  case hdmaEn0 | hdmaEn1 | hdmaEn2 | hdmaEn3 | hdmaEn4 | hdmaEn5 | hdmaEn6 | hdmaEn7 => exact .hdmaEn rfl rfl
  case evReset | evHdmaInit | evHdmaLine => exact .alone rfl

/-- Settles O60: each word is closed, and so is what it decodes to. -/
theorem writtenOutWordsDecode : Obligations.WrittenOutWordsDecode := by
  unfold Obligations.WrittenOutWordsDecode
  decide

/-! ## The addresses of the block (R100, R159) -/

/-- The addresses the block answers. -/
def IsBlockAddr (addr : Half) : Prop :=
  (0x4300 ≤ addr.toNat ∧ addr.toNat ≤ 0x437F) ∨ addr = 0x420B ∨ addr = 0x420C

/-- The mask of R100 keeps the nine high bits of an address. -/
theorem toNat_and_channelMask (addr : Half) : (addr &&& 0xFF80).toNat = addr.toNat / 128 * 128 := by
  have hparts : addr = addr.extractLsb' 7 9 ++ addr.extractLsb' 0 7 :=
    (BitVec.extractLsb'_append_extractLsb' (w := 9) (len := 7)).symm
  have hand : addr &&& 0xFF80 = addr.extractLsb' 7 9 ++ 0#7 := by
    conv_lhs => rw [hparts, show (0xFF80 : Half) = BitVec.allOnes 9 ++ 0#7 from rfl, BitVec.and_append]
    rw [BitVec.and_allOnes, BitVec.and_zero]
  have hlt := addr.isLt
  rw [hand, BitVec.toNat_append, BitVec.extractLsb'_toNat, Nat.shiftLeft_eq, Nat.shiftRight_eq_div_pow]
  simp only [BitVec.toNat_ofNat, Nat.zero_mod, Nat.or_zero]
  omega

theorem isChannelAddr_iff (addr : Half) : isChannelAddr addr = true ↔ 0x4300 ≤ addr.toNat ∧ addr.toNat ≤ 0x437F := by
  rw [isChannelAddr, beq_iff_eq, ← BitVec.toNat_inj, toNat_and_channelMask]
  change addr.toNat / 128 * 128 = 0x4300 ↔ _
  omega

/-- The three tests of a port decoder, whatever it answers, accept the block's addresses and no other. -/
theorem exists_ok_iff_isBlockAddr {addr : Half} {i₁ i₂ i₃ : Instr} {e : Reject} :
    (∃ i, (if addr = Config.mdmaenAddr then .ok i₁ else if addr = Config.hdmaenAddr then .ok i₂
      else if isChannelAddr addr then .ok i₃ else .error e : Except Reject Instr) = .ok i) ↔ IsBlockAddr addr := by
  rw [IsBlockAddr, ← isChannelAddr_iff]
  split
  · next h => exact ⟨fun _ => .inr (.inl h), fun _ => ⟨i₁, rfl⟩⟩
  · next hm =>
    split
    · next h => exact ⟨fun _ => .inr (.inr h), fun _ => ⟨i₂, rfl⟩⟩
    · next hh =>
      split
      · next h => exact ⟨fun _ => .inl h, fun _ => ⟨i₃, rfl⟩⟩
      · next hc =>
        refine ⟨fun ⟨_, hi⟩ => (nomatch hi), fun h => ?_⟩
        obtain h | h | h := h
        · exact absurd h hc
        · exact absurd h hm
        · exact absurd h hh

theorem exists_decodeRegW_iff (addr : Half) (data : Byte) :
    (∃ i, decodeRegW addr data = .ok i) ↔ IsBlockAddr addr := exists_ok_iff_isBlockAddr

theorem exists_decodeRegR_iff (addr : Half) : (∃ i, decodeRegR addr = .ok i) ↔ IsBlockAddr addr :=
  exists_ok_iff_isBlockAddr

/-! ## The port (R100, R115, R294) -/

/-- With the port served, a step takes the next host move and serves it. -/
theorem State.portReady.step_eq_serve {s : State} (h : s.portReady) {m : Move} {rest : List Move}
    (hm : s.env.inbox = m :: rest) : step s = serve m { s with env := { s.env with inbox := rest } } := by
  rw [h.idleStep, hm]

theorem serve_regWrite {addr : Half} {data : Byte} {i : Instr} (h : decodeRegW addr data = .ok i) (s : State) :
    serve (.regWrite addr data) s = exec i s := by
  simp only [serve, h]

theorem serve_regRead {addr : Half} {i : Instr} (h : decodeRegR addr = .ok i) (s : State) :
    serve (.regRead addr) s = exec i s := by
  simp only [serve, h]

/-- A transaction elsewhere does nothing (R159, log 28). -/
theorem serve_elsewhere {addr : Half} (h : ¬IsBlockAddr addr) (data : Byte) (s : State) :
    serve (.regWrite addr data) s = .next s ∧ serve (.regRead addr) s = .next s := by
  constructor
  · simp only [serve]
    split
    · next hi => exact absurd ((exists_decodeRegW_iff addr data).1 ⟨_, hi⟩) h
    · rfl
  · simp only [serve]
    split
    · next hi => exact absurd ((exists_decodeRegR_iff addr).1 ⟨_, hi⟩) h
    · rfl

/-- Settles O18: the decoders of the port accept the block's addresses alone, and what they reject is served by doing
nothing. -/
theorem transactionsElsewhereAreNotTheBlocks : Obligations.TransactionsElsewhereAreNotTheBlocks := by
  refine ⟨fun addr data => ⟨exists_decodeRegW_iff addr data, exists_decodeRegR_iff addr⟩, ?_⟩
  intro s addr data rest hp ha hin
  obtain hin | hin := hin
  · exact (hp.step_eq_serve hin).trans (serve_elsewhere ha data _).1
  · exact (hp.step_eq_serve hin).trans (serve_elsewhere ha data _).2

/-- Settles O49: the step serves the move, which runs what its word decodes to. -/
theorem stepRunsTheDecodedInstruction : Obligations.StepRunsTheDecodedInstruction := by
  intro s rest hp
  refine ⟨fun addr data i hin hi => ?_, fun addr i hin hi => ?_, fun ev hin => ?_, fun c hin => ?_⟩
  · rw [hp.step_eq_serve hin, serve_regWrite hi]
  · rw [hp.step_eq_serve hin, serve_regRead hi]
  · rw [hp.step_eq_serve hin]; rfl
  · rw [hp.step_eq_serve hin]; rfl

/-! ## Unimplemented reads (R114, R155) -/

/-- The outside's next answer is the byte drawn (log 13). -/
theorem Env.draw_of_answers {e : Env} {w : Byte} {rest : List Byte} (h : e.answers = w :: rest) :
    e.draw = (w, { e with answers := rest }) := by
  unfold Env.draw
  rw [h]

theorem decodeRegR_unimplemented (c : Chan) (r : BitVec 2) :
    decodeRegR (regAddr c (0xC + r.toNat)) = .ok (.rdUnimplCF c r) := by
  have hr : ∀ r : BitVec 2, (3#2 ++ r).toNat = 0xC + r.toNat := by decide
  rw [← hr r, decodeRegR_regAddr, channelRead_unimplemented]

/-- Settles O12: the read is a draw and its observation. -/
theorem unimplementedReadIsADraw : Obligations.UnimplementedReadIsADraw := by
  intro c r s hs
  refine ⟨decodeRegR_regAddr c 11, decodeRegR_unimplemented c r, fun i hi => ?_⟩
  have hexec : exec i s = s.readUnimplemented := by
    obtain rfl | rfl := List.mem_pair.1 hi <;> rfl
  refine ⟨s.env.draw.1, State.readBack s.env.draw.1 { s with env := s.env.draw.2 },
    hexec.trans (State.viaPort_next hs _), fun w rest hw => ?_, ?_⟩
  · rw [Env.draw_of_answers hw]
    exact ⟨rfl, rfl⟩
  · rw [State.readBack, State.observe, s.env.draw_eq]
    rfl

/-! ## The enable bits of HDMA (R103, R143, R265) -/

/-- What one set bit of a write to `HDMAEN` leaves (R143, R265). -/
def State.withHdmaEnabled (c : Chan) (s : State) : State :=
  { s with
    hdmaen := withBit s.hdmaen c
    hdmaActive := if hasBit s.hdmaEnded c then s.hdmaActive else withBit s.hdmaActive c }

theorem State.withHdmaEnabled_active (s : State) (c d : Chan) : hasBit (s.withHdmaEnabled c).hdmaActive d =
    (hasBit s.hdmaActive d || (decide (d = c) && !hasBit s.hdmaEnded d)) := by
  unfold State.withHdmaEnabled
  by_cases hd : d = c
  · cases he : hasBit s.hdmaEnded c <;> simp [hd, he, hasBit_withBit]
  · cases he : hasBit s.hdmaEnded c <;> simp [hd, hasBit_withBit]

theorem exec_hdmaEnOf {s : State} (hs : s.inEither = false) (c : Chan) :
    exec (hdmaEnOf c) s = .next (s.withHdmaEnabled c) := by
  have hexec : exec (hdmaEnOf c) s = s.enableHDMA c := by
    have h : ∀ c : Chan, c = 0 ∨ c = 1 ∨ c = 2 ∨ c = 3 ∨ c = 4 ∨ c = 5 ∨ c = 6 ∨ c = 7 := by decide
    obtain rfl | rfl | rfl | rfl | rfl | rfl | rfl | rfl := h c <;> rfl
  exact hexec.trans (State.viaPort_next hs _)

/-- The `HDMA.EN` rows of the channels `l`, one after another: each of them enabled, and active unless it has ended. -/
theorem execSeq_hdmaEnOf (l : List Chan) (s : State) (hs : s.inEither = false) :
    ∃ en act : Mask, execSeq (l.map hdmaEnOf) s = .next { s with hdmaen := en, hdmaActive := act } ∧
      ∀ d, hasBit en d = (hasBit s.hdmaen d || decide (d ∈ l)) ∧
        hasBit act d = (hasBit s.hdmaActive d || (decide (d ∈ l) && !hasBit s.hdmaEnded d)) := by
  induction l generalizing s with
  | nil => exact ⟨s.hdmaen, s.hdmaActive, rfl, by simp⟩
  | cons c l ih =>
    obtain ⟨en, act, hrun, hbits⟩ := ih (s.withHdmaEnabled c) hs
    refine ⟨en, act, (execSeq_cons_next (exec_hdmaEnOf hs c)).trans hrun, fun d => ⟨?_, ?_⟩⟩
    · have hen : hasBit (s.withHdmaEnabled c).hdmaen d = (hasBit s.hdmaen d || decide (d = c)) :=
        hasBit_withBit s.hdmaen c d
      rw [(hbits d).1, hen]
      simp [Bool.or_assoc]
    · have hended : (s.withHdmaEnabled c).hdmaEnded = s.hdmaEnded := rfl
      rw [(hbits d).2, s.withHdmaEnabled_active, hended]
      simp [Bool.or_assoc, Bool.and_or_distrib_right]

theorem mem_maskChans (m : Mask) (c : Chan) : decide (c ∈ maskChans m) = hasBit m c := by
  simp only [maskChans, List.mem_filter, mem_allChans, true_and, Bool.decide_eq_true, hasBit]

/-- Settles O16: the bits the `HDMA.EN` rows set, from cleared masks, are those the write stores. -/
theorem writeHdmaenRunsItsEnableBits : Obligations.WriteHdmaenRunsItsEnableBits := by
  intro v s hs
  obtain ⟨en, act, hrun, hbits⟩ := execSeq_hdmaEnOf (maskChans v) { s with hdmaen := 0, hdmaActive := 0 } hs
  have hen : en = v := mask_ext fun d => by
    rw [(hbits d).1, mem_maskChans, hasBit_zero, Bool.false_or]
  have hact : act = v &&& ~~~s.hdmaEnded := mask_ext fun d => by
    rw [(hbits d).2, mem_maskChans, hasBit_zero, Bool.false_or, hasBit_and_not]
  rw [decodeHdma, hrun, hen, hact]
  change execWrHdmaen v s = _
  rw [execWrHdmaen, State.viaPort_next hs]

/-! ## Transfer modes (R106, R178) -/

/-- The pattern of a mode: one offset for each byte of its group (R106). -/
def pattern (mode : BitVec 3) : List Byte := (patRow mode).take (len mode)

theorem pattern_length : ∀ mode, (pattern mode).length = len mode := by decide

/-- The four written positions of a pattern repeat its group (R106). -/
theorem pat_eq_getD_pattern : ∀ (mode : BitVec 3) (step : BitVec 2),
    pat mode step = (pattern mode).getD (step.toNat % len mode) 0 := by decide

/-- The position of byte `i` advances to that of byte `i + 1` (R178). -/
theorem nextPatternStep_ofNat_mod (mode : BitVec 3) (i : Nat) :
    nextPatternStep mode (BitVec.ofNat 2 (i % len mode)) = BitVec.ofNat 2 ((i + 1) % len mode) := by
  obtain ⟨hpos, hle⟩ := len_le mode
  have hlt : i % len mode < len mode := Nat.mod_lt i hpos
  rw [nextPatternStep, BitVec.toNat_ofNat, Nat.mod_eq_of_lt (by omega : i % len mode < 2 ^ 2), Nat.mod_add_mod]

/-- The offset position `i` of a mode's pattern stands for, `i` counted on through group after group (R106). -/
theorem pat_ofNat_mod (mode : BitVec 3) (i : Nat) :
    pat mode (BitVec.ofNat 2 (i % len mode)) = (pattern mode).getD (i % len mode) 0 := by
  obtain ⟨hpos, hle⟩ := len_le mode
  have hlt : i % len mode < len mode := Nat.mod_lt i hpos
  rw [pat_eq_getD_pattern, BitVec.toNat_ofNat, Nat.mod_eq_of_lt (by omega : i % len mode < 2 ^ 2), Nat.mod_mod]

/-- Settles O19: each row is the multiplexer in its mode, and its list is the mode's pattern. -/
theorem xferSelectsTheOffsetAndAdvancesThePattern : Obligations.XferSelectsTheOffsetAndAdvancesThePattern := by
  intro c s p hp
  obtain ⟨mode, rfl⟩ : ∃ mode, p = (decodeXfer c mode, pattern mode) := by
    simp only [List.mem_cons, List.not_mem_nil, or_false] at hp
    obtain rfl | rfl | rfl | rfl | rfl | rfl | rfl | rfl := hp
    exacts [⟨0, rfl⟩, ⟨1, rfl⟩, ⟨2, rfl⟩, ⟨3, rfl⟩, ⟨4, rfl⟩, ⟨5, rfl⟩, ⟨6, rfl⟩, ⟨7, rfl⟩]
  rw [exec_decodeXfer, State.selectOffset, bOffset, pat_eq_getD_pattern, pattern_length]
  rfl

theorem execSeq_append {l l' : List Instr} {s t : State} (h : execSeq l s = .next t) :
    execSeq (l ++ l') s = execSeq l' t := by
  induction l generalizing s with
  | nil => cases h; rfl
  | cons i l ih =>
    unfold execSeq at h
    split at h
    · next u hu => exact (execSeq_cons_next hu).trans (ih h)
    · cases h
    · cases h

/-- After `k` `XFER` rows of one mode from position 0, the position is that of byte `k` (R178). -/
theorem execSeq_replicate_xfer (c : Chan) (mode : BitVec 3) {s : State} (hs : s.patternStep = 0) (k : Nat) :
    ∃ t, execSeq (List.replicate k (decodeXfer c mode)) s = .next t ∧
      t.patternStep = BitVec.ofNat 2 (k % len mode) ∧ ∀ d, t.row d = s.row d := by
  induction k with
  | zero => exact ⟨s, rfl, by rw [hs, Nat.zero_mod]; rfl, fun _ => rfl⟩
  | succ k ih =>
    obtain ⟨t, hrun, hpos, hrows⟩ := ih
    refine ⟨t.selectOffset c mode, ?_, ?_, hrows⟩
    · rw [List.replicate_succ', execSeq_append hrun, execSeq_cons_next (exec_decodeXfer c mode t)]
      rfl
    · rw [State.selectOffset, hpos]
      exact nextPatternStep_ofNat_mod mode k

/-- Settles O20: after `i` rows the position is that of byte `i`, and row `i + 1` latches its offset. -/
theorem patternCyclesOverTheBytes : Obligations.PatternCyclesOverTheBytes := by
  intro p hp c s i hs
  have hpattern : p.2 = pattern p.1 := by revert p; decide
  obtain ⟨t, hrun, hpos, hrows⟩ := execSeq_replicate_xfer c p.1 hs i
  refine ⟨t.selectOffset c p.1, ?_, ?_, hrows⟩
  · rw [List.replicate_succ', execSeq_append hrun, execSeq_cons_next (exec_decodeXfer c p.1 t)]
    rfl
  · rw [State.selectOffset, hpos, hrows, hpattern, pattern_length, bOffset, pat_ofNat_mod]

/-! ## The address step (R111, R189 to R191) -/

/-- The address step moves `A1T` of its row; besides, it may resolve the base pointer, which is no access (R197). -/
theorem State.stepAddress_spec (s : State) (c : Chan) (d : Half) (wraps : Half → Bool) :
    ∃ new p, accesses new = [] ∧ s.stepAddress c d wraps =
      { s.setRow c { s.row c with a1t := (s.row c).a1t + d } with
        seq := { s.seq with basePtr := p }, env := { s.env with trace := new ++ s.env.trace } } := by
  unfold State.stepAddress
  simp only
  split
  · exact ⟨[⟨.resolveBase (aAddr (s.row c).a1b 0), s.context⟩], s.env.blockPointer (aAddr (s.row c).a1b 0), rfl, rfl⟩
  · exact ⟨[], s.seq.basePtr, rfl, rfl⟩

/-- The step of a row is one address step by its addend (R111). -/
theorem State.stepDma_eq_stepAddress (s : State) (c : Chan) (r : Channel) :
    ∃ wraps, s.stepDma c r.dec r.fix = s.stepAddress c r.addrStep wraps := by
  unfold State.stepDma Channel.addrStep
  split
  · exact ⟨_, rfl⟩
  · split <;> exact ⟨_, rfl⟩

/-- Settles O24: the three rows are one address step each, by their addend; `FIX` decides before `DEC`. -/
theorem addressStep : Obligations.AddressStep := by
  refine ⟨fun c s p hp => ?_, fun c r => by rw [decodeDmap_controlByte]; rfl⟩
  obtain ⟨wraps, hexec⟩ : ∃ wraps, exec p.1 s = .next (s.stepAddress c p.2 wraps) := by
    simp only [List.mem_cons, List.not_mem_nil, or_false] at hp
    obtain rfl | rfl | rfl := hp <;> exact ⟨_, rfl⟩
  obtain ⟨new, q, hnew, hstep⟩ := s.stepAddress_spec c p.2 wraps
  refine ⟨_, new, hexec, s.stepAddress_row c p.2 wraps, (s.stepAddress_byteStep c p.2 wraps).others, hnew, ?_⟩
  rw [hstep]
  rfl

/-! ## One byte of a valid transfer (R176, R177) -/

theorem State.moveByte_tells (s : State) (dir : Bool) (off : Byte) (a : AAddr) :
    Tells (moveAccesses dir off a (s.movedByte dir off a)) s (s.moveByte dir off a) := by
  refine ⟨_, congrArg Env.trace (s.moveByte_env dir off a), ?_⟩
  cases dir <;> rfl

/-- Without the S-DD1 hook the direction row moves a byte between `A1B:A1T` and the offset latched (R187, R188). -/
theorem State.moveDma_eq_moveByte {s : State} (h : s.seq.sdd1On = false) (c : Chan) (dir : Bool) :
    s.moveDma c dir = s.moveByte dir s.seq.bOff (s.row c).dmaAddr := by
  cases dir
  · change s.forwardByte c = _
    unfold State.forwardByte
    rw [if_neg (by rw [h]; decide)]
  · rfl

/-- The byte `v` moved for channel `c` between `s` and `t`: the pattern position, the accesses, and memory. -/
structure DataMoved (c : Chan) (v : Byte) (s t : State) : Prop where
  pattern : t.patternStep = nextPatternStep (s.row c).mode s.patternStep
  told : Tells
    (moveAccesses (s.row c).dir (bOffset (s.row c).bbad (s.row c).mode s.patternStep) (s.row c).dmaAddr v) s t
  peek : (s.row c).dir = false → ∀ x, t.env.peek x = s.env.peek x
  known : (s.row c).dir = false → ∀ w, s.env.peek (s.row c).dmaAddr = some w → v = w

/-- The transfer and direction rows of a byte without the S-DD1 hook (R176 steps 1 to 3, R177). -/
def State.moveData (c : Chan) (s : State) : State :=
  (s.selectOffset c (s.row c).mode).moveByte (s.row c).dir (bOffset (s.row c).bbad (s.row c).mode s.patternStep)
    (s.row c).dmaAddr

theorem State.moveData_row (s : State) (c : Chan) : (s.moveData c).row c = s.row c :=
  (State.moveByte_quiet (s.selectOffset c (s.row c).mode) _ _ _).row c

theorem State.moveData_cycles (s : State) (c : Chan) : (s.moveData c).env.cycles = s.env.cycles := by
  rw [State.moveData, State.moveByte_env]
  rfl

theorem State.moveData_moved (s : State) (c : Chan) : ∃ v, DataMoved c v s (s.moveData c) := by
  have hquiet := State.moveByte_quiet (s.selectOffset c (s.row c).mode) (s.row c).dir
    (bOffset (s.row c).bbad (s.row c).mode s.patternStep) (s.row c).dmaAddr
  refine ⟨_, congrArg State.patternStep hquiet.rest,
    (State.moveByte_tells (s.selectOffset c (s.row c).mode) _ _ _).congr rfl rfl,
    fun hd x => State.moveByte_peek _ _ _ _ x (.inl hd), fun hd w hw => ?_⟩
  rw [hd]
  exact State.movedByte_known hw

/-- The address step after a byte touches none of its data. -/
theorem DataMoved.stepAddress {c : Chan} {v : Byte} {s t : State} (h : DataMoved c v s t) (d : Half)
    (wraps : Half → Bool) : DataMoved c v s (t.stepAddress c d wraps) := by
  obtain ⟨new, p, hnew, hstep⟩ := t.stepAddress_spec c d wraps
  have htold : Tells [] t (t.stepAddress c d wraps) := ⟨new, by rw [hstep], hnew⟩
  refine ⟨?_, by simpa using h.told.trans htold, fun hd x => ?_, h.known⟩
  · rw [hstep]
    exact h.pattern
  · rw [hstep]
    exact (Env.peek_congr rfl rfl x).trans (h.peek hd x)

theorem State.byteBody_eq_stepAddress {s : State} (h : s.seq.sdd1On = false) (c : Chan) :
    ∃ wraps, s.byteBody c = (s.moveData c).stepAddress c (s.row c).addrStep wraps := by
  obtain ⟨wraps, hw⟩ := (s.moveData c).stepDma_eq_stepAddress c (s.row c)
  refine ⟨wraps, ?_⟩
  rw [← hw, State.byteBody, State.moveDma_eq_moveByte (s := s.selectOffset c (s.row c).mode) h]
  rfl

/-- The three rows of a byte: its data, no cycles, and `A1T` of its row. -/
theorem State.byteBody_spec {s : State} (h : s.seq.sdd1On = false) (c : Chan) :
    (∃ v, DataMoved c v s (s.byteBody c)) ∧ (s.byteBody c).env.cycles = s.env.cycles ∧
      (s.byteBody c).row c = { s.row c with a1t := (s.row c).a1t + (s.row c).addrStep } := by
  obtain ⟨wraps, hbody⟩ := State.byteBody_eq_stepAddress h c
  obtain ⟨v, hmoved⟩ := s.moveData_moved c
  rw [hbody]
  refine ⟨⟨v, hmoved.stepAddress _ wraps⟩, ?_, by rw [State.stepAddress_row, State.moveData_row]⟩
  obtain ⟨new, p, -, hstep⟩ := (s.moveData c).stepAddress_spec c (s.row c).addrStep wraps
  rw [hstep]
  exact s.moveData_cycles c

/-! ## A cycle sink that delivers nothing (R192) -/

/-- What such a sink leaves: the byte's cycles, and the script one entry on. -/
def State.passSink (rest : List (List Due)) (s : State) : State :=
  { s.addCycles Config.byteCost with env := { (s.addCycles Config.byteCost).env with script := rest } }

theorem State.cycleSink_of_nil {s : State} {rest : List (List Due)} (hr : s.hdmaRanInDMA = 0)
    (hs : s.env.script = [] :: rest) (c : Chan) : s.cycleSink c = (true, s.passSink rest) := by
  have hdue : (s.addCycles Config.byteCost).nextDue = ([], s.passSink rest) := by
    unfold State.nextDue
    rw [State.addCycles_env, hs]
    rfl
  have hran : (s.passSink rest).hdmaRanInDMA = 0 := hr
  unfold State.cycleSink
  simp only [hdue, List.foldl_nil, hran, hasBit_zero, Bool.not_false]
  rw [← hran]

/-- The end of a byte at such a sink: the transfer goes on (R170 lines 6, 7, 20, 23). -/
theorem State.closeByte_of_nil {s : State} {rest : List (List Due)} (hr : s.hdmaRanInDMA = 0)
    (hs : s.env.script = [] :: rest) (c : Chan) : s.closeByte c = (s.countByte c).passSink rest := by
  unfold State.closeByte
  rw [State.cycleSink_of_nil (s := s.countByte c) hr hs]
  rfl

/-! ## An undisturbed run of bytes (R170, R200) -/

/-- A valid `ExecuteDMA(c)` without the S-DD1 hook is in flight, and no collision is recorded. -/
structure State.MovesOn (c : Chan) (s : State) : Prop where
  busy : s.seq.busy = some c
  invalid : s.seq.invalid = false
  sdd1On : s.seq.sdd1On = false
  ran : s.hdmaRanInDMA = 0

/-- What a step with bytes left does where its sink delivers nothing: the byte `v` moved and counted. -/
structure ByteMoved (c : Chan) (v : Byte) (s t : State) : Prop extends DataMoved c v s t where
  movesOn : t.MovesOn c
  remaining : t.seq.remaining + 1 = s.seq.remaining
  row : t.row c = { (s.row c).countDas with a1t := (s.row c).a1t + (s.row c).addrStep }
  others : ∀ d, d ≠ c → t.row d = s.row d
  cycles : t.env.cycles = s.env.cycles + 8

theorem State.MovesOn.step_moves {c : Chan} {s : State} {rest : List (List Due)} (h : s.MovesOn c)
    (hn : s.seq.remaining ≠ 0) (hs : s.env.script = [] :: rest) :
    ∃ t v, step s = .next t ∧ ByteMoved c v s t ∧ t.env.script = rest := by
  obtain ⟨hb, hi, ho, hr⟩ := h
  have hframe := s.byteBody_byteStep c
  obtain ⟨⟨v, hpattern, htold, hpeek, hknown⟩, hcycles, hrow⟩ := State.byteBody_spec ho c
  have hran : (s.byteBody c).hdmaRanInDMA = 0 := (congrArg State.hdmaRanInDMA hframe.rest).trans hr
  have hclose := State.closeByte_of_nil hran (hframe.env.script.trans hs) c
  have hpass : Tells [] (s.byteBody c) (((s.byteBody c).countByte c).passSink rest) :=
    ⟨[⟨.addCycles Config.byteCost, (s.byteBody c).context⟩], rfl, rfl⟩
  refine ⟨((s.byteBody c).countByte c).passSink rest, v, ?_, ⟨⟨hpattern, ?_, fun hd x => ?_, hknown⟩,
    ⟨hframe.busy.trans hb, hframe.invalid.trans hi, hframe.sdd1On.trans ho, hran⟩, ?_, ?_, fun d hd => ?_, ?_⟩, rfl⟩
  · rw [step_busy hb, State.dmaStep_eq, if_neg hn, if_neg (by rw [hi]; decide), hclose]
  · simpa using htold.trans hpass
  · exact (Env.peek_congr rfl rfl x).trans (hpeek hd x)
  · change (s.byteBody c).seq.remaining - 1 + 1 = _
    rw [hframe.remaining]
    omega
  · change ((s.byteBody c).countByte c).row c = _
    rw [State.countByte_row, if_pos rfl, hrow]
    rfl
  · change ((s.byteBody c).countByte c).row d = _
    rw [State.countByte_row, if_neg hd, hframe.others d hd]
  · change (s.byteBody c).env.cycles + 8 = _
    rw [hcycles]

/-- The row after `k` bytes of its DMA: counted, `A1T` moved, the cached pointer of an indirect channel dropped (R170,
R235). -/
def Channel.afterBytes (k : Nat) (r : Channel) : Channel :=
  { r with
    das := r.das - BitVec.ofNat 16 k
    a1t := r.a1t + BitVec.ofNat 16 k * r.addrStep
    ptr := if r.ind && k != 0 then none else r.ptr }

theorem Channel.afterBytes_zero (r : Channel) : r.afterBytes 0 = r := by
  simp [Channel.afterBytes]

theorem Channel.afterBytes_succ (k : Nat) (r : Channel) :
    r.afterBytes (k + 1) = { (r.afterBytes k).countDas with a1t := (r.afterBytes k).a1t + r.addrStep } := by
  have hone : BitVec.ofNat 16 (k + 1) = BitVec.ofNat 16 k + 1 := BitVec.ofNat_add ..
  apply Channel.ext
  case das => simp [Channel.afterBytes, hone, BitVec.sub_sub]
  case a1t => simp [Channel.afterBytes, hone, BitVec.add_mul, BitVec.add_assoc]
  case ptr => cases hi : r.ind <;> simp [Channel.afterBytes, hi]
  all_goals rfl

/-- The A-bus address of byte `i` of a DMA on the row (R108, R111). -/
def Channel.dmaByteAddr (r : Channel) (i : Nat) : AAddr := aAddr r.a1b (r.a1t + BitVec.ofNat 16 i * r.addrStep)

/-- The accesses of byte `i` of a DMA on the row, `v i` being the byte (R176 to R178). -/
def Channel.dmaByteAccesses (v : Nat → Byte) (r : Channel) (i : Nat) : List Observed :=
  moveAccesses r.dir (bOffset r.bbad r.mode (BitVec.ofNat 2 (i % len r.mode))) (r.dmaByteAddr i) (v i)

/-- What `k` bytes `v 0 .. v (k - 1)` of a DMA on channel `c`, undisturbed, make of `s`. -/
structure BytesMoved (c : Chan) (k : Nat) (v : Nat → Byte) (s t : State) : Prop where
  movesOn : t.MovesOn c
  remaining : t.seq.remaining + k = s.seq.remaining
  pattern : t.patternStep = BitVec.ofNat 2 (k % len (s.row c).mode)
  row : t.row c = (s.row c).afterBytes k
  others : ∀ d, d ≠ c → t.row d = s.row d
  cycles : t.env.cycles = s.env.cycles + 8 * k
  told : Tells ((List.range k).flatMap ((s.row c).dmaByteAccesses v)) s t
  peek : (s.row c).dir = false → ∀ x, t.env.peek x = s.env.peek x
  known : (s.row c).dir = false → ∀ i < k, ∀ w, s.env.peek ((s.row c).dmaByteAddr i) = some w → v i = w

theorem BytesMoved.zero {c : Chan} {s : State} (h : s.MovesOn c) (hp : s.patternStep = 0) (v : Nat → Byte) :
    BytesMoved c 0 v s s where
  movesOn := h
  remaining := rfl
  pattern := by rw [hp, Nat.zero_mod]; rfl
  row := (s.row c).afterBytes_zero.symm
  others _ _ := rfl
  cycles := rfl
  told := Tells.of_trace rfl
  peek _ _ := rfl
  known _ _ hi := absurd hi (Nat.not_lt_zero _)

/-- One more byte. -/
theorem BytesMoved.succ {c : Chan} {k : Nat} {v : Nat → Byte} {b : Byte} {s t u : State} (h : BytesMoved c k v s t)
    (hb : ByteMoved c b t u) : BytesMoved c (k + 1) (Function.update v k b) s u := by
  have hlt : ∀ i < k, Function.update v k b i = v i := fun i hi => Function.update_of_ne (Nat.ne_of_lt hi) b v
  have hself : Function.update v k b k = b := Function.update_self k b v
  obtain ⟨⟨hpattern, htold, hpeek, hknown⟩, hon, hrem, hrow, hoth, hcyc⟩ := hb
  rw [h.row] at hpattern htold hpeek hknown hrow
  refine ⟨hon, by rw [← h.remaining, ← hrem]; omega, ?_, ?_, fun d hd => (hoth d hd).trans (h.others d hd), ?_, ?_,
    fun hd x => (hpeek hd x).trans (h.peek hd x), fun hd i hi w hw => ?_⟩
  · rw [hpattern, h.pattern]
    exact nextPatternStep_ofNat_mod (s.row c).mode k
  · rw [hrow, Channel.afterBytes_succ]
    rfl
  · rw [hcyc, h.cycles]
    omega
  · have hcongr : (List.range k).flatMap ((s.row c).dmaByteAccesses (Function.update v k b)) =
        (List.range k).flatMap ((s.row c).dmaByteAccesses v) :=
      List.flatMap_congr fun i hi => by rw [Channel.dmaByteAccesses, hlt i (List.mem_range.1 hi)]; rfl
    rw [List.range_succ, List.flatMap_append, hcongr, List.flatMap_singleton, Channel.dmaByteAccesses, hself]
    rw [h.pattern] at htold
    exact h.told.trans htold
  · obtain hik | rfl := Nat.lt_succ_iff_lt_or_eq.1 hi
    · rw [hlt i hik]
      exact h.known hd i hik w hw
    · rw [hself]
      exact hknown hd w ((h.peek hd _).trans hw)

/-- A run starts with its first step. -/
theorem core_run_of_step {s t : State} (h : step s = .next t) (k : Nat) : core.run (k + 1) s = core.run k t := by
  have hs : core.step s = .next t := h
  simp only [Host.Core.run, hs]

/-- A run that answers a next state goes on with one more step. -/
theorem core_run_succ {k : Nat} {s t u : State} (h : core.run k s = .next t) (hu : step t = .next u) :
    core.run (k + 1) s = .next u := by
  induction k generalizing s with
  | zero =>
    cases h
    exact core_run_of_step hu 0
  | succ k ih =>
    cases hw : step s with
    | next w =>
      rw [core_run_of_step hw] at h ⊢
      exact ih h
    | fault r => cases r
    | refused r =>
      have hs : core.step s = .refused r := hw
      simp only [Host.Core.run, hs, reduceCtorEq] at h

/-- `k` steps of a valid transfer with `k` bytes left at least, no sink of theirs delivering anything. -/
theorem State.MovesOn.run_moves {c : Chan} {s : State} (h : s.MovesOn c) (hp : s.patternStep = 0) (k : Nat)
    (hk : k ≤ s.seq.remaining) (rest : List (List Due)) (hs : s.env.script = List.replicate k [] ++ rest) :
    ∃ t v, core.run k s = .next t ∧ BytesMoved c k v s t ∧ t.env.script = rest := by
  induction k generalizing rest with
  | zero => exact ⟨s, fun _ => 0, rfl, BytesMoved.zero h hp _, hs⟩
  | succ k ih =>
    rw [List.replicate_succ', List.append_assoc] at hs
    obtain ⟨t, v, hrun, hmoved, hscript⟩ := ih (by omega) ([] :: rest) hs
    have hleft := hmoved.remaining
    obtain ⟨u, b, hstep, hbyte, hrest⟩ := hmoved.movesOn.step_moves (by omega) hscript
    exact ⟨u, _, core_run_succ hrun hstep, hmoved.succ hbyte, hrest⟩

/-! ## The entry and the end of `ExecuteDMA` (R170, R171, R194) -/

/-- The S-DD1 hook is taken at the entry of a valid transfer that meets its condition (R196). -/
def State.takesHook (c : Chan) (s : State) : Bool := !(s.row c).isInvalid && s.sdd1Hook (s.row c)

/-- The entry of `ExecuteDMA(c)`, field by field; no access is made (R171, R173, R178, R196). -/
theorem State.beginDMA_spec (s : State) (c : Chan) :
    ∃ new p, accesses new = [] ∧ s.beginDMA c = { s with
      inDMA := true, inEither := true, currentChannel := some c
      patternStep := if (s.row c).isInvalid then s.patternStep else 0
      sdd1Flag := s.sdd1Flag && !s.takesHook c
      seq := { Seq.idle with
        busy := some c, remaining := dmaCount (s.row c).das, invalid := (s.row c).isInvalid
        sdd1On := s.takesHook c, basePtr := p }
      env := { s.env with cycles := s.env.cycles + Config.dmaChOverhead, trace := new ++ s.env.trace } } := by
  unfold State.beginDMA State.openDMA
  simp only
  cases hi : (s.row c).isInvalid with
  | true =>
    have hh : s.takesHook c = false := by rw [State.takesHook, hi]; rfl
    rw [hh, Bool.not_false, Bool.and_true]
    exact ⟨[⟨.addCycles Config.dmaChOverhead, (s.enterDMA c).context⟩], none, rfl, rfl⟩
  | false =>
    have hh : s.takesHook c = s.sdd1Hook (s.row c) := by rw [State.takesHook, hi]; rfl
    rw [hh]
    cases hd : (s.row c).dir with
    | true => exact ⟨[⟨.addCycles Config.dmaChOverhead, (s.enterDMA c).context⟩], none, rfl, rfl⟩
    | false =>
      exact ⟨[⟨.resolveBase (aAddr (s.row c).a1b 0), (s.enterDMA c).context⟩,
        ⟨.addCycles Config.dmaChOverhead, (s.enterDMA c).context⟩],
        s.env.blockPointer (aAddr (s.row c).a1b 0), rfl, rfl⟩

/-- The end of a call that completes: its result is the last observation, and no access is made (R194, R195). -/
theorem State.completeDMA_spec (s : State) (c : Chan) :
    ∃ new, accesses new = [] ∧ (new.head?.map fun x => x.what) = some (.dmaResult c true) ∧
      s.completeDMA c = { s.endDMA c with env := { s.env with trace := new ++ s.env.trace } } := by
  unfold State.completeDMA State.rescheduleNmi
  split
  · exact ⟨[⟨.dmaResult c true, (s.endDMA c).context⟩, ⟨.nmiReschedule Config.nmiDmaDelay, (s.endDMA c).context⟩],
      rfl, rfl, rfl⟩
  · exact ⟨[⟨.dmaResult c true, (s.endDMA c).context⟩], rfl, rfl, rfl⟩

theorem step_of_remaining_zero {c : Chan} {s : State} (hb : s.seq.busy = some c) (hr : s.seq.remaining = 0) :
    step s = .next (s.completeDMA c) := by
  rw [step_busy hb, State.dmaStep_eq, if_pos hr]

theorem dmaCount_ne_zero (das : Half) : dmaCount das ≠ 0 := by
  unfold dmaCount
  split
  · decide
  · next h => exact fun hz => h (BitVec.eq_of_toNat_eq hz)

/-- Counted `N` times, `DAS` is 0, for `DAS = 0` too, which stands for 0x10000 bytes (R110). -/
theorem sub_dmaCount (das : Half) : das - BitVec.ofNat 16 (dmaCount das) = 0 := by
  unfold dmaCount
  split
  · next h => rw [h]; rfl
  · rw [BitVec.ofNat_toNat, BitVec.setWidth_eq, BitVec.sub_self]; rfl

/-- The row after the whole count (R170, R200). -/
theorem Channel.afterBytes_dmaCount (r : Channel) :
    r.afterBytes (dmaCount r.das) = { r with
      das := 0, a1t := r.a1t + BitVec.ofNat 16 (dmaCount r.das) * r.addrStep
      ptr := if r.ind then none else r.ptr } := by
  have hne : (dmaCount r.das != 0) = true := bne_iff_ne.2 (dmaCount_ne_zero r.das)
  rw [Channel.afterBytes, sub_dmaCount, hne, Bool.and_true]

/-- A valid call without the S-DD1 hook starts with all its bytes left, at position 0 of the pattern (R170, R178). -/
theorem State.beginDMA_movesOn {s : State} {c : Chan} (hv : (s.row c).isInvalid = false)
    (hh : s.sdd1Hook (s.row c) = false) (hr : s.hdmaRanInDMA = 0) :
    (s.beginDMA c).MovesOn c ∧ (s.beginDMA c).patternStep = 0 ∧
      (s.beginDMA c).seq.remaining = dmaCount (s.row c).das := by
  obtain ⟨new, p, -, hbegin⟩ := s.beginDMA_spec c
  rw [hbegin]
  exact ⟨⟨rfl, hv, by rw [State.takesHook, hh, Bool.and_false], hr⟩, by rw [hv]; rfl, rfl⟩

/-- Settles O30: the entry, `N` undisturbed byte steps by induction (`State.MovesOn.run_moves`), and the end of the
call. -/
theorem undisturbedTransferMovesNBytes : Obligations.UndisturbedTransferMovesNBytes := by
  intro c s n d rest he hr hv hh hn hd hs
  obtain rfl : n = dmaCount (s.row c).das := hn
  obtain rfl : d = (s.row c).addrStep := hd
  obtain ⟨entry, p, hentry, hbegin⟩ := s.beginDMA_spec c
  have hrow : ∀ e, (s.beginDMA c).row e = s.row e := State.row_congr (s.beginDMA_ch c)
  have hpeek : ∀ x, (s.beginDMA c).env.peek x = s.env.peek x := fun x => by
    rw [hbegin]
    exact Env.peek_congr rfl rfl x
  obtain ⟨hon, hzero, hcount⟩ := State.beginDMA_movesOn hv hh hr
  obtain ⟨t, v, hrun, hmoved, hscript⟩ :=
    hon.run_moves hzero (dmaCount (s.row c).das) hcount.ge rest (by rw [hbegin]; exact hs)
  obtain ⟨hton, hleft, -, htrow, hothers, hcycles, ⟨moved, htrace, haccesses⟩, -, hknown⟩ := hmoved
  obtain ⟨last, hlast, hhead, hcomplete⟩ := t.completeDMA_spec c
  have hdone : t.seq.remaining = 0 := by omega
  rw [hrow] at htrow haccesses hknown
  refine ⟨s.beginDMA c, t.completeDMA c, last ++ moved ++ entry, v,
    (exec_dmaExecOf c s).trans (State.startDMA_next he c),
    core_run_succ hrun (step_of_remaining_zero hton.busy hdone), ?_⟩
  rw [hcomplete]
  refine ⟨htrow.trans (s.row c).afterBytes_dmaCount, fun e hne => (hothers e hne).trans (hrow e), rfl, rfl, rfl, rfl,
    hscript, ?_, ?_, ?_, ?_, fun hd i hi w hw => hknown hd i hi w ((hpeek _).trans hw)⟩
  · change last ++ t.env.trace = _
    rw [htrace, hbegin, List.append_assoc, List.append_assoc]
  · change t.env.cycles = _
    rw [hcycles, hbegin, Nat.add_assoc]
    rfl
  · cases last with
    | nil => cases hhead
    | cons => exact hhead
  · rw [accesses_append, accesses_append, hlast, hentry, haccesses, List.nil_append, List.append_nil]
    rfl

/-! ## `DMA.EXEC` (R110, R171, R173) -/

theorem Channel.isInvalid_iff (r : Channel) :
    r.isInvalid = true ↔ (r.a1b = 0x7E ∨ r.a1b = 0x7F) ∧ r.bbad = 0x80 ∧ r.dir = false := by
  simp [Channel.isInvalid, Config.wramBanks, Config.wramPort, and_assoc]

/-- Settles O25: each `DMA.EXEC` row is the entry of `ExecuteDMA` for its channel. -/
theorem dmaExecEntersTheTransfer : Obligations.DmaExecEntersTheTransfer := by
  intro s he p hp
  have hexec : exec p.1 s = .next (s.beginDMA p.2) := by
    have hrow : p.1 = dmaExecOf p.2 := by revert p; decide
    rw [hrow, exec_dmaExecOf, State.startDMA_next he]
  obtain ⟨new, b, hnew, hbegin⟩ := s.beginDMA_spec p.2
  refine ⟨s.beginDMA p.2, new, hexec, ?_⟩
  rw [hbegin]
  exact ⟨rfl, rfl, rfl, rfl, rfl, (s.row p.2).isInvalid_iff, rfl, hnew, rfl⟩

/-! ## The line-count byte (R102, R119, R222) -/

/-- The class of a line-count byte, by its number (R102). -/
theorem lineClass_fields : ∀ b : Byte, b.getLsbD 7 = !decide (b.toNat < 0x80) ∧ b.extractLsb' 0 7 = b.setWidth 7 := by
  decide

theorem decodeLcb_eq (c : Chan) (b : Byte) : decodeLcb c b =
    if b = 0x00 then .lcEnd c else if b = 0x80 then .lcRep128 c
    else if b.toNat < 0x80 then .lcSingle c (b.setWidth 7) else .lcRepeat c (b.setWidth 7) := by
  obtain ⟨h7, hcount⟩ := lineClass_fields b
  rw [decodeLcb, h7, hcount]
  by_cases hb : b.toNat < 0x80 <;> simp only [hb, decide_true, decide_false, Bool.not_true, Bool.not_false,
    Bool.false_eq_true, if_true, if_false]

/-- The `LC` row of a byte is the effect of that byte (R118, R222). -/
theorem exec_decodeLcb (c : Chan) (b : Byte) (s : State) : exec (decodeLcb c b) s = .next (s.lineByte c b) := by
  unfold decodeLcb State.lineByte
  split
  · rfl
  · split
    · rfl
    · split <;> rfl

/-- The flags any line-count byte leaves (R222 lines 3 and 4). -/
theorem State.lineByte_flags (s : State) (c : Chan) (b : Byte) :
    ((s.lineByte c b).row c).rep = b.getLsbD 7 ∧
    ((s.lineByte c b).row c).lineCount = BitVec.ofNat 8 (if b.toNat % 128 = 0 then 128 else b.toNat % 128) := by
  obtain ⟨lo, hi, ⟨p, hrow⟩, -, -, -⟩ := s.lineByte_spec c b
  rw [hrow]
  exact ⟨rfl, rfl⟩

theorem State.aRead_of_peek {s : State} {a : AAddr} {b : Byte} (h : s.env.peek a = some b) :
    s.aRead a = (b, s.observe (.readByte a b)) := by
  unfold State.aRead Env.readByte
  rw [h]

/-- `ReadLineCountByte` over a byte memory holds: the read, 8 cycle units, and the byte's effect (R222). -/
theorem State.readLineCountByte_of_peek {s : State} {c : Chan} {b : Byte}
    (h : s.env.peek (s.row c).tableAddr = some b) : s.readLineCountByte c =
      (b != 0, ((s.observe (.readByte (s.row c).tableAddr b)).addCycles Config.byteCost).lineByte c b) := by
  unfold State.readLineCountByte
  rw [State.aRead_of_peek h]

/-- Settles O37: the byte's class by its number, and `ReadLineCountByte` as the byte's `LC` row after the read. -/
theorem readLineCountByteDecodesTheByte : Obligations.ReadLineCountByteDecodesTheByte := by
  refine ⟨decodeLcb_eq, fun c b s h => ?_⟩
  rw [State.readLineCountByte_of_peek h]
  obtain ⟨hrep, hcount⟩ :=
    State.lineByte_flags ((s.observe (.readByte (s.row c).tableAddr b)).addCycles Config.byteCost) c b
  refine ⟨rfl, hrep, ?_, (exec_decodeLcb c b _).symm⟩
  rw [hcount, BitVec.toNat_ofNat, Nat.mod_eq_of_lt]
  split <;> omega

/-- Loaded into a row, a line-count byte reads back whole (R119). -/
theorem State.lineByte_ntrlByte (s : State) (c : Chan) (b : Byte) : ((s.lineByte c b).row c).ntrlByte = b := by
  obtain ⟨hrep, hcount⟩ := s.lineByte_flags c b
  rw [Channel.ntrlByte, hrep, hcount, ← lineCountOf_eq]
  exact ntrlByte_withNtrlByte b (s.row c)

/-- Settles O38: the load leaves the port open, and the row it leaves reads as the byte. -/
theorem ntrlReadsTheByteLoaded : Obligations.NtrlReadsTheByteLoaded := by
  intro c b s hs
  have hport : (s.lineByte c b).inEither = false := (congrArg State.inEither (s.lineByte_onChannel c b).rest).trans hs
  refine ⟨s.lineByte c b, exec_decodeLcb c b s, ?_⟩
  change execRdNtrl c (s.lineByte c b) = _
  rw [execRdNtrl, State.readRow_next hport, State.lineByte_ntrlByte]
  rfl

/-! ## One group (R229 to R232) -/

/-- A group of either form changes its own row and the environment only. -/
theorem State.moveGroup_onlyRowAndEnv (s : State) (c : Chan) (ind : Bool) : s.onlyRowAndEnv c (s.moveGroup c ind) := by
  have hptr := s.groupPointer_onChannel c ind
  have hbytes := (s.groupPointer c ind).moveGroupBytes_quiet ((s.groupPointer c ind).row c) ind
    (List.range (len ((s.groupPointer c ind).row c).mode))
  unfold State.moveGroup
  refine ⟨fun d hd => ?_, ?_⟩
  · rw [State.updRow_row_ne _ _ hd, hbytes.row d, hptr.others d hd]
  · rw [State.updRow, State.setRow, hbytes.rest, hptr.rest]

/-- Settles O34: the run of moves of `State.moveGroup_spec`, whose addresses are distinct. -/
theorem hdmaGroupMovesOnePattern : Obligations.HdmaGroupMovesOnePattern := by
  intro c ind s r g a b
  have hexec : exec (if ind then .haddrIndirect c else .haddrDirect c) s = .next (s.moveGroup c ind) := by
    cases ind <;> rfl
  have haddr : ∀ i, aAddr ((s.row c).sourceBank ind) ((s.row c).sourceBase ind + BitVec.ofNat 16 i) = a i := fun i => by
    cases ind <;> rfl
  have hinj : ∀ i ∈ List.range g, ∀ j ∈ List.range g, a i = a j → i = j := fun i hi j hj h => by
    have hle : g ≤ 4 := (len_le r.mode).2
    have hi4 := List.mem_range.1 hi
    have hj4 := List.mem_range.1 hj
    rw [← haddr i, ← haddr j] at h
    exact groupAddr_inj _ _ (by omega) (by omega) h
  obtain ⟨v, new, p, hmoves, hrow⟩ := s.moveGroup_spec c ind
  obtain ⟨htrace, hacc, -, hcycles, -, hknown, hstored, hothers⟩ := hmoves
  simp only [haddr] at hacc hknown hstored hothers
  refine ⟨s.moveGroup c ind, new, v, p, hexec, ?_, s.moveGroup_onlyRowAndEnv c ind, htrace, ?_, hacc,
    fun hd i hi => hknown hd i (List.mem_range.2 hi), fun hd i hi => hstored hd hinj i (List.mem_range.2 hi),
    fun x hx => hothers x (hx.imp id fun h i hi => h i (List.mem_range.1 hi))⟩
  · rw [hrow]
    cases ind <;> rfl
  · rw [hcycles, List.length_range]
    rfl

end Sys2Proof.Machine
end

section
/-! PROOFS. Family 40_register_access: the steps of `ExecuteDMA` compute the spec's call (R170), and those behind a
write of `MDMAEN` the spec's arbiter (R142, R260); writes and reads of the channel registers and of the two enable
registers (R130 to R157), the cached pointer dropped by a write (R160), the moves the host never makes (R158, R293). -/

namespace Sys2Proof.Machine

/-! ## The end of a call, as the spec writes it (R170 lines 24 to 28) -/

/-- `ExecuteDMA(c)` after its bytes, which completed or not and left the state `p.2` (R170 lines 24 to 28). -/
def closeCall (c : Chan) (p : Bool × State) : State :=
  (if p.1 then p.2.leaveDMA.rescheduleNmi else p.2.leaveDMA).observe (.dmaResult c p.1)

/-- The state with the arbiter's request of channel `c` served (R260). -/
def State.clearRequest (c : Chan) (s : State) : State := { s with mdmaen := withoutBit s.mdmaen c }

theorem State.rescheduleNmi_eq (s : State) : ∃ e, s.rescheduleNmi = { s with env := e } := by
  unfold State.rescheduleNmi
  split <;> exact ⟨_, rfl⟩

/-- The end of a call leaves the port open, and the requests as they are. -/
theorem closeCall_frame (c : Chan) (p : Bool × State) :
    (closeCall c p).inEither = false ∧ (closeCall c p).mdmaen = p.2.mdmaen := by
  obtain ⟨completed, s⟩ := p
  cases completed with
  | false => exact ⟨rfl, rfl⟩
  | true =>
    obtain ⟨e, he⟩ := s.leaveDMA.rescheduleNmi_eq
    simp [closeCall, he]

theorem completeDMA_dropLocals (c : Chan) (s : State) (q : Seq) :
    (s.completeDMA c).dropLocals = ((closeCall c (true, s.withSeq q)).clearRequest c).dropLocals := by
  have hend : (s.endDMA c).env = s.env := rfl
  have hleave : (s.withSeq q).leaveDMA.env = s.env := rfl
  unfold State.completeDMA closeCall State.rescheduleNmi
  rw [if_pos rfl, hend, hleave]
  by_cases h : s.env.nmiPending = true
  · rw [if_pos h, if_pos h]
    rfl
  · rw [if_neg h, if_neg h]
    rfl

theorem abortDMA_dropLocals (c : Chan) (s : State) (q : Seq) :
    (s.abortDMA c).dropLocals = ((closeCall c (false, s.withSeq q)).clearRequest c).dropLocals := rfl

/-! ## A call in flight and the loop it computes -/

/-- In at most `n` steps the call in flight in `s` comes to the end the spec gives it, `p` being what the spec's loop
answers from here: the flags, the NMI rule, the result, and the arbiter's request served. -/
def Finishes (c : Chan) (n : Nat) (s : State) (p : Bool × State) : Prop :=
  ∃ k t, k ≤ n ∧ core.run k s = .next t ∧ t.seq.busy = none ∧ p.2.mdmaen = s.mdmaen ∧
    t.dropLocals = ((closeCall c p).clearRequest c).dropLocals

theorem Finishes.done {c : Chan} {s : State} (hb : s.seq.busy = some c) (hr : s.seq.remaining = 0) (q : Seq) :
    Finishes c 1 s (true, s.withSeq q) := by
  refine ⟨1, s.completeDMA c, le_refl 1, core_run_of_step (step_of_remaining_zero hb hr) 0, ?_, rfl,
    completeDMA_dropLocals c s q⟩
  obtain ⟨new, -, -, hcomplete⟩ := s.completeDMA_spec c
  rw [hcomplete]
  rfl

/-- A byte whose data is moved, in `w`, is counted, and its sink decides on both sides alike whether the call goes on
(R170 lines 20 and 23, R192). -/
theorem Finishes.byte {c : Chan} {n : Nat} {s w u : State} {q : Seq} {loop : State → Bool × State}
    (hstep : step s = .next (w.closeByte c)) (hw : w.mdmaen = s.mdmaen) (hu : u = (w.countByte c).withSeq q)
    (hrest : Finishes c n ((w.countByte c).cycleSink c).2 (loop (((w.countByte c).cycleSink c).2.withSeq q))) :
    Finishes c (n + 1) s (if (u.cycleSink c).1 then loop (u.cycleSink c).2 else (false, (u.cycleSink c).2)) := by
  have hkept : ((w.countByte c).cycleSink c).2.mdmaen = s.mdmaen :=
    ((w.countByte c).cycleSink_keeps c).1.mdmaen.trans hw
  have hclose : w.closeByte c = if ((w.countByte c).cycleSink c).1 then ((w.countByte c).cycleSink c).2
      else ((w.countByte c).cycleSink c).2.abortDMA c := rfl
  rw [hclose] at hstep
  rw [hu, State.cycleSink_withSeq]
  cases hgo : ((w.countByte c).cycleSink c).1 with
  | true =>
    rw [hgo, if_pos rfl] at hstep
    obtain ⟨k, t, hk, hrun, hidle, hreq, ht⟩ := hrest
    exact ⟨k + 1, t, Nat.succ_le_succ hk, (core_run_of_step hstep k).trans hrun, hidle, hreq.trans hkept, ht⟩
  | false =>
    rw [hgo, if_neg Bool.false_ne_true] at hstep
    exact ⟨1, _, Nat.le_add_left 1 n, core_run_of_step hstep 0, rfl, hkept, abortDMA_dropLocals c _ q⟩

/-! ## The bytes of an invalid transfer (R174) -/

theorem countByte_withSeq (c : Chan) (s : State) (q : Seq) :
    (s.withSeq q).updRow c Channel.countDas = (s.countByte c).withSeq q := rfl

/-- The byte steps of an invalid transfer compute its loop. -/
theorem finishes_invalidLoop (c : Chan) (n : Nat) (s : State) (q : Seq) (hb : s.seq.busy = some c)
    (hi : s.seq.invalid = true) (hr : s.seq.remaining = n) :
    Finishes c (n + 1) s (invalidLoop c n (s.withSeq q)) := by
  induction n generalizing s with
  | zero => exact Finishes.done hb hr q
  | succ n ih =>
    have hstep : step s = .next (s.closeByte c) := by
      rw [step_busy hb, State.dmaStep_eq, if_neg (by omega), if_pos hi]
    have hseq := ((s.countByte c).cycleSink_keeps c).1.seq
    refine Finishes.byte hstep rfl (countByte_withSeq c s q) (ih _ ?_ ?_ ?_)
    · rw [hseq]; exact hb
    · rw [hseq]; exact hi
    · rw [hseq]; exact congrArg (· - 1) hr

/-! ## One byte of a valid transfer, as the spec writes it (R170 lines 13 to 22) -/

/-- The state at another position of the pattern. -/
def State.withPatternStep (p : BitVec 2) (s : State) : State := { s with patternStep := p }

/-- The pattern position of the next byte (R178). -/
def State.advancePattern (mode : BitVec 3) (s : State) : State :=
  s.withPatternStep (nextPatternStep mode s.patternStep)

/-- A state at the position after `p` is one at `p`, its pattern advanced. -/
theorem State.eq_advancePattern {s : State} {mode : BitVec 3} {p : BitVec 2}
    (h : s.patternStep = nextPatternStep mode p) : s = (s.withPatternStep p).advancePattern mode := by
  change s = s.withPatternStep (nextPatternStep mode p)
  rw [← h]
  rfl

theorem State.moveByte_frame (s : State) (dir : Bool) (off : Byte) (a : AAddr) :
    (s.moveByte dir off a).ch = s.ch ∧ (s.moveByte dir off a).patternStep = s.patternStep := by
  rw [(s.moveByte_quiet dir off a).rest]
  exact ⟨rfl, rfl⟩

/-- The data movement of a byte touches neither the rows nor the pattern position. -/
theorem State.moveDma_frame (s : State) (c : Chan) (dir : Bool) :
    (s.moveDma c dir).ch = s.ch ∧ (s.moveDma c dir).patternStep = s.patternStep := by
  cases dir with
  | true => exact s.moveByte_frame true s.seq.bOff (s.row c).dmaAddr
  | false =>
    change (s.forwardByte c).ch = s.ch ∧ (s.forwardByte c).patternStep = s.patternStep
    unfold State.forwardByte
    split
    · unfold State.sdd1Byte
      cases s.env.sdd1Buf[s.seq.sdd1Index]? <;> exact ⟨rfl, rfl⟩
    · exact s.moveByte_frame _ _ _

/-- The accesses of a byte are the same at either position of the pattern, the offset given (R170 lines 14 to 19). -/
theorem moveDmaByte_withSeq (c : Chan) (s : State) (q : Seq) (k : Nat)
    (hk : (s.row c).dir = false → s.seq.sdd1On = true → s.seq.sdd1Index = k) :
    ∃ q', moveDmaByte c s.seq.sdd1On k (s.withSeq q) = State.withSeq q'
      (((s.selectOffset c (s.row c).mode).moveDma c (s.row c).dir).withPatternStep s.patternStep) := by
  unfold moveDmaByte State.moveDma
  by_cases hd : (s.row c).dir = true
  · simp only [State.withSeq_row, hd, if_true]
    exact ⟨q, rfl⟩
  · have hlatched : (s.selectOffset c (s.row c).mode).seq.sdd1On = s.seq.sdd1On := rfl
    simp only [State.withSeq_row, hd, if_false, Bool.false_eq_true, State.forwardByte, hlatched]
    by_cases ho : s.seq.sdd1On = true
    · rw [← hk (Bool.not_eq_true _ ▸ hd) ho]
      simp only [ho, if_true, sdd1Source, State.sdd1Byte, State.withSeq_env, State.selectOffset]
      cases s.env.sdd1Buf[s.seq.sdd1Index]? <;> exact ⟨q, rfl⟩
    · simp only [ho, if_false, Bool.false_eq_true]
      exact ⟨q, rfl⟩

theorem State.setRow_setRow (s : State) (c : Chan) (r r' : Channel) : (s.setRow c r).setRow c r' = s.setRow c r' := by
  unfold State.setRow
  simp only [Vector.set_set]

/-- The address has entered its 64 KB block anew, by the addend of its step: the spec's test (R197). -/
def entersAnew (d a : Half) : Bool := (d == 1 && a == 0) || (d == 0xFFFF && a == 0xFFFF)

/-- Where `A1T` has entered its block anew, a forward transfer resolves its base pointer again (R197). -/
def State.resolveBaseIf (b : Bool) (bank : Byte) (s : State) : State := if b then s.resolveBase bank else s

/-- The row after one byte whose addend is `d`: counted, `A1T` moved (R170 lines 20 and 21). -/
def Channel.afterByte (d : Half) (r : Channel) : Channel := { r.countDas with a1t := r.a1t + d }

/-- The count, the address step and the pattern of a byte, as the spec orders them (R170 lines 20 to 22, R197). -/
theorem stepDmaByte_eq (c : Chan) (d : Half) (s : State) :
    stepDmaByte c d s = ((s.updRow c (Channel.afterByte d)).resolveBaseIf
      (entersAnew d ((s.row c).a1t + d) && !(s.row c).dir) (s.row c).a1b).advancePattern (s.row c).mode := by
  have hset : (s.updRow c Channel.countDas).setRow c ((s.row c).afterByte d) = s.updRow c (Channel.afterByte d) :=
    s.setRow_setRow c _ _
  have hspec : ∀ r, (s.updRow c Channel.countDas).row c = r → stepDmaByte c d s =
      (((s.updRow c Channel.countDas).setRow c { r with a1t := r.a1t + d }).resolveBaseIf
        (entersAnew d (r.a1t + d) && !r.dir) r.a1b).advancePattern r.mode := by
    rintro _ rfl
    rfl
  rw [hspec _ (s.updRow_row_self c Channel.countDas), ← hset]
  rfl

/-- The three tests of the step rows are the spec's one, the row's addend given (R111, R189 to R191). -/
theorem State.stepDma_eq_entersAnew (s : State) (c : Chan) (r : Channel) :
    s.stepDma c r.dec r.fix = s.stepAddress c r.addrStep (entersAnew r.addrStep) := by
  have hinc : entersAnew 1 = fun a => a == 0 := funext fun a => by simp [entersAnew]
  have hdec : entersAnew 0xFFFF = fun a => a == 0xFFFF := funext fun a => by simp [entersAnew]
  have hfix : entersAnew 0 = fun _ => false := funext fun a => by simp [entersAnew]
  unfold State.stepDma Channel.addrStep
  cases r.fix with
  | true => rw [if_pos rfl, if_pos rfl, hfix]
  | false =>
    cases r.dec with
    | true => rw [if_neg Bool.false_ne_true, if_neg Bool.false_ne_true, if_pos rfl, if_pos rfl, hdec]
    | false => simp only [Bool.false_eq_true, if_false, hinc]

/-- The address step of the model and its count (R170 lines 20 and 21, R197). -/
theorem State.stepAddress_countByte (s : State) (c : Chan) (d : Half) :
    ∃ q, (s.stepAddress c d (entersAnew d)).countByte c = ((s.updRow c (Channel.afterByte d)).resolveBaseIf
      (entersAnew d ((s.row c).a1t + d) && !(s.row c).dir) (s.row c).a1b).withSeq q := by
  have hset : (s.setRow c { s.row c with a1t := (s.row c).a1t + d }).updRow c Channel.countDas =
      s.updRow c (Channel.afterByte d) := by
    rw [State.updRow, State.setRow_row_self, State.setRow_setRow]
    rfl
  have hstep : s.stepAddress c d (entersAnew d) =
      (s.setRow c { s.row c with a1t := (s.row c).a1t + d }).resolveBaseIf
        (entersAnew d ((s.row c).a1t + d) && !(s.row c).dir) (s.row c).a1b := rfl
  rw [hstep, ← hset]
  cases entersAnew d ((s.row c).a1t + d) && !(s.row c).dir <;> exact ⟨_, rfl⟩

/-- The address step and the count of a byte: the spec advances the pattern after them, the model before. -/
theorem stepDmaByte_withSeq (c : Chan) (s : State) (q : Seq) :
    ∃ q', stepDmaByte c (s.row c).addrStep (s.withSeq q) =
      (((s.advancePattern (s.row c).mode).stepDma c (s.row c).dec (s.row c).fix).countByte c).withSeq q' := by
  obtain ⟨q₁, hmodel⟩ := (s.advancePattern (s.row c).mode).stepAddress_countByte c (s.row c).addrStep
  have hrow : (s.advancePattern (s.row c).mode).row c = s.row c := rfl
  rw [State.stepDma_eq_entersAnew, hmodel, stepDmaByte_eq, hrow, State.withSeq_row]
  cases entersAnew (s.row c).addrStep ((s.row c).a1t + (s.row c).addrStep) && !(s.row c).dir <;> exact ⟨_, rfl⟩

/-- One byte of the loop, counted, is the model's byte body, counted. -/
theorem byteBody_withSeq (c : Chan) (s : State) (q : Seq) (k : Nat)
    (hk : (s.row c).dir = false → s.seq.sdd1On = true → s.seq.sdd1Index = k) :
    ∃ q', stepDmaByte c (s.row c).addrStep (moveDmaByte c s.seq.sdd1On k (s.withSeq q)) =
      ((s.byteBody c).countByte c).withSeq q' := by
  obtain ⟨q₁, hmove⟩ := moveDmaByte_withSeq c s q k hk
  obtain ⟨hch, hpattern⟩ := State.moveDma_frame (s.selectOffset c (s.row c).mode) c (s.row c).dir
  have hmodel := State.eq_advancePattern hpattern
  obtain ⟨u, hu⟩ : ∃ u, u =
      ((s.selectOffset c (s.row c).mode).moveDma c (s.row c).dir).withPatternStep s.patternStep := ⟨_, rfl⟩
  have hrow : u.row c = s.row c := by rw [hu]; exact State.row_congr hch c
  rw [← hu] at hmove hmodel
  rw [hmove, State.byteBody, hmodel, ← hrow]
  exact stepDmaByte_withSeq c u q₁

/-- A forward byte under the S-DD1 hook takes the next byte of the buffer (R196). -/
theorem State.forwardByte_sdd1Index {s : State} (ho : s.seq.sdd1On = true) (c : Chan) :
    (s.forwardByte c).seq.sdd1Index = s.seq.sdd1Index + 1 := by
  unfold State.forwardByte
  rw [if_pos ho]
  unfold State.sdd1Byte
  cases s.env.sdd1Buf[s.seq.sdd1Index]? <;> rfl

/-- The address step keeps the place in the buffer. -/
theorem State.byteBody_sdd1Index {c : Chan} {s : State} (hd : (s.row c).dir = false) (ho : s.seq.sdd1On = true) :
    (s.byteBody c).seq.sdd1Index = s.seq.sdd1Index + 1 := by
  have hmove : (s.selectOffset c (s.row c).mode).moveDma c (s.row c).dir =
      (s.selectOffset c (s.row c).mode).forwardByte c := by rw [hd]; rfl
  rw [State.byteBody, State.stepDma_eq_entersAnew, hmove]
  obtain ⟨new, p, -, hstep⟩ := ((s.selectOffset c (s.row c).mode).forwardByte c).stepAddress_spec c
    (s.row c).addrStep (entersAnew (s.row c).addrStep)
  rw [hstep]
  exact State.forwardByte_sdd1Index (s := s.selectOffset c (s.row c).mode) ho c

/-! ## The bytes of a valid transfer (R170 lines 12 to 23) -/

/-- A valid call is in flight with `n` bytes left and byte `k` next: `d` is the addend of its address step, `hook` says
whether its bytes come from the S-DD1 buffer. -/
structure State.ValidCall (c : Chan) (d : Half) (hook : Bool) (n k : Nat) (s : State) : Prop where
  busy : s.seq.busy = some c
  valid : s.seq.invalid = false
  remaining : s.seq.remaining = n
  hooked : s.seq.sdd1On = hook
  addrStep : (s.row c).addrStep = d
  index : (s.row c).dir = false → hook = true → s.seq.sdd1Index = k

theorem Channel.sameConfig.addrStep {r r' : Channel} (h : r.sameConfig r') : r'.addrStep = r.addrStep := by
  obtain ⟨-, -, -, hdec, hfix, -⟩ := h
  rw [Channel.addrStep, hdec, hfix, Channel.addrStep]

theorem State.ValidCall.next {c : Chan} {d : Half} {hook : Bool} {n k : Nat} {s : State}
    (h : s.ValidCall c d hook (n + 1) k) :
    (((s.byteBody c).countByte c).cycleSink c).2.ValidCall c d hook n (k + 1) := by
  have hbody := s.byteBody_byteStep c
  have hsink := (((s.byteBody c).countByte c).cycleSink_keeps c).1
  have hseq := hsink.seq
  have hconfig : (s.row c).sameConfig ((((s.byteBody c).countByte c).cycleSink c).2.row c) :=
    ((hbody.keeps.config c).trans ((State.countByte_keeps _ c).config c)).trans (hsink.rows c).config
  refine ⟨?_, ?_, ?_, ?_, hconfig.addrStep.trans h.addrStep, fun hd ho => ?_⟩
  · rw [hseq]; exact hbody.busy.trans h.busy
  · rw [hseq]; exact hbody.invalid.trans h.valid
  · rw [hseq]
    change (s.byteBody c).seq.remaining - 1 = n
    rw [hbody.remaining, h.remaining, Nat.add_sub_cancel]
  · rw [hseq]; exact hbody.sdd1On.trans h.hooked
  · have hdir : (s.row c).dir = false := hconfig.1.symm.trans hd
    rw [hseq]
    change (s.byteBody c).seq.sdd1Index = k + 1
    rw [State.byteBody_sdd1Index hdir (h.hooked.trans ho), h.index hdir ho]

theorem State.byteBody_mdmaen (s : State) (c : Chan) : (s.byteBody c).mdmaen = s.mdmaen := by
  rw [(s.byteBody_byteStep c).rest]

/-- The byte steps of a valid transfer compute its loop. -/
theorem finishes_validLoop (c : Chan) (d : Half) (hook : Bool) (n k : Nat) (s : State) (q : Seq)
    (h : s.ValidCall c d hook n k) : Finishes c (n + 1) s (validLoop c d hook n k (s.withSeq q)) := by
  induction n generalizing s q k with
  | zero => exact Finishes.done h.busy h.remaining q
  | succ n ih =>
    have hstep : step s = .next ((s.byteBody c).closeByte c) := by
      rw [step_busy h.busy, State.dmaStep_eq, if_neg (by rw [h.remaining]; omega), if_neg (by rw [h.valid]; decide)]
    obtain ⟨q', hbyte⟩ := byteBody_withSeq c s q k fun hd ho => h.index hd (h.hooked.symm.trans ho)
    rw [h.addrStep, h.hooked] at hbyte
    exact Finishes.byte hstep (s.byteBody_mdmaen c) hbyte (ih (k + 1) _ q' h.next)

/-! ## A whole call (R170) -/

/-- `SDD1_FLAG` cleared where the hook takes the transfer (R196). -/
def State.takeFlag (hook : Bool) (s : State) : State := if hook then { s with sdd1Flag := false } else s

/-- The entry of a valid `ExecuteDMA(c)` as the spec writes it (R170 lines 1 to 4 and 9 to 11, R196, R197). -/
def State.specArmed (c : Chan) (s : State) : State :=
  let u := (((s.enterDMA c).addCycles Config.dmaChOverhead).withPatternStep 0).takeFlag (s.sdd1Hook (s.row c))
  if (s.row c).dir then u else u.resolveBase (s.row c).a1b

theorem State.armDMA_withSeq (s : State) (hook : Bool) (q : Seq) :
    ((s.withSeq q).withPatternStep 0).takeFlag hook = (s.armDMA hook).withSeq q := by
  cases hook with
  | true =>
    unfold State.armDMA
    rw [Bool.not_true, Bool.and_false]
    rfl
  | false =>
    unfold State.armDMA
    rw [Bool.not_false, Bool.and_true]
    rfl

/-- The model's entry of a valid call is the spec's, whatever locals stand before it. -/
theorem State.specArmed_withSeq {s : State} {c : Chan} (hi : ¬(s.row c).isInvalid = true) (q : Seq) :
    ∃ q', (s.withSeq q).specArmed c = (s.beginDMA c).withSeq q' := by
  have hopen : ((s.withSeq q).enterDMA c).addCycles Config.dmaChOverhead = (s.openDMA c).withSeq q := rfl
  have hhook : (s.withSeq q).sdd1Hook (s.row c) = s.sdd1Hook (s.row c) := rfl
  unfold State.specArmed State.beginDMA
  simp only [State.withSeq_row, hopen, hhook, State.armDMA_withSeq, hi, if_false, Bool.false_eq_true]
  cases (s.row c).dir <;> exact ⟨_, rfl⟩

/-- What the loop of `ExecuteDMA(c)` called in `s` answers from the state `u` behind its entry (R170 lines 5 to 23). -/
def State.callLoop (c : Chan) (s u : State) : Bool × State :=
  if (s.row c).isInvalid then invalidLoop c (dmaCount (s.row c).das) u
  else validLoop c (s.row c).addrStep (s.sdd1Hook (s.row c)) (dmaCount (s.row c).das) 0 u

/-- `ExecuteDMA(c)` is the model's entry, the loop and the end of the call, whatever locals stand before it (R170). -/
theorem executeDMA_withSeq (c : Chan) (s : State) (q : Seq) :
    ∃ q', (executeDMA c (s.withSeq q)).2 = closeCall c (s.callLoop c ((s.beginDMA c).withSeq q')) := by
  have hspec : (executeDMA c (s.withSeq q)).2 = closeCall c (if (s.row c).isInvalid then
      invalidLoop c (dmaCount (s.row c).das) (((s.withSeq q).enterDMA c).addCycles Config.dmaChOverhead)
    else validLoop c (s.row c).addrStep (s.sdd1Hook (s.row c)) (dmaCount (s.row c).das) 0
      ((s.withSeq q).specArmed c)) := rfl
  rw [hspec]
  unfold State.callLoop
  by_cases hi : (s.row c).isInvalid = true
  · refine ⟨q, ?_⟩
    have hbegin : s.beginDMA c = s.openDMA c := if_pos hi
    rw [if_pos hi, if_pos hi, hbegin]
    rfl
  · obtain ⟨q', harmed⟩ := State.specArmed_withSeq hi q
    refine ⟨q', ?_⟩
    rw [if_neg hi, if_neg hi, harmed]

/-- The entry of a valid call has all its bytes left, the first one of the S-DD1 buffer next (R170 lines 2, 10, 11). -/
theorem State.beginDMA_validCall {s : State} {c : Chan} (hi : (s.row c).isInvalid = false) :
    (s.beginDMA c).ValidCall c (s.row c).addrStep (s.sdd1Hook (s.row c)) (dmaCount (s.row c).das) 0 := by
  have hhook : s.takesHook c = s.sdd1Hook (s.row c) := by rw [State.takesHook, hi]; rfl
  have hrow := State.row_congr (s.beginDMA_ch c) c
  obtain ⟨new, p, -, hbegin⟩ := s.beginDMA_spec c
  rw [hbegin] at hrow ⊢
  exact ⟨rfl, hi, rfl, hhook, congrArg Channel.addrStep hrow, fun _ _ => rfl⟩

/-- The steps behind the entry of `ExecuteDMA(c)` compute its loop. -/
theorem finishes_callLoop (c : Chan) (s : State) (q : Seq) :
    Finishes c (dmaCount (s.row c).das + 1) (s.beginDMA c) (s.callLoop c ((s.beginDMA c).withSeq q)) := by
  unfold State.callLoop
  cases hi : (s.row c).isInvalid with
  | true =>
    rw [if_pos rfl]
    obtain ⟨new, p, -, hbegin⟩ := s.beginDMA_spec c
    exact finishes_invalidLoop c _ _ q (by rw [hbegin]) (by rw [hbegin]; exact hi) (by rw [hbegin])
  | false =>
    rw [if_neg Bool.false_ne_true]
    exact finishes_validLoop c _ _ _ 0 _ q (State.beginDMA_validCall hi)

/-- The steps behind the entry of `ExecuteDMA(c)` come, in at most 0x10001 of them, to the state the spec's call leaves,
the arbiter's request served; the call keeps the other requests and leaves the port open (R170, R260). -/
theorem executeDMA_steps (c : Chan) (s : State) (q : Seq) :
    ∃ k t, k ≤ 0x10001 ∧ core.run k (s.beginDMA c) = .next t ∧ t.seq.busy = none ∧
      t.dropLocals = ((executeDMA c (s.withSeq q)).2.clearRequest c).dropLocals ∧
      (executeDMA c (s.withSeq q)).2.mdmaen = s.mdmaen ∧ (executeDMA c (s.withSeq q)).2.inEither = false := by
  obtain ⟨q', hspec⟩ := executeDMA_withSeq c s q
  obtain ⟨k, t, hk, hrun, hidle, hreq, ht⟩ := finishes_callLoop c s q'
  obtain ⟨hport, hkept⟩ := closeCall_frame c (s.callLoop c ((s.beginDMA c).withSeq q'))
  obtain ⟨new, p, -, hbegin⟩ := s.beginDMA_spec c
  have hmdmaen : (s.beginDMA c).mdmaen = s.mdmaen := by rw [hbegin]
  rw [hspec]
  exact ⟨k, t, hk.trans (Nat.succ_le_succ (dmaCount_le _)), hrun, hidle, ht, hkept.trans (hreq.trans hmdmaen), hport⟩

/-! ## The arbiter (R260, R261) -/

theorem exists_step_of_core_run {k : Nat} {s u : State} (h : core.run (k + 1) s = .next u) :
    ∃ t, step s = .next t ∧ core.run k t = .next u := by
  cases ht : step s with
  | next t => exact ⟨t, rfl, (core_run_of_step ht k).symm.trans h⟩
  | fault r => cases r
  | refused r =>
    have hs : core.step s = .refused r := ht
    simp only [Host.Core.run, hs, reduceCtorEq] at h

theorem State.leadsTo.refl (s : State) : s.leadsTo s := ⟨0, rfl⟩

theorem State.leadsTo.head {s t u : State} (hs : step s = .next t) (h : t.leadsTo u) : s.leadsTo u := by
  obtain ⟨k, hk⟩ := h
  exact ⟨k + 1, (core_run_of_step hs k).trans hk⟩

theorem State.leadsTo.trans {s t u : State} (h : s.leadsTo t) (h' : t.leadsTo u) : s.leadsTo u := by
  obtain ⟨k, hk⟩ := h
  induction k generalizing s with
  | zero => cases hk; exact h'
  | succ k ih =>
    obtain ⟨w, hw, hrun⟩ := exists_step_of_core_run hk
    exact .head hw (ih hrun)

/-- States that agree but for the locals. -/
theorem State.eq_withSeq_of_dropLocals {s t : State} (h : s.dropLocals = t.dropLocals) : t = s.withSeq t.seq := by
  have hlocals := congrArg (State.withSeq t.seq) h
  exact hlocals.symm

/-- The arbiter's turn of channel `c`: served where it is requested, whatever the result (R260). -/
def serveRequest (s : State) (c : Chan) : State :=
  if hasBit s.mdmaen c then (executeDMA c s).2.clearRequest c else s

/-- The state in which `WR.MDMAEN(v)` leaves the requests to the arbiter (R142, R260). -/
def State.requestDMA (v : Mask) (s : State) : State :=
  if v = 0 then { s with mdmaen := v } else State.addCycles Config.dmaSyncCost { s with mdmaen := v }

theorem runArbiter_eq (v : Mask) (s : State) : runArbiter v s = allChans.foldl serveRequest (s.requestDMA v) := rfl

theorem exec_wrMdmaen {s : State} (hs : s.inEither = false) (v : Mask) :
    exec (.wrMdmaen v) s = .next (s.requestDMA v) := State.viaPort_next hs (State.requestDMA v)

/-- What `WR.MDMAEN` changes: the mask, and the sync cost accounted where it is not 0 (R142). -/
theorem State.requestDMA_spec (s : State) (v : Mask) :
    ∃ new, accesses new = [] ∧ (v = 0 → new = []) ∧ s.requestDMA v = { s with
      mdmaen := v
      env := { s.env with
        cycles := s.env.cycles + (if v = 0 then 0 else Config.dmaSyncCost), trace := new ++ s.env.trace } } := by
  unfold State.requestDMA
  by_cases hv : v = 0
  · rw [if_pos hv, if_pos hv]
    exact ⟨[], rfl, fun _ => rfl, rfl⟩
  · rw [if_neg hv, if_neg hv]
    exact ⟨[⟨.addCycles Config.dmaSyncCost, s.context⟩], rfl, fun h => absurd h hv, rfl⟩

/-- Between transfers a step starts the lowest requested channel, `pre` being the channels below it (R260, R261). -/
theorem step_starts_lowest {s : State} {c : Chan} {pre l : List Chan} (hpre : pre ++ c :: l = allChans)
    (hb : s.seq.busy = none) (he : s.inEither = false) (hlow : ∀ d ∈ pre, hasBit s.mdmaen d = false)
    (hc : hasBit s.mdmaen c = true) : step s = .next (s.beginDMA c) := by
  have hnone : pre.find? (hasBit s.mdmaen) = none :=
    List.find?_eq_none.2 fun d hd => by rw [hlow d hd]; decide
  have hlowest : lowestChan s.mdmaen = some c := by
    rw [lowestChan, ← hpre, List.find?_append, hnone, Option.none_or, List.find?_cons_of_pos hc]
  rw [step_idle hb, State.idleStep, hlowest]
  exact (exec_dmaExecOf c s).trans (State.startDMA_next he c)

/-- From a state between transfers the steps serve the requested channels of `l`, those of `pre` being served, as the
arbiter of the spec does, and come to an open port. -/
theorem arbiter_steps (l : List Chan) {pre : List Chan} (hpre : pre ++ l = allChans) {s : State} (q : Seq)
    (hb : s.seq.busy = none) (he : s.inEither = false) (hserved : ∀ d ∈ pre, hasBit s.mdmaen d = false) :
    ∃ t, s.leadsTo t ∧ t.portReady ∧ t.dropLocals = (l.foldl serveRequest (s.withSeq q)).dropLocals := by
  induction l generalizing pre s q with
  | nil =>
    rw [List.append_nil] at hpre
    have hzero : s.mdmaen = 0 := mask_ext fun d => by
      rw [hasBit_zero, hserved d (hpre ▸ mem_allChans d)]
    exact ⟨s, .refl s, ⟨hb, hzero⟩, rfl⟩
  | cons c l ih =>
    have hnext : (pre ++ [c]) ++ l = allChans := by rw [List.append_assoc]; exact hpre
    rw [List.foldl_cons]
    by_cases hc : hasBit s.mdmaen c = true
    · obtain ⟨k, t, -, hrun, hidle, ht, hkept, hport⟩ := executeDMA_steps c s q
      have hturn : serveRequest (s.withSeq q) c = (executeDMA c (s.withSeq q)).2.clearRequest c := if_pos hc
      have hmask : t.mdmaen = withoutBit s.mdmaen c :=
        (congrArg State.mdmaen ht).trans (congrArg (withoutBit · c) hkept)
      obtain ⟨u, hu, hready, hdrop⟩ := ih hnext ((executeDMA c (s.withSeq q)).2.clearRequest c).seq hidle
        ((congrArg State.inEither ht).trans hport) fun d hd => by
          rw [hmask, hasBit_withoutBit]
          obtain hd | hd := List.mem_append.1 hd
          · rw [hserved d hd]; rfl
          · rw [List.mem_singleton.1 hd]; simp
      refine ⟨u, .head (step_starts_lowest hpre hb he hserved hc) (.trans ⟨k, hrun⟩ hu), hready, ?_⟩
      rw [hturn, State.eq_withSeq_of_dropLocals ht]
      exact hdrop
    · have hturn : serveRequest (s.withSeq q) c = s.withSeq q := if_neg hc
      rw [hturn]
      refine ih hnext q hb he fun d hd => ?_
      obtain hd | hd := List.mem_append.1 hd
      · exact hserved d hd
      · rw [List.mem_singleton.1 hd]
        exact Bool.eq_false_iff.2 hc

/-- Settles O33: the write leaves its requests to the arbiter, whose turns the steps take channel by channel. -/
theorem arbiterStepsComputeTheRequestedTransfers : Obligations.ArbiterStepsComputeTheRequestedTransfers := by
  intro v s he hb
  obtain ⟨new, -, -, hreq⟩ := s.requestDMA_spec v
  obtain ⟨t, ht, hready, hdrop⟩ := arbiter_steps allChans (pre := []) rfl (s := s.requestDMA v) (s.requestDMA v).seq
    (by rw [hreq]; exact hb) (by rw [hreq]; exact he) (fun d hd => absurd hd List.not_mem_nil)
  refine ⟨s.requestDMA v, t, exec_wrMdmaen he v, ht, hready, ?_⟩
  rw [runArbiter_eq]
  exact hdrop

/-! ## Writes of channel registers (R130 to R141, R160) -/

/-- A row changed is the only thing changed. -/
theorem State.updRow_rowBecomes (s : State) (c : Chan) (f : Channel → Channel) :
    s.rowBecomes c (f (s.row c)) (s.updRow c f) :=
  ⟨s.updRow_row_self c f, fun _ hd => s.updRow_row_ne f hd, rfl⟩

theorem State.writeRow_next {s : State} (hs : s.inEither = false) (c : Chan) (f : Channel → Channel) :
    s.writeRow c f = .next (s.updRow c fun r => { f r with ptr := none }) := State.viaPort_next hs _

/-- A register write to a row leaves the row written, its cached pointer dropped (R160), and everything else. -/
theorem writeRow_rowBecomes {i : Instr} {c : Chan} {f : Channel → Channel} (hi : ∀ s, exec i s = s.writeRow c f)
    {s : State} (hs : s.inEither = false) :
    ∃ t, exec i s = .next t ∧ s.rowBecomes c { f (s.row c) with ptr := none } t :=
  ⟨_, (hi s).trans (State.writeRow_next hs c f), s.updRow_rowBecomes c fun r => { f r with ptr := none }⟩

/-- Settles O8: a register 0x0 to 0xA is written through `State.writeRow`. -/
theorem channelWriteDropsTheCachedPointer : Obligations.ChannelWriteDropsTheCachedPointer := by
  intro c r v s hr hs
  obtain ⟨f, -, hw, -⟩ := channelWrite_channelRead c r v hr
  obtain ⟨t, ht, hrow, -⟩ := writeRow_rowBecomes hw hs
  exact ⟨channelWrite c r v, t, decodeRegW_regAddr c r v, ht, by rw [hrow]⟩

/-- Settles O3: the row is the one with the control byte's fields. -/
theorem writeDmapSetsTheControlFields : Obligations.WriteDmapSetsTheControlFields := fun c v _ hs =>
  ⟨decodeRegW_regAddr c 0 v, writeRow_rowBecomes (f := Channel.withControlByte v) (fun _ => rfl) hs⟩

/-- Settles O4: three writes of a row, one field each. -/
theorem writeByteRegisters : Obligations.WriteByteRegisters := fun c v _ hs =>
  ⟨decodeRegW_regAddr c 1 v, decodeRegW_regAddr c 4 v, decodeRegW_regAddr c 7 v,
    writeRow_rowBecomes (f := fun r => { r with bbad := v }) (fun _ => rfl) hs,
    writeRow_rowBecomes (f := fun r => { r with a1b := v }) (fun _ => rfl) hs,
    writeRow_rowBecomes (f := fun r => { r with dasb := v }) (fun _ => rfl) hs⟩

/-- Settles O5: six writes of a row, one half of a field each. -/
theorem writeHalfRegisters : Obligations.WriteHalfRegisters := fun c v _ hs =>
  ⟨decodeRegW_regAddr c 2 v, decodeRegW_regAddr c 3 v, decodeRegW_regAddr c 5 v, decodeRegW_regAddr c 6 v,
    decodeRegW_regAddr c 8 v, decodeRegW_regAddr c 9 v,
    writeRow_rowBecomes (f := fun r => { r with a1t := setLowByte r.a1t v }) (fun _ => rfl) hs,
    writeRow_rowBecomes (f := fun r => { r with a1t := setHighByte r.a1t v }) (fun _ => rfl) hs,
    writeRow_rowBecomes (f := fun r => { r with das := setLowByte r.das v }) (fun _ => rfl) hs,
    writeRow_rowBecomes (f := fun r => { r with das := setHighByte r.das v }) (fun _ => rfl) hs,
    writeRow_rowBecomes (f := fun r => { r with a2a := setLowByte r.a2a v }) (fun _ => rfl) hs,
    writeRow_rowBecomes (f := fun r => { r with a2a := setHighByte r.a2a v }) (fun _ => rfl) hs⟩

/-- Settles O6: the count of the low seven bits is `lineCountOf_eq`. -/
theorem writeNtrlSetsRepeatAndLineCount : Obligations.WriteNtrlSetsRepeatAndLineCount := by
  intro c v s hs
  have hcount : (if v.toNat % 128 = 0 then 128 else BitVec.ofNat 8 (v.toNat % 128)) =
      lineCountOf (v.extractLsb' 0 7) := by
    rw [lineCountOf_eq, apply_ite (BitVec.ofNat 8)]
    rfl
  refine ⟨decodeRegW_regAddr c 10 v, ?_⟩
  rw [hcount]
  exact writeRow_rowBecomes (f := Channel.withNtrlByte v) (fun _ => rfl) hs

theorem decodeRegW_unimplemented (c : Chan) (r : BitVec 2) (v : Byte) :
    decodeRegW (regAddr c (0xC + r.toNat)) v = .ok (.wrUnimplCF c r v) := by
  have hr : ∀ r : BitVec 2, (3#2 ++ r).toNat = 0xC + r.toNat := by decide
  rw [← hr r, decodeRegW_regAddr, channelWrite_unimplemented]

/-- Settles O7: behind the open port both rows are the identity. -/
theorem writeUnimplementedChangesNothing : Obligations.WriteUnimplementedChangesNothing := fun c r v _ hs =>
  ⟨decodeRegW_regAddr c 11 v, decodeRegW_unimplemented c r v, State.viaPort_next hs id, State.viaPort_next hs id⟩

/-! ## Reads of channel registers (R144 to R154) -/

/-- A register read of a row: its address, and the byte driven, which is all it adds. -/
theorem readRow_reads {c : Chan} {r : BitVec 4} {i : Instr} (g : Channel → Byte) (hi : channelRead c r = i)
    (hg : ∀ s, exec i s = s.readRow c g) {s : State} (hs : s.inEither = false) :
    decodeRegR (regAddr c r.toNat) = .ok i ∧ exec i s =
      .next { s with env := { s.env with trace := ⟨.readBack (g (s.row c)), s.context⟩ :: s.env.trace } } :=
  ⟨hi ▸ decodeRegR_regAddr c r, (hg s).trans (State.readRow_next hs c g)⟩

/-- Settles O10: eleven reads of a row. -/
theorem channelRegisterReads : Obligations.ChannelRegisterReads := by
  intro c s hs p hp
  simp only [List.mem_cons, List.not_mem_nil, or_false] at hp
  obtain rfl | rfl | rfl | rfl | rfl | rfl | rfl | rfl | rfl | rfl | rfl := hp
  · exact readRow_reads (r := 0) Channel.controlByte rfl (fun _ => rfl) hs
  · exact readRow_reads (r := 1) Channel.bbad rfl (fun _ => rfl) hs
  · exact readRow_reads (r := 2) (fun r => lowByte r.a1t) rfl (fun _ => rfl) hs
  · exact readRow_reads (r := 3) (fun r => highByte r.a1t) rfl (fun _ => rfl) hs
  · exact readRow_reads (r := 4) Channel.a1b rfl (fun _ => rfl) hs
  · exact readRow_reads (r := 5) (fun r => lowByte r.das) rfl (fun _ => rfl) hs
  · exact readRow_reads (r := 6) (fun r => highByte r.das) rfl (fun _ => rfl) hs
  · exact readRow_reads (r := 7) Channel.dasb rfl (fun _ => rfl) hs
  · exact readRow_reads (r := 8) (fun r => lowByte r.a2a) rfl (fun _ => rfl) hs
  · exact readRow_reads (r := 9) (fun r => highByte r.a2a) rfl (fun _ => rfl) hs
  · exact readRow_reads (r := 10) Channel.ntrlByte rfl (fun _ => rfl) hs

/-! ## The enable registers (R142, R143, R156, R157) -/

/-- Settles O11: both reads drive what is stored, and an open port has no request stored. -/
theorem enableRegisterReads : Obligations.EnableRegisterReads := by
  refine ⟨rfl, rfl, fun s hs => ?_⟩
  have hrd : exec .rdMdmaen s = .next (s.readBack s.mdmaen) :=
    State.viaPort_next hs fun s => s.readBack s.mdmaen
  refine ⟨State.viaPort_next hs fun s => s.readBack s.hdmaen, hrd, fun ⟨_, hnone⟩ => ?_⟩
  exact hrd.trans (congrArg (fun v => Host.Outcome.next (s.readBack v)) hnone)

/-- Settles O13: the write is `State.requestDMA`. -/
theorem writeMdmaenRequestsTheChannels : Obligations.WriteMdmaenRequestsTheChannels := by
  intro v s hs
  obtain ⟨new, hnew, hzero, hreq⟩ := s.requestDMA_spec v
  refine ⟨rfl, s.requestDMA v, exec_wrMdmaen hs v, ?_⟩
  rw [hreq]
  refine ⟨rfl, rfl, fun hv => ?_, ⟨new, rfl, hnew⟩, rfl⟩
  rw [hzero hv, if_pos hv]
  rfl

/-- Settles O14: the write behind the open port. -/
theorem writeHdmaenSetsTheActiveMask : Obligations.WriteHdmaenSetsTheActiveMask := fun v _ hs =>
  ⟨rfl, State.viaPort_next hs fun s => { s with hdmaen := v, hdmaActive := v &&& ~~~s.hdmaEnded }⟩

/-! ## The moves the host never makes (R158, R293) -/

theorem IsPortAccess.refused {i : Instr} (h : IsPortAccess i) {s : State} (hs : s.inEither = true) :
    exec i s = .refused .portWhileBusy := by
  obtain ⟨f, hf, -⟩ := h
  exact (hf s).trans (State.viaPort_refused hs f)

theorem State.outsideHDMA_refused {s : State} (hs : s.inHDMA = true) (f : State → State) :
    s.outsideHDMA f = .refused .hdmaWhileInHDMA := if_pos hs

/-- Settles O17: whatever the port decodes is a register access, and each of the other moves has its guard. -/
theorem excludedHostMovesAreRefused : Obligations.ExcludedHostMovesAreRefused := by
  refine ⟨fun s addr data i hs hi => ?_, fun s c hs => ?_, fun s hs => ?_, fun s hs => ?_⟩
  · have haccess : IsPortAccess i := hi.elim decodeRegW_isPortAccess decodeRegR_isPortAccess
    exact haccess.refused hs
  · exact (exec_dmaExecOf c s).trans (State.startDMA_refused hs c)
  · exact ⟨State.outsideHDMA_refused hs State.initializeHDMALines, State.outsideHDMA_refused hs State.hdmaLine⟩
  · exact if_pos hs

end Sys2Proof.Machine
end

section
/-! PROOFS. Family 41_dma_transfer: the bytes of a transfer (R176, R177, R187, R188), the S-DD1 hook (R196), an invalid
transfer (R174), the end of a call and its NMI rule (R193 to R195), the collision with HDMA (R192, R193, R202, R237), and
the steps of `ExecuteDMA` as the spec's one call (R170, R201). -/

namespace Sys2Proof.Machine

/-! ## The whole call (R170, R201) -/

/-- Settles O32: `executeDMA_steps`, with the locals the call finds. -/
theorem dmaStepsComputeExecuteDMA : Obligations.DmaStepsComputeExecuteDMA := by
  intro c s hs
  obtain ⟨k, t, hk, hrun, hidle, ht, hreq, -⟩ := executeDMA_steps c s s.seq
  rw [State.withSeq_self] at ht hreq
  refine ⟨s.beginDMA c, t, k, (exec_dmaExecOf c s).trans (State.startDMA_next hs c), hk, hrun, hidle, ?_⟩
  rw [ht, State.clearRequest, hreq]

/-! ## One step of a call with bytes left -/

theorem step_of_valid {c : Chan} {s : State} (hb : s.seq.busy = some c) (hn : s.seq.remaining ≠ 0)
    (hv : s.seq.invalid = false) : step s = .next ((s.byteBody c).closeByte c) := by
  rw [step_busy hb, State.dmaStep_eq, if_neg hn, if_neg (by rw [hv]; decide)]

theorem step_of_invalid {c : Chan} {s : State} (hb : s.seq.busy = some c) (hn : s.seq.remaining ≠ 0)
    (hv : s.seq.invalid = true) : step s = .next (s.closeByte c) := by
  rw [step_busy hb, State.dmaStep_eq, if_neg hn, if_pos hv]

/-- Settles O27: the three rows of the control byte are `State.byteBody`. -/
theorem stepRunsOneDmaByte : Obligations.StepRunsOneDmaByte := fun c s hb hn hv =>
  ⟨_, _, s.byteBody c, exec_decodeXfer c (s.row c).mode s, exec_decodeDir c (s.row c).dir _,
    exec_decodeStep c (s.row c).dec (s.row c).fix _, step_of_valid hb hn hv⟩

/-- Settles O28: the byte is its count and a sink that delivers nothing. -/
theorem invalidByteMovesNothing : Obligations.InvalidByteMovesNothing := by
  intro c s rest hb hn hv hr hs
  refine ⟨(s.countByte c).passSink rest, ?_, ?_, fun d hd => ?_, rfl⟩
  · rw [step_of_invalid hb hn hv, State.closeByte_of_nil hr hs]
  · exact (s.countByte_row c c).trans (if_pos rfl)
  · exact (s.countByte_row c d).trans (if_neg hd)

/-! ## The NMI rule (R193 to R195) -/

/-- What the end of a call that completes adds to the trace: the pulse where an NMI is pending, then the result. -/
theorem State.completeDMA_trace (s : State) (c : Chan) :
    ∃ new, (s.completeDMA c).env.trace = new ++ s.env.trace ∧ new.map (fun x => x.what) =
      .dmaResult c true :: if s.env.nmiPending then [.nmiReschedule Config.nmiDmaDelay] else [] := by
  have hpending : (s.endDMA c).env.nmiPending = s.env.nmiPending := rfl
  unfold State.completeDMA State.rescheduleNmi
  rw [hpending]
  cases s.env.nmiPending with
  | true => exact ⟨[⟨.dmaResult c true, (s.endDMA c).context⟩,
      ⟨.nmiReschedule Config.nmiDmaDelay, (s.endDMA c).context⟩], rfl, rfl⟩
  | false => exact ⟨[⟨.dmaResult c true, (s.endDMA c).context⟩], rfl, rfl⟩

/-- No engine, and so no byte and no sink, issues the pulse. -/
theorem SinkStep.noNmi {e e' : Env} (h : SinkStep e e') :
    ∃ new, e'.trace = new ++ e.trace ∧ ∀ x ∈ new, x.what.isNmi = false := by
  obtain ⟨new, htrace, -, hengine⟩ := h.grows
  refine ⟨new, htrace, fun x hx => ?_⟩
  have hx' := hengine x hx
  rw [Observed.fromEngine, Bool.and_eq_true, Bool.not_eq_true'] at hx'
  exact hx'.2

/-- The count and the sink of a byte issue no pulse, the abort behind them neither (R193). -/
theorem State.closeByte_noNmi {s u : State} (h : EnvStep s.env u.env) (c : Chan) :
    ∃ new, (u.closeByte c).env.trace = new ++ s.env.trace ∧ ∀ x ∈ new, x.what.isNmi = false := by
  have hsink : SinkStep s.env ((u.countByte c).cycleSink c).2.env :=
    h.sink.trans ((u.countByte c).cycleSink_keeps c).1.env
  obtain ⟨new, htrace, hnmi⟩ := hsink.noNmi
  unfold State.closeByte
  simp only
  split
  · exact ⟨new, htrace, hnmi⟩
  · exact ⟨⟨.dmaResult c false, (((u.countByte c).cycleSink c).2.endDMA c).context⟩ :: new,
      congrArg (List.cons _) htrace, List.forall_mem_cons.2 ⟨rfl, hnmi⟩⟩

/-- Settles O29: at `N = 0` the step is the completion, before that a byte, invalid or valid. -/
theorem nmiIsRescheduledOnCompletionOnly : Obligations.NmiIsRescheduledOnCompletionOnly := by
  refine fun c s hb => ⟨fun hr => ?_, fun hn => ?_⟩
  · obtain ⟨new, htrace, hnew⟩ := s.completeDMA_trace c
    obtain ⟨last, -, -, hcomplete⟩ := s.completeDMA_spec c
    refine ⟨s.completeDMA c, new, step_of_remaining_zero hb hr, htrace, hnew, ?_⟩
    rw [hcomplete]
    exact ⟨rfl, rfl, rfl⟩
  · cases hv : s.seq.invalid with
    | true =>
      obtain ⟨new, hnew⟩ := State.closeByte_noNmi (EnvStep.refl s.env) c
      exact ⟨_, new, step_of_invalid hb hn hv, hnew⟩
    | false =>
      obtain ⟨new, hnew⟩ := State.closeByte_noNmi (s.byteBody_byteStep c).env c
      exact ⟨_, new, step_of_valid hb hn hv, hnew⟩

/-! ## The direction rows alone (R176, R177, R187, R188) -/

/-- A byte moved is two observations; besides, only memory and the counters of free values can change. -/
theorem State.moveByte_eq (s : State) (dir : Bool) (off : Byte) (a : AAddr) :
    s.moveByte dir off a = { s with env := { s.env with
      trace := (moveAccesses dir off a (s.movedByte dir off a)).reverse.map (fun w => ⟨w, s.context⟩) ++ s.env.trace
      aMem := (s.moveByte dir off a).env.aMem
      answers := (s.moveByte dir off a).env.answers, drawn := (s.moveByte dir off a).env.drawn } } := by
  rw [← s.moveByte_env dir off a]
  exact (s.moveByte_quiet dir off a).rest

/-- Settles O21: without the hook the row is a forward move, which keeps memory. -/
theorem forwardByteReadsThenWrites : Obligations.ForwardByteReadsThenWrites := by
  intro c s ho
  refine ⟨s.movedByte false s.seq.bOff (s.row c).dmaAddr, s.moveByte false s.seq.bOff (s.row c).dmaAddr, ?_,
    fun w hw => State.movedByte_known hw, ?_⟩
  · rw [← State.moveDma_eq_moveByte ho]
    exact exec_decodeDir c false s
  · have heq := s.moveByte_eq false s.seq.bOff (s.row c).dmaAddr
    rw [s.moveByte_forward_mem] at heq
    exact heq

/-- Settles O22: the row is a reverse move. -/
theorem reverseByteReadsThenWrites : Obligations.ReverseByteReadsThenWrites := fun c s =>
  ⟨s.movedByte true s.seq.bOff (s.row c).dmaAddr, s.moveByte true s.seq.bOff (s.row c).dmaAddr,
    exec_decodeDir c true s, s.moveByte_reverse_self _ _,
    fun x hx => s.moveByte_peek true _ _ x (.inr hx), s.moveByte_eq true _ _⟩

/-! ## The S-DD1 hook (R196) -/

/-- Byte `k` of the buffer, `k` counted on; past the buffer's end a free byte is drawn (U2). -/
theorem State.sdd1Byte_spec (s : State) :
    (∀ w, s.env.sdd1Buf[s.seq.sdd1Index]? = some w → s.sdd1Byte.1 = w) ∧ s.sdd1Byte.2 = { s with
      seq := { s.seq with sdd1Index := s.seq.sdd1Index + 1 }
      env := { s.env with answers := s.sdd1Byte.2.env.answers, drawn := s.sdd1Byte.2.env.drawn } } := by
  unfold State.sdd1Byte
  cases s.env.sdd1Buf[s.seq.sdd1Index]? with
  | some v => exact ⟨fun w hw => Option.some.inj hw, rfl⟩
  | none =>
    refine ⟨fun w hw => (Option.some_ne_none w hw.symm).elim, ?_⟩
    simp only
    rw [← s.env.draw_eq]

/-- Settles O23: under the hook the row is one byte of the buffer and its `BWrite`. -/
theorem sdd1BytesComeFromTheBuffer : Obligations.Sdd1BytesComeFromTheBuffer := by
  intro c s ho
  obtain ⟨hbyte, hnext⟩ := s.sdd1Byte_spec
  refine ⟨s.sdd1Byte.1, s.sdd1Byte.2.bWrite s.sdd1Byte.2.seq.bOff s.sdd1Byte.1, ?_, hbyte, ?_⟩
  · have hrow : s.forwardByte c = s.sdd1Byte.2.bWrite s.sdd1Byte.2.seq.bOff s.sdd1Byte.1 := if_pos ho
    rw [← hrow]
    exact exec_decodeDir c false s
  · rw [hnext]
    rfl

theorem State.takesHook_iff (s : State) (c : Chan) :
    s.takesHook c = true ↔ (s.row c).isInvalid = false ∧ s.env.sdd1Present = true ∧ (s.row c).dir = false ∧
      (s.row c).fix = true ∧ s.sdd1Flag = true := by
  simp only [State.takesHook, State.sdd1Hook, Bool.and_eq_true, Bool.not_eq_true']
  tauto

/-- Settles O26: the hook of the entry is `State.takesHook`. -/
theorem sdd1HookAtEntry : Obligations.Sdd1HookAtEntry := by
  intro c s hs
  obtain ⟨new, p, -, hbegin⟩ := s.beginDMA_spec c
  refine ⟨s.beginDMA c, (exec_dmaExecOf c s).trans (State.startDMA_next hs c), ?_⟩
  rw [hbegin]
  exact ⟨s.takesHook_iff c, rfl, rfl⟩

/-! ## HDMA inside a DMA (R192, R237) -/

/-- A sink: the deliveries the script holds for it, one after another, and the collision test behind them. -/
theorem State.cycleSink_of_script {s : State} {due : List Due} {rest : List (List Due)}
    (hs : s.env.script = due :: rest) (c : Chan) {t : State}
    (ht : due.foldl (fun s d => s.deliver d) (s.passSink rest) = t) :
    s.cycleSink c = (!hasBit t.hdmaRanInDMA c, { t with hdmaRanInDMA := 0 }) := by
  have hdue : (s.addCycles Config.byteCost).nextDue = (due, s.passSink rest) := by
    unfold State.nextDue
    rw [State.addCycles_env, hs]
    rfl
  unfold State.cycleSink
  simp only [hdue, ht]

/-- What a scanline with an active channel records (R228, R237). -/
theorem State.hdmaLine_ran_of_active {s : State} (ha : s.hdmaActive ≠ 0) :
    s.hdmaLine.hdmaRanInDMA = if s.inDMA then s.hdmaActive else 0 := by
  rw [State.hdmaLine, if_neg ha]
  exact s.advanceHDMALines_ran s.hdmaActive

/-- A sink with a scanline event inside a DMA stops the DMA on an active channel, and goes on with any other. -/
theorem State.cycleSink_line {s : State} {rest : List (List Due)} (hd : s.inDMA = true)
    (hs : s.env.script = [⟨false, true, none⟩] :: rest) (ha : s.hdmaActive ≠ 0) (c : Chan) :
    (s.cycleSink c).1 = !hasBit s.hdmaActive c := by
  have hran : (s.passSink rest).hdmaLine.hdmaRanInDMA = s.hdmaActive :=
    (State.hdmaLine_ran_of_active (s := s.passSink rest) ha).trans (if_pos hd)
  rw [State.cycleSink_of_script hs c (t := (s.passSink rest).hdmaLine) rfl, hran]

/-- A sink with a frame start inside a DMA stops the DMA on a channel still active behind it. -/
theorem State.cycleSink_init {s : State} {rest : List (List Due)} (hd : s.inDMA = true)
    (hs : s.env.script = [⟨true, false, none⟩] :: rest) (c : Chan) :
    (s.cycleSink c).1 = !hasBit (s.cycleSink c).2.hdmaActive c := by
  have hran : (s.passSink rest).initializeHDMALines.hdmaRanInDMA = (s.passSink rest).initializeHDMALines.hdmaActive :=
    (s.passSink rest).initializeHDMALines_ran.trans (if_pos hd)
  rw [State.cycleSink_of_script hs c (t := (s.passSink rest).initializeHDMALines) rfl, hran]

/-- Settles O46: inside a DMA the sink's test reads what the event recorded, outside the record is 0. -/
theorem hdmaInsideADmaStopsItsOwnChannel : Obligations.HdmaInsideADmaStopsItsOwnChannel := by
  refine ⟨fun c s rest hd => ⟨fun hs ha => ⟨State.cycleSink_line hd hs ha c, (s.cycleSink_keeps c).2⟩,
    fun hs => ⟨State.cycleSink_init hd hs c, (s.cycleSink_keeps c).2⟩⟩, fun s hi hd => ⟨?_, fun ha => ?_⟩⟩
  · refine ⟨s.initializeHDMALines, State.outsideHDMA_next hi _, ?_⟩
    rw [s.initializeHDMALines_ran, hd]
    rfl
  · refine ⟨s.hdmaLine, State.outsideHDMA_next hi _, ?_⟩
    rw [State.hdmaLine_ran_of_active ha, hd]
    rfl

/-! ## The accesses of the DMA itself, HDMA calls in its sinks left out (R85, R285) -/

/-- Between `s` and `t` exactly `n` accesses were made with `InHDMA = 0`. -/
def OwnAccesses (n : Nat) (s t : State) : Prop :=
  ∃ new, t.env.trace = new ++ s.env.trace ∧ (new.filter fun x => x.what.isAccess && !x.ctx.inHDMA).length = n

theorem OwnAccesses.refl (s : State) : OwnAccesses 0 s s := ⟨[], rfl, rfl⟩

theorem OwnAccesses.trans {n m : Nat} {s t u : State} (h : OwnAccesses n s t) (h' : OwnAccesses m t u) :
    OwnAccesses (n + m) s u := by
  obtain ⟨new, htrace, hlen⟩ := h
  obtain ⟨new', htrace', hlen'⟩ := h'
  refine ⟨new' ++ new, by rw [htrace', htrace, List.append_assoc], ?_⟩
  rw [List.filter_append, List.length_append, hlen, hlen', Nat.add_comm]

/-- Accesses told outside an HDMA call are the DMA's own. -/
theorem OwnAccesses.of_tells {l : List Observed} {s t : State} (ht : Tells l s t) (hw : Within s t)
    (hi : s.inHDMA = false) : OwnAccesses l.length s t := by
  obtain ⟨new, htrace, hacc⟩ := ht
  obtain ⟨-, new', htrace', hctx⟩ := hw
  obtain rfl := List.append_cancel_right (htrace'.symm.trans htrace)
  have hown : (new'.filter fun x => x.what.isAccess && !x.ctx.inHDMA) = new'.filter fun x => x.what.isAccess :=
    List.filter_congr fun x hx => by rw [hctx x hx, hi, Bool.not_false, Bool.and_true]
  refine ⟨new', htrace, ?_⟩
  rw [hown, ← hacc, accesses, List.length_reverse, List.filter_map, List.length_map]
  rfl

theorem OwnAccesses.of_silent {s t : State} (h : Tells [] s t) : OwnAccesses 0 s t := by
  obtain ⟨new, htrace, hacc⟩ := h
  have hnone : ∀ x ∈ new, x.what.isAccess = false := by simpa [accesses] using hacc
  refine ⟨new, htrace, ?_⟩
  rw [List.filter_eq_nil_iff.2 fun x hx => by rw [hnone x hx, Bool.false_and]; decide]
  rfl

/-- What is observed during an HDMA call is none of the DMA's own accesses. -/
theorem OwnAccesses.of_inHDMA {s t : State}
    (h : ∃ new, t.env.trace = new ++ s.env.trace ∧ ∀ x ∈ new, x.ctx.inHDMA = true) : OwnAccesses 0 s t := by
  obtain ⟨new, htrace, hctx⟩ := h
  refine ⟨new, htrace, ?_⟩
  rw [List.filter_eq_nil_iff.2 fun x hx => by rw [hctx x hx, Bool.not_true, Bool.and_false]; decide]
  rfl

theorem State.hdmaLine_ownAccesses (s : State) : OwnAccesses 0 s s.hdmaLine := by
  unfold State.hdmaLine
  split
  · exact OwnAccesses.refl s
  · exact OwnAccesses.of_inHDMA (s.advanceHDMALines_inHDMA s.hdmaActive)

/-- An event that may be part of a delivery. -/
theorem OwnAccesses.ite {f : State → State} (hf : ∀ t, OwnAccesses 0 t (f t)) (b : Bool) (t : State) :
    OwnAccesses 0 t (if b then f t else t) := by
  cases b with
  | true => exact hf t
  | false => exact OwnAccesses.refl t

theorem State.deliver_ownAccesses (s : State) (d : Due) : OwnAccesses 0 s (s.deliver d) := by
  have hevents : ∀ t : State, OwnAccesses 0 t (State.deliver { d with nmi := none } t) := fun t =>
    (OwnAccesses.ite (fun u => .of_inHDMA u.initializeHDMALines_inHDMA) d.hdmaInit t).trans
      (OwnAccesses.ite State.hdmaLine_ownAccesses d.hdmaLine _)
  obtain ⟨init, line, nmi⟩ := d
  cases nmi with
  | none => exact hevents s
  | some level => exact hevents { s with env := { s.env with nmiPending := level } }

/-- Whatever a sink delivers, the DMA itself makes no access in it. -/
theorem State.cycleSink_ownAccesses (s : State) (c : Chan) : OwnAccesses 0 s (s.cycleSink c).2 := by
  have hnext : ∀ t : State, OwnAccesses 0 t t.nextDue.2 := fun t => by
    unfold State.nextDue
    split <;> exact ⟨[], rfl, rfl⟩
  have hdeliver := foldl_keeps (P := OwnAccesses 0 (s.addCycles Config.byteCost)) (fun s d => s.deliver d)
    (s.addCycles Config.byteCost).nextDue.1 (fun t d _ ht => ht.trans (t.deliver_ownAccesses d)) _ (hnext _)
  have hcycles : OwnAccesses 0 s (s.addCycles Config.byteCost) :=
    ⟨[⟨.addCycles Config.byteCost, s.context⟩], rfl, rfl⟩
  exact hcycles.trans hdeliver

theorem State.stepAddress_within (s : State) (c : Chan) (d : Half) (wraps : Half → Bool) :
    Within s (s.stepAddress c d wraps) := by
  have hrow : Within s (s.setRow c { s.row c with a1t := (s.row c).a1t + d }) := Within.of_eq rfl rfl
  unfold State.stepAddress
  simp only
  split
  · exact hrow.trans (State.observe_within _ _)
  · exact hrow

theorem moveAccesses_length (dir : Bool) (off : Byte) (a : AAddr) (v : Byte) :
    (moveAccesses dir off a v).length = 2 := by
  cases dir <;> rfl

theorem State.moveData_within (s : State) (c : Chan) : Within s (s.moveData c) :=
  (Within.of_eq (s := s) (t := s.selectOffset c (s.row c).mode) rfl rfl).trans (State.moveByte_within _ _ _ _)

/-- The rows of a byte make its two accesses. -/
theorem State.byteBody_ownAccesses {s : State} (ho : s.seq.sdd1On = false) (hi : s.inHDMA = false) (c : Chan) :
    OwnAccesses 2 s (s.byteBody c) := by
  obtain ⟨⟨v, hmoved⟩, -, -⟩ := State.byteBody_spec ho c
  have hwithin : Within s (s.byteBody c) := by
    obtain ⟨wraps, hbody⟩ := State.byteBody_eq_stepAddress ho c
    rw [hbody]
    exact (s.moveData_within c).trans (State.stepAddress_within _ c _ wraps)
  have hown := OwnAccesses.of_tells hmoved.told hwithin hi
  rwa [moveAccesses_length] at hown

/-! ## A run of bytes and the collision that ends it (R192, R193, R202) -/

/-- The byte of a valid transfer with its count and its sink, and whether the sink lets the transfer go on. -/
def State.sunkByte (c : Chan) (s : State) : Bool × State := ((s.byteBody c).countByte c).cycleSink c

theorem step_eq_sunkByte {c : Chan} {s : State} (hb : s.seq.busy = some c) (hn : s.seq.remaining ≠ 0)
    (hv : s.seq.invalid = false) :
    step s = .next (if (s.sunkByte c).1 then (s.sunkByte c).2 else (s.sunkByte c).2.abortDMA c) :=
  step_of_valid hb hn hv

/-- What a DMA does by itself in `k` bytes from `s` to `t`: two accesses each, and no NMI pulse. -/
structure OwnBytes (k : Nat) (s t : State) : Prop where
  accesses : OwnAccesses (2 * k) s t
  env : SinkStep s.env t.env

theorem OwnBytes.trans {k j : Nat} {s t u : State} (h : OwnBytes k s t) (h' : OwnBytes j t u) :
    OwnBytes (k + j) s u := by
  refine ⟨?_, h.env.trans h'.env⟩
  rw [Nat.mul_add]
  exact h.accesses.trans h'.accesses

theorem State.beginDMA_ownBytes (s : State) (c : Chan) : OwnBytes 0 s (s.beginDMA c) := by
  obtain ⟨new, p, hnew, hbegin⟩ := s.beginDMA_spec c
  obtain ⟨f, q, b, i, e, hshape, henv⟩ := s.beginDMA_shape c
  refine ⟨OwnAccesses.of_silent ⟨new, by rw [hbegin], hnew⟩, ?_⟩
  rw [hshape]
  exact henv.sink

theorem State.sunkByte_ownBytes {s : State} (ho : s.seq.sdd1On = false) (hi : s.inHDMA = false) (c : Chan) :
    OwnBytes 1 s (s.sunkByte c).2 := by
  have hsink := (((s.byteBody c).countByte c).cycleSink_keeps c).1.env
  have hcount : OwnAccesses 0 (s.byteBody c) ((s.byteBody c).countByte c) := ⟨[], rfl, rfl⟩
  exact ⟨((State.byteBody_ownAccesses ho hi c).trans hcount).trans (State.cycleSink_ownAccesses _ c),
    (s.byteBody_byteStep c).env.sink.trans hsink⟩

/-- What the call's own bytes leave: its flags, and the mask of the active channels. -/
structure GlobalsKept (s t : State) : Prop where
  inDMA : t.inDMA = s.inDMA
  inHDMA : t.inHDMA = s.inHDMA
  active : t.hdmaActive = s.hdmaActive

theorem GlobalsKept.trans {s t u : State} (h : GlobalsKept s t) (h' : GlobalsKept t u) : GlobalsKept s u :=
  ⟨h'.inDMA.trans h.inDMA, h'.inHDMA.trans h.inHDMA, h'.active.trans h.active⟩

theorem ByteStep.globalsKept {c : Chan} {s t : State} (h : ByteStep c s t) : GlobalsKept s t := by
  rw [h.rest]
  exact ⟨rfl, rfl, rfl⟩

/-- A byte whose sink delivers nothing. -/
theorem State.MovesOn.step_ownBytes {c : Chan} {s : State} {rest : List (List Due)} (h : s.MovesOn c)
    (hn : s.seq.remaining ≠ 0) (hi : s.inHDMA = false) (hs : s.env.script = [] :: rest) :
    ∃ t, step s = .next t ∧ GlobalsKept s t ∧ OwnBytes 1 s t := by
  have hbody := s.byteBody_byteStep c
  have hran : (s.byteBody c).hdmaRanInDMA = 0 := (congrArg State.hdmaRanInDMA hbody.rest).trans h.ran
  have hsink : s.sunkByte c = (true, ((s.byteBody c).countByte c).passSink rest) :=
    State.cycleSink_of_nil (s := (s.byteBody c).countByte c) hran (hbody.env.script.trans hs) c
  have hown := State.sunkByte_ownBytes h.sdd1On hi c
  rw [hsink] at hown
  obtain ⟨hdma, hhdma, hactive⟩ := hbody.globalsKept
  refine ⟨((s.byteBody c).countByte c).passSink rest, ?_, ⟨hdma, hhdma, hactive⟩, hown⟩
  rw [step_eq_sunkByte h.busy hn h.invalid, hsink, if_pos rfl]

/-- The run of `State.MovesOn.run_moves` keeps the flags and the masks, and makes its own accesses only. -/
theorem State.MovesOn.run_ownBytes {c : Chan} {s : State} (h : s.MovesOn c) (hp : s.patternStep = 0)
    (hi : s.inHDMA = false) (k : Nat) (hk : k ≤ s.seq.remaining) (rest : List (List Due))
    (hs : s.env.script = List.replicate k [] ++ rest) {t : State} (ht : core.run k s = .next t) :
    GlobalsKept s t ∧ OwnBytes k s t := by
  induction k generalizing rest t with
  | zero =>
    cases ht
    exact ⟨⟨rfl, rfl, rfl⟩, OwnAccesses.refl s, SinkStep.refl s.env⟩
  | succ k ih =>
    rw [List.replicate_succ', List.append_assoc] at hs
    obtain ⟨u, v, hrun, hmoved, hscript⟩ := h.run_moves hp k (by omega) ([] :: rest) hs
    obtain ⟨hkept, hown⟩ := ih (by omega) ([] :: rest) hs hrun
    have hleft := hmoved.remaining
    obtain ⟨w, hstep, hkept', hown'⟩ :=
      hmoved.movesOn.step_ownBytes (by omega) (hkept.inHDMA.trans hi) hscript
    cases ht.symm.trans (core_run_succ hrun hstep)
    exact ⟨hkept.trans hkept', hown.trans hown'⟩

/-- A byte whose sink delivers a scanline event, the channel of the DMA active, is the last one (R192, R193). -/
theorem State.MovesOn.step_collides {c : Chan} {s : State} {rest : List (List Due)} (h : s.MovesOn c)
    (hn : s.seq.remaining ≠ 0) (hd : s.inDMA = true) (hs : s.env.script = [⟨false, true, none⟩] :: rest)
    (ha : hasBit s.hdmaActive c = true) : step s = .next ((s.sunkByte c).2.abortDMA c) := by
  have hbody := s.byteBody_byteStep c
  obtain ⟨hdma, -, hactive⟩ := hbody.globalsKept
  have hne : s.hdmaActive ≠ 0 := fun hzero => by rw [hzero, hasBit_zero] at ha; cases ha
  have hstop : (s.sunkByte c).1 = !hasBit (s.byteBody c).hdmaActive c :=
    State.cycleSink_line (s := (s.byteBody c).countByte c) (hdma.trans hd)
      (hbody.env.script.trans hs) (fun hzero => hne (hactive.symm.trans hzero)) c
  rw [hactive, ha] at hstop
  rw [step_eq_sunkByte h.busy hn h.invalid, hstop, if_neg (by decide)]

/-- The row behind the sink of a byte after `k` others, the channel direct: what HDMA makes of it leaves `DAS` and `A1T`
(R202). -/
theorem State.sunkByte_row {c : Chan} {s : State} {r : Channel} {k : Nat} (ho : s.seq.sdd1On = false)
    (hr : s.row c = r.afterBytes k) (hd : r.ind = false) :
    ((s.sunkByte c).2.row c).das = (r.afterBytes (k + 1)).das ∧
      ((s.sunkByte c).2.row c).a1t = (r.afterBytes (k + 1)).a1t := by
  obtain ⟨-, -, hrow⟩ := State.byteBody_spec ho c
  have hcount : ((s.byteBody c).countByte c).row c = r.afterBytes (k + 1) := by
    rw [State.countByte_row, if_pos rfl, hrow, hr, Channel.afterBytes_succ]
    rfl
  have hkept := (((s.byteBody c).countByte c).cycleSink_keeps c).1.rows c
  rw [hcount] at hkept
  exact ⟨hkept.das hd, hkept.a1t⟩

/-- `k` undisturbed bytes, then one whose sink collides: the call ends there, `k + 1` bytes moved. -/
theorem State.MovesOn.run_collides {c : Chan} {s : State} (h : s.MovesOn c) (hp : s.patternStep = 0)
    (hd : s.inDMA = true) (hi : s.inHDMA = false) (hind : (s.row c).ind = false) (ha : hasBit s.hdmaActive c = true)
    (k : Nat) (hk : k < s.seq.remaining) (rest : List (List Due))
    (hs : s.env.script = List.replicate k [] ++ [⟨false, true, none⟩] :: rest) :
    ∃ t, core.run (k + 1) s = .next (t.abortDMA c) ∧ OwnBytes (k + 1) s t ∧
      (t.row c).das = ((s.row c).afterBytes (k + 1)).das ∧ (t.row c).a1t = ((s.row c).afterBytes (k + 1)).a1t := by
  obtain ⟨t, v, hrun, hmoved, hscript⟩ := h.run_moves hp k hk.le _ hs
  obtain ⟨hkept, hown⟩ := h.run_ownBytes hp hi k hk.le _ hs hrun
  have hleft := hmoved.remaining
  have hstep := hmoved.movesOn.step_collides (by omega) (hkept.inDMA.trans hd) hscript
    (by rw [hkept.active]; exact ha)
  have hbyte := State.sunkByte_ownBytes hmoved.movesOn.sdd1On (hkept.inHDMA.trans hi) c
  exact ⟨_, core_run_succ hrun hstep, hown.trans hbyte, State.sunkByte_row hmoved.movesOn.sdd1On hmoved.row hind⟩

/-- Settles O31: behind the entry `State.MovesOn.run_collides`, the result of the abort the last observation. -/
theorem collisionAbortsAfterExactlyKBytes : Obligations.CollisionAbortsAfterExactlyKBytes := by
  intro c s k d rest he hi hr hv hh hind hpos hk hd hs ha
  obtain ⟨j, rfl⟩ : ∃ j, k = j + 1 := ⟨k - 1, by omega⟩
  obtain rfl : d = (s.row c).addrStep := hd
  obtain ⟨hon, hzero, hcount⟩ := State.beginDMA_movesOn hv hh hr
  obtain ⟨entry, p, -, hbegin⟩ := s.beginDMA_spec c
  have hrow : (s.beginDMA c).row c = s.row c := State.row_congr (s.beginDMA_ch c) c
  obtain ⟨t, hrun, hown, hdas, ha1t⟩ := hon.run_collides hzero (by rw [hbegin]) (by rw [hbegin]; exact hi)
    (by rw [hrow]; exact hind) (by rw [hbegin]; exact ha) j (hk.trans_eq hcount.symm) rest (by rw [hbegin]; exact hs)
  rw [hrow] at hdas ha1t
  obtain ⟨⟨new, htrace, hlen⟩, henv⟩ := (s.beginDMA_ownBytes c).trans hown
  obtain ⟨new', htrace', hnmi⟩ := henv.noNmi
  obtain rfl := List.append_cancel_right (htrace'.symm.trans htrace)
  refine ⟨s.beginDMA c, t.abortDMA c, ⟨.dmaResult c false, (t.endDMA c).context⟩ :: new',
    (exec_dmaExecOf c s).trans (State.startDMA_next he c), hrun, hdas, ha1t, rfl, rfl, rfl, rfl,
    congrArg (List.cons _) htrace, rfl, List.forall_mem_cons.2 ⟨rfl, hnmi⟩, ?_⟩
  rw [List.filter_cons_of_neg Bool.false_ne_true, hlen, Nat.zero_add]

end Sys2Proof.Machine
end

section
/-! PROOFS. Family 42_hdma_line: the line-count byte's rows (R222 to R227), frame start (R221), and the scanline step with
its accesses, its cycle units and its masks (R228 to R240). -/

namespace Sys2Proof.Machine

/-! ## The scanline step (R228, R263) -/

theorem State.hdmaLine_eq {s : State} (ha : s.hdmaActive ≠ 0) :
    s.hdmaLine = { (s.advanceHDMALines s.hdmaActive).2 with hdmaActive := (s.advanceHDMALines s.hdmaActive).1 } := by
  rw [State.hdmaLine, if_neg ha]

/-- A scanline step is an HDMA call, whatever `InEither` was before it (R286). -/
theorem State.hdmaLine_call_of_active {s : State} (ha : s.hdmaActive ≠ 0) : HdmaCall s s.hdmaLine := by
  obtain ⟨hkeeps, hin, heither, hcurrent⟩ := s.advanceHDMALines_call s.hdmaActive
  rw [State.hdmaLine_eq ha]
  exact ⟨hkeeps.trans ⟨rfl, rfl, rfl, rfl, rfl, rfl, fun _ => RowKeeps.refl _, EnvStep.refl _⟩, hin, heither, hcurrent⟩

/-- What a scanline step from `s` to `t` does, channel `c` moving the bytes `v c` and reading the table bytes `b c`, `lo c`
and `hi c`: its accesses, its cycle units, memory, and the result of each channel (R228, R240, R261). -/
structure ScanStep (s t : State) (v : Chan → Nat → Byte) (b lo hi : Chan → Byte) : Prop where
  told : Tells (allChans.flatMap (s.scanAccesses v b lo hi)) s t
  cycles : t.env.cycles = s.env.cycles + Config.hdmaSyncCost + (allChans.map (s.scanCycles b)).sum
  peek : ∀ x, (∀ d, hasBit s.hdmaActive d = true → ¬(s.row d).storesTo x) → t.env.peek x = s.env.peek x
  result : ∀ c, ScanResult s (s.hdmaActive, s) (t.hdmaActive, t) c (s.lineKnows c) (v c) (b c) (lo c) (hi c)

/-- The loop of `advanceChannels_spec` behind the synchronisation, which reads nothing. -/
theorem State.hdmaLine_spec {s : State} (ha : s.hdmaActive ≠ 0) : ∃ v b lo hi, ScanStep s s.hdmaLine v b lo hi := by
  have hsync := s.advancePrelude_reads s.hdmaActive
  obtain ⟨v, b, lo, hi, htold, hcycles, hpeek, hresult⟩ := advanceChannels_spec s allChans allChans_ascending
    (s.hdmaActive, s.advancePrelude s.hdmaActive) fun _ _ => ⟨rfl, rfl⟩
  rw [State.hdmaLine_eq ha, State.advanceHDMALines_eq]
  refine ⟨v, b, lo, hi, hsync.told.trans htold, ?_, fun x hx => ?_, fun c => ?_⟩
  · exact hcycles.trans (congrArg (· + _) hsync.cycles)
  · exact (hpeek x fun d _ => hx d).trans (hsync.peek x)
  · exact ((hresult c (mem_allChans c)).mono (k' := s.lineKnows c) fun x w hw =>
      ⟨(hsync.peek x).trans hw.1, fun d _ => hw.2 d⟩).congr rfl rfl rfl rfl

/-- Settles O41: `State.hdmaLine_spec`, behind the guard of R262. -/
theorem scanlineStepOfEveryChannel : Obligations.ScanlineStepOfEveryChannel := by
  intro s hs ha
  obtain ⟨-, hin, heither, hcurrent⟩ := State.hdmaLine_call_of_active ha
  obtain ⟨v, b, lo, hi, ⟨new, htrace, hacc⟩, -, hpeek, hresult⟩ := State.hdmaLine_spec ha
  refine ⟨s.hdmaLine, new, v, b, lo, hi, State.outsideHDMA_next hs _, hin, heither, hcurrent,
    State.hdmaLine_ran_of_active ha, htrace, hacc, hpeek, fun c => ?_⟩
  obtain ⟨hidle, hdata, hcounts, hreloads⟩ := hresult c
  refine ⟨hidle, hdata, hcounts, fun hb hc => ?_⟩
  obtain ⟨⟨hkb, hklo, hkhi⟩, hloads, hactive, hended⟩ := hreloads hb hc
  exact ⟨hkb, hklo, hkhi, hloads, hactive, hended⟩

/-- Settles O42: a reloading channel stays active exactly where its line-count byte is not 0. -/
theorem scanlineStepCycleUnits : Obligations.ScanlineStepCycleUnits := by
  intro s hs ha
  obtain ⟨v, b, lo, hi, -, hcycles, -, hresult⟩ := State.hdmaLine_spec ha
  refine ⟨s.hdmaLine, State.outsideHDMA_next hs _, hcycles.trans ?_⟩
  congr 2
  refine List.map_congr_left fun c _ => ?_
  unfold State.scanCycles
  by_cases hb : hasBit s.hdmaActive c = true
  · by_cases hc : (s.row c).lineCount = 1
    · obtain ⟨-, -, hactive, -⟩ := (hresult c).reloads hb hc
      rw [if_pos hb, if_pos hb, if_pos hc, if_pos hc, ← hactive]
    · rw [if_pos hb, if_pos hb, if_neg hc, if_neg hc]
  · rw [if_neg hb, if_neg hb]

/-- The OAM fix stands before a group alone: none of the table's accesses is one (R222, R236). -/
theorem Channel.oamFix_not_mem_tableAccesses (a : Half) (b lo hi : Byte) (r : Channel) :
    Observed.oamFix ∉ r.tableAccesses a b lo hi := by
  unfold Channel.tableAccesses
  split <;> simp

/-- The accesses of a channel's scanline: the OAM fix where it is due, and no further one (R236). -/
theorem Channel.lineAccesses_oamFix (v : Nat → Byte) (b lo hi : Byte) (r : Channel) :
    ∃ rest, r.lineAccesses v b lo hi = (if r.doTransfer && r.bbad == 0x04 then [.oamFix] else []) ++ rest ∧
      Observed.oamFix ∉ rest := by
  have htable : Observed.oamFix ∉ (if r.lineCount = 1 then r.tableAccesses r.lineTable b lo hi else []) := by
    split
    · exact r.oamFix_not_mem_tableAccesses _ b lo hi
    · exact List.not_mem_nil
  unfold Channel.lineAccesses Channel.groupAccesses
  cases r.doTransfer with
  | false => exact ⟨_, rfl, htable⟩
  | true =>
    simp only [if_true, Bool.true_and, beq_iff_eq, List.append_assoc]
    refine ⟨_, rfl, fun h => (List.mem_append.1 h).elim (fun h => ?_) htable⟩
    obtain ⟨i, -, hi⟩ := List.mem_flatMap.1 h
    split at hi <;> simp at hi

/-- Where `c` is the one active channel, the accesses of the line are its own. -/
theorem State.flatMap_scanAccesses_single {s : State} {c : Chan} (h : ∀ d, hasBit s.hdmaActive d = (d == c))
    (v : Chan → Nat → Byte) (b lo hi : Chan → Byte) :
    allChans.flatMap (s.scanAccesses v b lo hi) = (s.row c).lineAccesses (v c) (b c) (lo c) (hi c) := by
  have hidle : ∀ l : List Chan, (∀ d ∈ l, d ≠ c) → l.flatMap (s.scanAccesses v b lo hi) = [] := fun l hl =>
    List.flatMap_eq_nil_iff.2 fun d hd => by
      have hd' : hasBit s.hdmaActive d = false := (h d).trans (beq_eq_false_iff_ne.2 (hl d hd))
      rw [State.scanAccesses, hd']
      rfl
  have hc : hasBit s.hdmaActive c = true := (h c).trans (beq_self_eq_true c)
  obtain ⟨pre, post, hsplit, hpre, hpost⟩ := allChans_split c
  rw [hsplit, List.flatMap_append, List.flatMap_cons, hidle pre hpre, hidle post hpost, State.scanAccesses, if_pos hc,
    List.nil_append, List.append_nil]

/-- Settles O45: the line's accesses are those of the one active channel, which hold the OAM fix at their head only. -/
theorem oamFixOncePerGroup : Obligations.OamFixOncePerGroup := by
  intro c s hs h
  have ha : s.hdmaActive ≠ 0 := fun h0 => by
    have hc := h c
    rw [h0, hasBit_zero, beq_self_eq_true] at hc
    cases hc
  obtain ⟨v, b, lo, hi, ⟨new, htrace, hacc⟩, -, -, -⟩ := State.hdmaLine_spec ha
  obtain ⟨rest, hline, hrest⟩ := (s.row c).lineAccesses_oamFix (v c) (b c) (lo c) (hi c)
  refine ⟨s.hdmaLine, new, rest, State.outsideHDMA_next hs _, htrace, ?_, hrest⟩
  rw [hacc, State.flatMap_scanAccesses_single h, hline]

/-! ## A direct call of `AdvanceHDMALines` (R228, R57) -/

/-- A channel outside the mask is passed over, so its row stays. -/
theorem State.advanceLoop_row (mask : Mask) (s : State) {c : Chan} (hc : hasBit mask c = false) :
    (s.advanceLoop mask).2.row c = s.row c := by
  refine (foldl_keeps (P := fun p : Mask × State => hasBit p.1 c = false ∧ p.2.row c = s.row c) advanceChannel allChans ?_
    (mask, s.advancePrelude mask) ⟨hc, rfl⟩).2
  rintro ⟨m, u⟩ d _ ⟨hm, hrow⟩
  by_cases hd : c = d
  · subst hd
    rw [advanceChannel_idle u hm]
    exact ⟨hm, hrow⟩
  · exact ⟨((advanceChannel_mask m u d c).1 hd).trans hm, ((advanceChannel_iteration m u d).others c hd).trans hrow⟩

theorem callAdvance_next {s : State} (h : s.inHDMA = false) (mask : Mask) :
    callAdvance mask s = .next
      (((s.advanceLoop mask).2.leaveHDMA s.currentChannel).observe (.remainingMask (s.advanceLoop mask).1)) :=
  State.outsideHDMA_next h _

/-- Settles O43: what the channel loop keeps of its mask, of `HDMA_ENDED` and of the other rows; the answer is observed
last. -/
theorem directAdvanceAnswersASubset : Obligations.DirectAdvanceAnswersASubset := by
  intro s mask rest hp hs hin
  let u : State := { s with env := { s.env with inbox := rest } }
  have hstep := (hp.step_eq_serve hin).trans (callAdvance_next (s := u) hs mask)
  obtain ⟨new, htrace, -, -⟩ := (u.advanceLoop_keeps mask).env.grows
  refine ⟨_, (u.advanceLoop mask).1, _ :: new, hstep, congrArg (List.cons _) htrace, rfl, u.advanceLoop_active mask,
    fun c => ⟨u.advanceLoop_subset mask c, u.advanceLoop_ended mask c, u.advanceLoop_row mask⟩⟩

/-! ## Both entry points (R239, R267) -/

/-- Settles O44: neither entry point changes more than an event of a cycle sink may. -/
theorem hdmaLeavesConfigurationAndDmaState : Obligations.HdmaLeavesConfigurationAndDmaState := by
  intro s hs i hi
  have hnext : ∃ t, exec i s = .next t ∧ SinkKeeps s t := by
    rcases List.mem_pair.1 hi with rfl | rfl
    · exact ⟨_, State.outsideHDMA_next hs State.initializeHDMALines, s.initializeHDMALines_sink⟩
    · exact ⟨_, State.outsideHDMA_next hs State.hdmaLine, s.hdmaLine_sink⟩
  obtain ⟨t, hexec, h⟩ := hnext
  exact ⟨t, hexec, h.inDMA, h.mdmaen, h.hdmaen, h.patternStep, h.sdd1Flag, h.seq,
    fun c => ⟨(h.rows c).config, (h.rows c).a1t, (h.rows c).das⟩⟩

/-! ## Frame start (R221) -/

/-- With no channel enabled the environment stays: each row's `DoTransfer` is cleared, and that is all. -/
theorem State.initLoop_env_of_hdmaen_zero {s : State} (h : s.hdmaen = 0) : s.initLoop.env = s.env := by
  refine (foldl_keeps (P := fun u : State => u.hdmaen = 0 ∧ u.env = s.env) _ allChans ?_ s.initPrelude
    ⟨s.initPrelude_hdmaen.trans h, ?_⟩).2
  · rintro u c - ⟨hen, henv⟩
    rw [State.initChannel_idle (by rw [hen, hasBit_zero])]
    exact ⟨hen, henv⟩
  · unfold State.initPrelude
    rw [if_pos (show s.enterHDMA.hdmaen = 0 from h)]
    rfl

/-- Settles O39: the loop of `initChannels_spec` behind the synchronisation, which leaves `HDMA_ACTIVE` at `HDMAEN` and
`HDMA_ENDED` at 0. -/
theorem frameStart : Obligations.FrameStart := by
  intro s hs
  obtain ⟨-, hin, heither, hcurrent⟩ := s.initializeHDMALines_call
  have hsync := s.initPrelude_reads
  obtain ⟨b, lo, hi, hreads, hresult⟩ := initChannels_spec s allChans allChans_nodup s.initPrelude s.initPrelude_hdmaen
    (fun c _ => s.initPrelude_row c) hsync.peek
  obtain ⟨hpeek, -, hcycles, new, htrace, hacc⟩ := hsync.trans hreads
  refine ⟨s.initializeHDMALines, new, b, lo, hi, State.outsideHDMA_next hs _, hin, heither, hcurrent,
    s.initializeHDMALines_ran, hpeek, State.initLoop_env_of_hdmaen_zero, htrace, hacc,
    hcycles.trans (Nat.add_assoc ..).symm, fun c => ?_⟩
  obtain ⟨hidle, hread⟩ := hresult c (mem_allChans c)
  rw [s.initPrelude_hdmaActive, s.initPrelude_hdmaEnded, hasBit_zero] at hidle hread
  refine ⟨fun hb => ?_, fun hb => ?_⟩
  · rw [hb] at hidle
    exact hidle rfl
  · rw [hb, Bool.true_and, Bool.false_or] at hread
    obtain ⟨⟨hkb, hklo, hkhi⟩, hloads, hbits⟩ := hread rfl
    exact ⟨hkb, hklo, hkhi, hloads, hbits⟩

/-! ## The line-count byte's rows (R222 to R227) -/

theorem lineCountOf_toNat : ∀ n : BitVec 7, n ≠ 0 → (lineCountOf n).toNat = n.toNat := by decide

/-- Each row of a line-count byte is that of some byte, whose bit 7, count and not being 0 are the row's flags (R102). -/
theorem exists_lineByte_row (c : Chan) {n : BitVec 7} (hn : n ≠ 0) :
    ∀ p ∈ ([(.lcEnd c, false, 128, false), (.lcRep128 c, true, 128, true), (.lcSingle c n, false, n.toNat, true),
      (.lcRepeat c n, true, n.toNat, true)] : List (Instr × Bool × Nat × Bool)),
    ∃ b : Byte, p = (decodeLcb c b, b.getLsbD 7, (lineCountOf (b.extractLsb' 0 7)).toNat, !(b == 0)) := by
  have hcount : ∀ rep : Bool, (decodeLcb c (BitVec.ofBool rep ++ n), (BitVec.ofBool rep ++ n).getLsbD 7,
      (lineCountOf ((BitVec.ofBool rep ++ n).extractLsb' 0 7)).toNat, !(BitVec.ofBool rep ++ n == (0 : Byte))) =
      (if rep then .lcRepeat c n else .lcSingle c n, rep, n.toNat, true) := fun rep => by
    obtain ⟨h0, -, h7, hlow⟩ := countByte_fields rep n hn
    rw [decodeLcb_countByte c rep hn, h7, hlow, beq_eq_false_iff_ne.2 h0, lineCountOf_toNat n hn]
    rfl
  intro p hp
  simp only [List.mem_cons, List.not_mem_nil, or_false] at hp
  obtain rfl | rfl | rfl | rfl := hp
  · exact ⟨0x00, rfl⟩
  · exact ⟨0x80, rfl⟩
  · exact ⟨BitVec.ofBool false ++ n, (hcount false).symm⟩
  · exact ⟨BitVec.ofBool true ++ n, (hcount true).symm⟩

/-- Settles O35: the row is the one `State.lineByte_spec` gives for the byte, which only reads. -/
theorem lineCountByteResults : Obligations.LineCountByteResults := by
  intro c n s hn p hp
  obtain ⟨b, rfl⟩ := exists_lineByte_row c hn p hp
  obtain ⟨lo, hi, ⟨ptr, hrow⟩, hreads, -, -⟩ := s.lineByte_spec c b
  have hon := s.lineByte_onChannel c b
  refine ⟨s.lineByte c b, exec_decodeLcb c b s, ?_, ?_, ?_, ?_, hon.row.config, hon.row.a1t, fun h => ?_,
    hon.onlyRowAndEnv, hreads.peek⟩ <;> rw [hrow]
  · rw [lineCountOf_eq]
  · rw [Bool.and_comm]
  · simp only [Bool.and_comm, h]
    rfl

/-- The row of a byte that is not 0 opens an entry (R224 to R226). -/
theorem exec_entry_row (c : Chan) (n : BitVec 7) (s : State) :
    ∀ i ∈ [Instr.lcRep128 c, .lcSingle c n, .lcRepeat c n], ∃ rep count, exec i s = .next (s.openEntry c rep count) := by
  intro i hi
  simp only [List.mem_cons, List.not_mem_nil, or_false] at hi
  obtain rfl | rfl | rfl := hi <;> exact ⟨_, _, rfl⟩

/-- Settles O36: an entry fetches its address where the channel is indirect, and makes no other access. -/
theorem indirectAddressFetch : Obligations.IndirectAddressFetch := by
  intro c n s
  refine ⟨fun i hi => ?_, s.lineEnd c, rfl, rfl, by rw [State.lineEnd, State.updRow_row_self]⟩
  obtain ⟨rep, count, hexec⟩ := exec_entry_row c n s i hi
  obtain ⟨lo, hi, p, hrow, ⟨-, -, hcycles, new, htrace, hacc⟩, hlo, hhi⟩ := s.openEntry_spec c rep count
  refine ⟨fun hind => ?_, fun hind => ?_⟩ <;> rw [hind] at hrow hcycles hacc
  · refine ⟨_, new, lo, hi, hexec, htrace, hacc, hlo, hhi, ?_, ?_, hcycles⟩ <;> rw [hrow] <;> rfl
  · refine ⟨_, new, hexec, htrace, hacc, ?_⟩
    rw [hrow]
    rfl

end Sys2Proof.Machine
end

section
/-! PROOFS. Family 43_arbiter_scheduler: the arbiter between transfers and the stalled CPU (R260, R261, R269), reset (R264,
R310, R311), the `HDMA.EN` rows (R265) and the scheduler's scanline event (R263). -/

namespace Sys2Proof.Machine

/-! ## The arbiter (R260, R261) -/

/-- The search for a request is ascending, so it ends at the lowest one (R261). -/
theorem lowestChan_eq_some {m : Mask} {c : Chan} (hc : hasBit m c = true)
    (hlow : ∀ d : Chan, d.toNat < c.toNat → hasBit m d = false) : lowestChan m = some c := by
  obtain ⟨pre, post, hsplit⟩ := List.append_of_mem (mem_allChans c)
  have hbelow : ∀ d ∈ pre, d.toNat < c.toNat := by
    have hascending := allChans_ascending
    rw [hsplit, List.pairwise_append] at hascending
    obtain ⟨-, -, hcross⟩ := hascending
    exact fun d hd => hcross d hd c List.mem_cons_self
  exact List.find?_eq_some_iff_append.2 ⟨hc, pre, post, hsplit, fun d hd => by rw [hlow d (hbelow d hd)]; rfl⟩

/-- Between transfers a request found by the arbiter is what the step serves (R260). -/
theorem step_of_lowestChan {s : State} {c : Chan} (hb : s.seq.busy = none) (hc : lowestChan s.mdmaen = some c) :
    step s = exec (dmaExecOf c) s := by
  rw [step_idle hb, State.idleStep, hc]

/-- Settles O50: the arbiter finds the lowest request, and is asked before the port. -/
theorem arbiterStartsTheLowestRequestedChannel : Obligations.ArbiterStartsTheLowestRequestedChannel :=
  fun _ _ hb hc hlow => step_of_lowestChan hb (lowestChan_eq_some hc hlow)

/-! ## The stalled CPU (R269) -/

theorem State.beginDMA_inbox (s : State) (c : Chan) : (s.beginDMA c).env.inbox = s.env.inbox := by
  obtain ⟨_, _, _, _, _, hbegin, henv⟩ := s.beginDMA_shape c
  rw [hbegin]
  exact henv.inbox

/-- Settles O51: a byte or the end of the call in flight takes no move, and neither does the start of a requested one. -/
theorem cpuIsStalledWhileTransferring : Obligations.CpuIsStalledWhileTransferring := by
  intro s t htransfer h
  cases hb : s.seq.busy with
  | some c => exact (dmaStepKeeps_of_next ((step_busy hb).symm.trans h)).inbox
  | none =>
    have hrequested : s.mdmaen ≠ 0 := htransfer.resolve_left (by rw [hb]; decide)
    obtain ⟨c, hc, -⟩ := lowestChan_some hrequested
    rw [step_of_lowestChan hb hc, exec_dmaExecOf] at h
    rw [State.startDMA_eq_next h, s.beginDMA_inbox]

/-! ## Reset (R264, R310, R311) -/

/-- The rows and the globals together are all of the state but the environment (R48, R55; log 30). -/
theorem State.reset_rows_and_globals (s : State) :
    s.resetAllChannels.resetGlobals = { State.reset with env := s.env } := rfl

/-- Settles O2: the event resets rows and globals, the call the rows; a row of either is one of `State.reset`. -/
theorem resetEventAndCallReset : Obligations.ResetEventAndCallReset := by
  refine ⟨fun s hs => ?_, fun s rest hp hin => ?_⟩
  · change execEvReset s = _
    rw [execEvReset, hs, s.reset_rows_and_globals]
    rfl
  · exact ⟨_, hp.step_eq_serve hin, fun _ => rfl, rfl⟩

/-! ## The `HDMA.EN` rows (R265) -/

/-- Settles O15: `State.withHdmaEnabled`, bit by bit. -/
theorem hdmaEnableBit : Obligations.HdmaEnableBit := by
  intro s hs p hp
  have hrow : p.1 = hdmaEnOf p.2 := by revert p; decide
  refine ⟨s.withHdmaEnabled p.2, ?_, fun d => ?_, fun d => ?_, rfl⟩
  · rw [hrow, exec_hdmaEnOf hs]
  · exact hasBit_withBit s.hdmaen p.2 d
  · exact s.withHdmaEnabled_active p.2 d

/-! ## The scanline event (R263) -/

theorem State.hdmaLine_of_inactive {s : State} (ha : s.hdmaActive = 0) : s.hdmaLine = s := if_pos ha

/-- Settles O40: the event is the scheduler's reaction, which tests the active mask. -/
theorem lineEventRunsTheActiveChannels : Obligations.LineEventRunsTheActiveChannels := by
  refine ⟨rfl, fun s hs => ?_⟩
  have hexec : exec .evHdmaLine s = .next s.hdmaLine := State.outsideHDMA_next hs State.hdmaLine
  refine ⟨fun ha => ?_, fun ha => ?_⟩
  · rw [hexec, State.hdmaLine_of_inactive ha]
  · rw [hexec, State.hdmaLine_eq ha]

end Sys2Proof.Machine
end
